-- ==== Sys2Proof/Word.lean ====
section
/-! DEFINITION. The word types of the machine (spec 00_scope.md R4, 10_state.md section 1, 30_encoding.md R61). -/

namespace Sys2Proof

/-- One memory byte or one general register (R10, R40). -/
abbrev Byte := BitVec 8

/-- The width of `PC`, `I`, `IR`, a stack entry and an instruction word (R15, R16, R19, R22, R60). -/
abbrev Word := BitVec 16

/-- The `nnn` field: a 12-bit address (R61). -/
abbrev Addr := BitVec 12

/-- A 4-bit slice of a word (GLOSSARY "Nibble"). -/
abbrev Nibble := BitVec 4

/-- The number of a general register, `V0` to `VF` (R10). -/
abbrev Reg := Fin 16

/-- A key number or key code, 0 to 15 (R223, R224). -/
abbrev Key := Fin 16

/-- A pixel of the display: column, then row (R53). -/
abbrev Pixel := Fin 64 × Fin 32

end Sys2Proof
end

