-- ==== Sys2Proof/Config.lean ====
section
/-! DEFINITION. What the implementation fixes (the sizes of 00_scope.md R3) and the free values: what the collaborators
answer, opaque constants with no body. The other parameters of R3 stand in Machine/Params.lean. -/

namespace Sys2Proof

/-- `MEM_SIZE` (R3, R40). -/
abbrev Config.memSize : Nat := 4096

/-- `STACK_DEPTH` (R3, R19). -/
abbrev Config.stackDepth : Nat := 16

/-- `DISPLAY_W` (R3). -/
abbrev Config.displayW : Nat := 64

/-- `DISPLAY_H` (R3). -/
abbrev Config.displayH : Nat := 32

/-- FREE VALUE: what the `n`-th `RandByte()` call returns (R140, R225; assumption 5, DESIGN CHOICE: safe). -/
opaque Config.randByte : Nat → Byte

/-- FREE VALUE: what the `n`-th `KeyDown` call answers when it asks for key `k` (R150, R223; assumption 6, DESIGN
CHOICE: safe). -/
opaque Config.keyDown : Nat → Key → Bool

/-- FREE VALUE: what the `n`-th `KeyEvent()` call returns, no event or one key code (R155, R224; assumption 7, DESIGN
CHOICE: safe). -/
opaque Config.keyEvent : Nat → Option Key

/-- FREE VALUE: how many `TimerTick` events the timer driver issues before the `n`-th tick at which they can have an
effect (R226: any number may fall between two ticks; assumption 4, DESIGN CHOICE: safe). -/
opaque Config.timerTicks : Nat → Nat

end Sys2Proof
end

