-- ==== Sys2Proof/Machine/Params.lean ====
section
/-! DEFINITION. The parameters of 00_scope.md R3 at the spec's values, and the font of 44_index_and_memory.md R161. -/

namespace Sys2Proof

/-- `PROGRAM_BASE`, the reset vector (R3, R48). -/
abbrev Config.programBase : Nat := 0x200

/-- `FONT_BASE`, OPEN in the spec, at the spec's default (R3, R161, D12; assumption 1, DESIGN CHOICE: unsafe). -/
def Config.fontBase : Nat := 0x000

/-- `FONT_STRIDE`: bytes per glyph (R3, R161). -/
abbrev Config.fontStride : Nat := 5

/-- How many bytes the font has: 16 glyphs of `FONT_STRIDE` (R161). -/
abbrev Config.fontSize : Nat := 80

/-- `FB_INIT`, OPEN in the spec, at the spec's default: every pixel clear (R3, R222, D21; assumption 2, DESIGN
CHOICE: unsafe). -/
def Config.fbInit : Vector (BitVec 64) 32 := Vector.replicate 32 0#64

/-- `TIMERS_RUN_DURING_KEY_WAIT`, at the spec's value (R3, R226, D16; assumption 3, DESIGN CHOICE: unsafe). -/
def Config.timersRunDuringKeyWait : Bool := false

/-- The 80 bytes of the font, five sprite rows per digit, digit 0 first (R161). -/
def Config.font : List Byte :=
  [0xF0#8, 0x90#8, 0x90#8, 0x90#8, 0xF0#8] ++
  [0x20#8, 0x60#8, 0x20#8, 0x20#8, 0x70#8] ++
  [0xF0#8, 0x10#8, 0xF0#8, 0x80#8, 0xF0#8] ++
  [0xF0#8, 0x10#8, 0xF0#8, 0x10#8, 0xF0#8] ++
  [0x90#8, 0x90#8, 0xF0#8, 0x10#8, 0x10#8] ++
  [0xF0#8, 0x80#8, 0xF0#8, 0x10#8, 0xF0#8] ++
  [0xF0#8, 0x80#8, 0xF0#8, 0x90#8, 0xF0#8] ++
  [0xF0#8, 0x10#8, 0x20#8, 0x40#8, 0x40#8] ++
  [0xF0#8, 0x90#8, 0xF0#8, 0x90#8, 0xF0#8] ++
  [0xF0#8, 0x90#8, 0xF0#8, 0x10#8, 0xF0#8] ++
  [0xF0#8, 0x90#8, 0xF0#8, 0x90#8, 0x90#8] ++
  [0xE0#8, 0x90#8, 0xE0#8, 0x90#8, 0xE0#8] ++
  [0xF0#8, 0x80#8, 0x80#8, 0x80#8, 0xF0#8] ++
  [0xE0#8, 0x90#8, 0x90#8, 0x90#8, 0xE0#8] ++
  [0xF0#8, 0x80#8, 0xF0#8, 0x80#8, 0xF0#8] ++
  [0xF0#8, 0x80#8, 0xF0#8, 0x80#8, 0x80#8]

end Sys2Proof
end

