-- ==== Sys2Proof/Machine/State.lean ====
section
/-! DEFINITION. The state of the machine as plain data: every element of 10_state.md section 1, the frame buffer of
60_exceptions.md R222, the model's own counters that say which free value comes next, and the agents' next actions. -/

namespace Sys2Proof.Machine

/-- `RUN`, the run state (R24); value 3 is never produced, so it has no constructor (assumption 14, DEDUCED: safe). -/
inductive RunState where
  /-- Value 0: the next tick fetches and executes. -/
  | running
  /-- Value 1: the last tick executed `LD Vx, K` and no key event was available. -/
  | awaitKey
  /-- Value 2: a fatal error was raised; ticks are ignored. -/
  | halted
  deriving DecidableEq, Repr

/-- `ERR`, the code of the fatal error that halted the core (R25); codes 6 and 7 are never produced (assumption 14,
DEDUCED: safe). -/
inductive ErrorCode where
  /-- Code 0, `NONE`. -/
  | noError
  /-- Code 1, raised by decode (R200). -/
  | invalidOpcode
  /-- Code 2, raised by `CALL` (R201). -/
  | stackOverflow
  /-- Code 3, raised by `RET` (R202). -/
  | stackUnderflow
  /-- Code 4, raised by the fetch (R204). -/
  | fetchOutOfBounds
  /-- Code 5, raised by `DRW`, `LD B, Vx`, `LD [I], Vx` and `LD Vx, [I]` (R205). -/
  | dataOutOfBounds
  deriving DecidableEq, Repr

/-- What a tick came to (R210, R212). -/
inductive TickOutcome where
  /-- The rule ran to its end. -/
  | commit
  /-- `LD Vx, K` found no key event. -/
  | stall
  /-- A fatal error was raised. -/
  | fatal
  /-- `RUN` was `HALTED`. -/
  | ignored
  deriving DecidableEq, Repr

/-- The ways in which a state itself shows that its run has ended (R262); that the host stops issuing ticks is no matter of the
state. -/
inductive RunEnd where
  /-- (b): the host discarded the machine. -/
  | discarded
  /-- (a): a fatal error was raised. -/
  | fatalError
  /-- (c): the state is a fixed point of `tick` with `RUN = RUNNING`. -/
  | fixedPoint
  deriving DecidableEq, Repr

/-- The actions of the three agents on the core's state (R220, R228); the host's reads change nothing. -/
inductive Action where
  /-- The core: one `tick` (R210). -/
  | tick
  /-- The timer driver: one `TimerTick` (R226). -/
  | timerTick
  /-- The host: `Load(image)` (R250). -/
  | load (image : List Byte)
  /-- The host drops the machine (R228). -/
  | discard
  deriving DecidableEq, Repr

/-- Reasons a step could stop without a next state. The spec gives the machine none: each of its five fatal errors is a
NEXT state with `RUN = HALTED` (R203), and a tick in `HALTED` leaves the state as it is (R212). Nobody raises one, which is
safe (assumption 10, DEDUCED: safe). -/
inductive Fault where
  deriving DecidableEq, Repr

/-- Why an instruction has no meaning. -/
inductive Refusal where
  /-- An instruction that has no meaning in the model, raised by `exec` alone, in an arm that rejects it by name; safe. No
  arm raises it: all 35 instructions have their meaning. -/
  | notModelled (mnemonic : String)
  deriving DecidableEq, Repr

/-- `MEM` (R26, R40): the bytes that differ from the reset contents, by rising address (assumption 13, DEDUCED: safe). -/
abbrev Mem := List Host.Cell

/-- The machine's state. -/
structure State where
  /-- `V[0]` to `V[15]` (R10). -/
  v : Vector Byte 16
  /-- `I`, the index register (R15). -/
  i : Word
  /-- `PC` (R16). -/
  pc : Word
  /-- `STACK[0]` to `STACK[15]` (R19). -/
  stack : Vector Word 16
  /-- `SP`, the number of valid stack entries, 0 to 16 (R19; assumption 14, DEDUCED: safe). -/
  sp : Fin 17
  /-- `DT`, the delay timer (R21). -/
  dt : Byte
  /-- `ST`, the sound timer (R21). -/
  st : Byte
  /-- `IR`, the word of the most recent successful fetch (R22). -/
  ir : Word
  /-- `CF`, the collision accumulator (R23). -/
  cf : Bool
  /-- `RUN` (R24). -/
  run : RunState
  /-- `ERR` (R25). -/
  err : ErrorCode
  /-- `MEM` (R26, R40). -/
  mem : Mem
  /-- `FB[y][x]`: row `y`, and in it bit `x` for column `x` (R222; assumption 9, DESIGN CHOICE: unsafe). -/
  fb : Vector (BitVec 64) 32
  /-- The model's own: how many `RandByte()` calls were made (assumption 8, DESIGN CHOICE: safe). -/
  randDraws : Nat
  /-- The model's own: how many `KeyDown` calls were made (assumption 8, DESIGN CHOICE: safe). -/
  keyQueries : Nat
  /-- The model's own: how many `KeyEvent()` calls were made (assumption 8, DESIGN CHOICE: safe). -/
  keyEvents : Nat
  /-- The model's own: how many times the timer driver was asked for its events (assumption 8, DESIGN CHOICE: safe). -/
  timerDraws : Nat
  /-- The model's own: a machine exists; it does not before its first `Load` and after a discard (R228, R250;
  assumption 19, DESIGN CHOICE: safe). -/
  present : Bool
  /-- The model's own: the next actions of the agents, in the order in which they are serialised (R220); when none is left, the
  core and the timer driver go on alone (assumption 23, DESIGN CHOICE: unsafe). -/
  agenda : List Action
  deriving DecidableEq, Repr

/-- What a step answers. -/
abbrev Answer := Host.Outcome State Fault Refusal

/-- The state right after `Load` of the empty image, the machine's only reset (R28, R250, R251; assumption 17, DESIGN
CHOICE: safe). The font and the zero bytes are what an unlisted byte of memory reads as (assumption 13, DEDUCED: safe). -/
def State.reset : State :=
  { v := Vector.replicate 16 0#8
    i := 0#16
    pc := BitVec.ofNat 16 Config.programBase
    stack := Vector.replicate 16 0#16
    sp := 0
    dt := 0#8
    st := 0#8
    ir := 0#16
    cf := false
    run := .running
    err := .noError
    mem := []
    fb := Config.fbInit
    randDraws := 0
    keyQueries := 0
    keyEvents := 0
    timerDraws := 0
    present := true
    agenda := [] }

end Sys2Proof.Machine
end

