-- ==== Sys2Proof/Machine/Ops.lean ====
section
/-! DEFINITION. The named operations over memory, registers, the stack, the display and the free values, and `raise`, the
one way a fatal error is taken (60_exceptions.md R203). There is no return from one (R214). -/

namespace Sys2Proof.Machine

/-! ## Memory (20_memory.md) -/

/-- What a byte holds after reset, hence what an unlisted address reads as: the font at `FONT_BASE`, zero elsewhere (R28,
R49, R161; assumption 13, DEDUCED: safe). -/
def unlistedByte (a : Nat) : Byte :=
  if Config.fontBase ≤ a ∧ a < Config.fontBase + Config.fontSize then Config.font.getD (a - Config.fontBase) 0#8 else 0#8

/-- `MemRead(a, 1)` (R42). Every caller has checked that `a` is in memory (R41, R45; assumption 12, DESIGN CHOICE: safe). -/
def Mem.read (m : Mem) (a : Nat) : Byte :=
  match m with
  | [] => unlistedByte a
  | (k, b) :: rest => if k = a then b else Mem.read rest a

/-- The list without its entries at `a`. -/
def Mem.erase (m : Mem) (a : Nat) : Mem :=
  match m with
  | [] => []
  | (k, b) :: rest => if k = a then Mem.erase rest a else (k, b) :: Mem.erase rest a

/-- The list with an entry added before the first larger address. -/
def Mem.insert (m : Mem) (a : Nat) (v : Byte) : Mem :=
  match m with
  | [] => [(a, v)]
  | (k, b) :: rest => if a < k then (a, v) :: (k, b) :: rest else (k, b) :: Mem.insert rest a v

/-- `MemWrite(a, 1, v)` (R43), keeping the canonical form; there is no byte beyond `MEM_SIZE - 1` to write
(assumption 12, DESIGN CHOICE: safe). -/
def Mem.write (m : Mem) (a : Nat) (v : Byte) : Mem :=
  if Config.memSize ≤ a then m
  else if v = unlistedByte a then Mem.erase m a
  else Mem.insert (Mem.erase m a) a v

/-- Byte writes at ascending addresses (R43, R167). -/
def Mem.writeBytes (m : Mem) (a : Nat) (bs : List Byte) : Mem :=
  match bs with
  | [] => m
  | b :: rest => Mem.writeBytes (Mem.write m a b) (a + 1) rest

/-- The `n` bytes at `a`, `a + 1`, ... (R42, R167). -/
def Mem.readBytes (m : Mem) (a n : Nat) : List Byte :=
  match n with
  | 0 => []
  | n + 1 => Mem.read m a :: Mem.readBytes m (a + 1) n

/-- The canonical form: rising addresses, all of them in memory, and no entry equal to what an unlisted byte reads as. -/
abbrev Mem.wf (m : Mem) : Prop :=
  (m.map Prod.fst).Pairwise (· < ·) ∧ ∀ c ∈ m, c.1 < Config.memSize ∧ c.2 ≠ unlistedByte c.1

/-! ## Registers (10_state.md) -/

/-- `VF`, register 15 (R10, R13). -/
abbrev regF : Reg := 15

/-- `V[x]` (R10). -/
def State.getV (s : State) (x : Reg) : Byte := s.v[x]

/-- `V[x] <- b` (R11). -/
def State.setV (s : State) (x : Reg) (b : Byte) : State := { s with v := s.v.set x b }

/-- `I <- w` (R15). -/
def State.setI (s : State) (w : Word) : State := { s with i := w }

/-- `PC <- w` (R16). -/
def State.setPc (s : State) (w : Word) : State := { s with pc := w }

/-- `PC <- trunc_16(PC + 2)` (R17). -/
def State.advance (s : State) : State := s.setPc (s.pc + 2#16)

/-- `PC <- trunc_16(PC + 4)` when the condition holds, else `trunc_16(PC + 2)` (R17). -/
def State.skipIf (s : State) (c : Bool) : State := s.setPc (if c then s.pc + 4#16 else s.pc + 2#16)

/-- `DT <- b` (R21). -/
def State.setDt (s : State) (b : Byte) : State := { s with dt := b }

/-- `ST <- b` (R21). -/
def State.setSt (s : State) (b : Byte) : State := { s with st := b }

/-- Registers from number `k` on take the bytes of the list, in order. -/
def loadFrom (v : Vector Byte 16) (k : Nat) (bs : List Byte) : Vector Byte 16 :=
  match bs with
  | [] => v
  | b :: rest => loadFrom (v.setIfInBounds k b) (k + 1) rest

/-- `V[0]`, `V[1]`, ... take the bytes of the list (R165). -/
def State.loadRegs (s : State) (bs : List Byte) : State := { s with v := loadFrom s.v 0 bs }

/-- `MEM[a]`, `MEM[a + 1]`, ... take the bytes of the list (R163, R164). -/
def State.storeBytes (s : State) (a : Nat) (bs : List Byte) : State := { s with mem := s.mem.writeBytes a bs }

/-! ## The call stack (R19, R20) -/

/-- The newest entry, `STACK[SP - 1]`; `RET` has checked `SP > 0`. -/
def State.stackTop (s : State) : Word := s.stack[s.sp.val - 1]'(by have := s.sp.isLt; omega)

/-- `SP <- SP - 1`; the entry keeps its content (R20, R101; assumption 15, DESIGN CHOICE: unsafe). -/
def State.pop (s : State) : State := { s with sp := ⟨s.sp.val - 1, by have := s.sp.isLt; omega⟩ }

/-- `STACK[SP] <- w; SP <- SP + 1` (R20); `CALL` has checked `SP < STACK_DEPTH`. -/
def State.push (s : State) (w : Word) : State :=
  { s with
    stack := s.stack.setIfInBounds s.sp.val w
    sp := ⟨min (s.sp.val + 1) Config.stackDepth, Nat.lt_succ_of_le (Nat.min_le_right _ _)⟩ }

/-! ## Status and fatal errors -/

/-- `RUN <- r` (R24). -/
def State.setRun (s : State) (r : RunState) : State := { s with run := r }

/-- `raise e` (R203): `RUN <- HALTED` and `ERR <- e`; everything else keeps its value, and `PC` still addresses the
instruction. -/
def State.raise (s : State) (e : ErrorCode) : State := { s with run := .halted, err := e }

/-- The host drops the machine (R228): there is nothing to clean up, and nothing acts on what is left. -/
def State.discard (s : State) : State := { s with present := false }

/-- The agenda of the agents' next actions is replaced (R220). -/
def State.withAgenda (s : State) (l : List Action) : State := { s with agenda := l }

/-- The two-bit value of `RUN` (R24). -/
def RunState.code (r : RunState) : BitVec 2 :=
  match r with
  | .running => 0#2
  | .awaitKey => 1#2
  | .halted => 2#2

/-- The three-bit value of `ERR` (R25). -/
def ErrorCode.code (e : ErrorCode) : BitVec 3 :=
  match e with
  | .noError => 0#3
  | .invalidOpcode => 1#3
  | .stackOverflow => 2#3
  | .stackUnderflow => 3#3
  | .fetchOutOfBounds => 4#3
  | .dataOutOfBounds => 5#3

/-! ## The display (R221, R222) and the collision accumulator (R142) -/

/-- `FB[y][x]` for the pixel `(x, y)` (R222). -/
def State.pixel (s : State) (p : Pixel) : Bool := s.fb[p.2].getLsbD p.1.val

/-- `DispClear()`: every pixel becomes 0 (R221, R222). -/
def State.dispClear (s : State) : State := { s with fb := Vector.replicate 32 0#64 }

/-- `was = DispToggle(x, y)`, then `CF <- CF OR was` (R142, R143, R222). -/
def State.togglePixel (s : State) (p : Pixel) : State :=
  { s with
    fb := s.fb.set p.2 (s.fb[p.2] ^^^ BitVec.twoPow 64 p.1.val)
    cf := s.cf || s.pixel p }

/-- The toggles of one `DRW`, in order (R143). -/
def State.togglePixels (s : State) (ps : List Pixel) : State :=
  match ps with
  | [] => s
  | p :: rest => State.togglePixels (s.togglePixel p) rest

/-- `CF <- 0` (R143). -/
def State.clearCf (s : State) : State := { s with cf := false }

/-! ## The free values: each call returns the next one and is counted (assumptions 5 to 8) -/

/-- What the next `RandByte()` returns (R225). -/
def State.randByte (s : State) : Byte := Config.randByte s.randDraws

/-- One `RandByte()` call was made. -/
def State.countRand (s : State) : State := { s with randDraws := s.randDraws + 1 }

/-- What the next `KeyDown(k)` answers (R223). -/
def State.keyDown (s : State) (k : Key) : Bool := Config.keyDown s.keyQueries k

/-- One `KeyDown` call was made. -/
def State.countKeyQuery (s : State) : State := { s with keyQueries := s.keyQueries + 1 }

/-- What the next `KeyEvent()` returns (R224). -/
def State.keyEvent (s : State) : Option Key := Config.keyEvent s.keyEvents

/-- One `KeyEvent()` call was made. -/
def State.countKeyEvent (s : State) : State := { s with keyEvents := s.keyEvents + 1 }

end Sys2Proof.Machine
end

