-- ==== Sys2Proof/Machine/Load.lean ====
section
/-! DEFINITION. `Load(image)`, the host's only write and the machine's only reset (70_reset_and_hazards.md R250, R251). -/

namespace Sys2Proof.Machine

/-- The longest image: `MEM_SIZE - PROGRAM_BASE` bytes (R251). -/
def maxImage : Nat := Config.memSize - Config.programBase

/-- The machine that `Load(image)` creates beside the collaborators of `s`: every element of the core is as after reset, with the
image at `PROGRAM_BASE`; `Load` makes no display, key or random call, so the frame buffer and the counts of calls stay, and the
agents' further actions do (R250, R222; assumptions 2, 8 and 23). -/
def State.loadImage (s : State) (image : List Byte) : State :=
  { State.reset.storeBytes Config.programBase image with
    fb := s.fb
    randDraws := s.randDraws
    keyQueries := s.keyQueries
    keyEvents := s.keyEvents
    timerDraws := s.timerDraws
    agenda := s.agenda }

/-- The first `Load(image)`, beside a display that shows `FB_INIT`; a longer image creates no machine (R250, R251). -/
def load (image : List Byte) : Option State :=
  if image.length ≤ maxImage then some (State.reset.loadImage image) else none

/-- `Load(image)` at any time between ticks, in any state; a longer image is refused and no state changes (R228, R250, R251). -/
def State.reload (s : State) (image : List Byte) : State :=
  if image.length ≤ maxImage then s.loadImage image else s

end Sys2Proof.Machine
end

