-- ==== Sys2Proof/Machine/Operands.lean ====
section
/-! DEFINITION. The operand forms: the low nibble of a register, the data window at `I`, the decimal digits, the registers
`V0` to `Vx`, and the pixels a sprite touches. -/

namespace Sys2Proof.Machine

/-- `v[3:0]` as a key number or a digit (R150, R162). -/
def lowNibble (b : Byte) : Fin 16 := ⟨b.toNat % 16, Nat.mod_lt _ (by decide)⟩

/-- The bounds check of an instruction that accesses `m` bytes at `I` to `I + m - 1`, on mathematical integers and before
any effect; an access of 0 bytes makes no check (R45). -/
def State.dataInBounds (s : State) (m : Nat) : Bool := m == 0 || decide (s.i.toNat + m - 1 ≤ Config.memSize - 1)

/-- The hundreds, tens and ones of a byte (R163). -/
def bcdDigits (b : Byte) : List Byte :=
  [BitVec.ofNat 8 (b.toNat / 100), BitVec.ofNat 8 (b.toNat / 10 % 10), BitVec.ofNat 8 (b.toNat % 10)]

/-- The first `n` registers, `V0` first (R164). -/
def State.firstRegs (s : State) (n : Nat) : List Byte := s.v.toList.take n

/-- The address of the font glyph of a digit (R162). -/
def glyphAddress (d : Fin 16) : Word := BitVec.ofNat 16 (Config.fontBase + Config.fontStride * d.val)

/-- The pixels that one sprite row toggles, left to right: bit 7 is column 0 (R141, R143). -/
def rowPixels (vx vy r : Nat) (b : Byte) : List Pixel :=
  (List.range 8).filterMap fun c =>
    if b.getLsbD (7 - c) then some (Fin.ofNat Config.displayW (vx + c), Fin.ofNat Config.displayH (vy + r)) else none

/-- The pixels of the rows `r`, `r + 1`, ... of a sprite, row by row (R143). -/
def rowsPixels (vx vy r : Nat) (rows : List Byte) : List Pixel :=
  match rows with
  | [] => []
  | b :: rest => rowPixels vx vy r b ++ rowsPixels vx vy (r + 1) rest

/-- The `DispToggle` calls of a sprite drawn at `(vx, vy)`, in their order (R143). -/
def spritePixels (vx vy : Byte) (rows : List Byte) : List Pixel := rowsPixels vx.toNat vy.toNat 0 rows

end Sys2Proof.Machine
end

