-- ==== Sys2Proof/Machine/Flags.lean ====
section
/-! DEFINITION. Every flag computation (10_state.md R13, R14; 41_load_and_alu.md R131; 42_random_and_draw.md R142). -/

namespace Sys2Proof.Machine

/-- A flag is written as exactly 0 or 1 (R13). -/
def flagByte (f : Bool) : Byte := if f then 1#8 else 0#8

/-- Carry of `a + b`: the unsigned sum exceeds 255 (R126). -/
def carryFlag (a b : Byte) : Bool := decide (255 < a.toNat + b.toNat)

/-- No borrow in `a - b`: `a >= b` (R127, R128). -/
def noBorrowFlag (a b : Byte) : Bool := decide (b.toNat ≤ a.toNat)

/-- The bit that a right shift moves out (R129). -/
def lowBitFlag (a : Byte) : Bool := a.getLsbD 0

/-- The bit that a left shift moves out (R130). -/
def highBitFlag (a : Byte) : Bool := a.getLsbD 7

/-- `VF <- flag` (R13). -/
def State.setVF (s : State) (f : Bool) : State := s.setV regF (flagByte f)

/-- The result to `V[x]` first, the flag to `VF` second, so that the flag stays when `x = 15` (R14). -/
def State.setResult (s : State) (x : Reg) (b : Byte) (f : Bool) : State := (s.setV x b).setVF f

end Sys2Proof.Machine
end

