-- ==== Sys2Proof/Machine/Alu.lean ====
section
/-! DEFINITION. Register load and ALU instructions (41_load_and_alu.md). All arithmetic is unsigned, 8 bits wide, modulo 256
(R131). -/

namespace Sys2Proof.Machine

/-- `LD Vx, kk` (R120). -/
def execLdImm (x : Reg) (kk : Byte) (s : State) : Answer := .next (s.setV x kk).advance

/-- `LD Vx, Vy` (R121). -/
def execLdReg (x y : Reg) (s : State) : Answer := .next (s.setV x (s.getV y)).advance

/-- `ADD Vx, kk` (R122): no flag. -/
def execAddImm (x : Reg) (kk : Byte) (s : State) : Answer := .next (s.setV x (s.getV x + kk)).advance

/-- `OR Vx, Vy` (R123): no flag. -/
def execOrReg (x y : Reg) (s : State) : Answer := .next (s.setV x (s.getV x ||| s.getV y)).advance

/-- `AND Vx, Vy` (R124): no flag. -/
def execAndReg (x y : Reg) (s : State) : Answer := .next (s.setV x (s.getV x &&& s.getV y)).advance

/-- `XOR Vx, Vy` (R125): no flag. -/
def execXorReg (x y : Reg) (s : State) : Answer := .next (s.setV x (s.getV x ^^^ s.getV y)).advance

/-- `ADD Vx, Vy` (R126). -/
def execAddReg (x y : Reg) (s : State) : Answer :=
  .next (s.setResult x (s.getV x + s.getV y) (carryFlag (s.getV x) (s.getV y))).advance

/-- `SUB Vx, Vy` (R127). -/
def execSubReg (x y : Reg) (s : State) : Answer :=
  .next (s.setResult x (s.getV x - s.getV y) (noBorrowFlag (s.getV x) (s.getV y))).advance

/-- `SUBN Vx, Vy` (R128). -/
def execSubnReg (x y : Reg) (s : State) : Answer :=
  .next (s.setResult x (s.getV y - s.getV x) (noBorrowFlag (s.getV y) (s.getV x))).advance

/-- `SHR Vx` (R129): logical, in place. -/
def execShr (x : Reg) (s : State) : Answer :=
  .next (s.setResult x (s.getV x >>> 1) (lowBitFlag (s.getV x))).advance

/-- `SHL Vx` (R130): in place. -/
def execShl (x : Reg) (s : State) : Answer :=
  .next (s.setResult x (s.getV x <<< 1) (highBitFlag (s.getV x))).advance

end Sys2Proof.Machine
end

