-- ==== Sys2Proof/Machine/Draw.lean ====
section
/-! DEFINITION. Random and draw instructions (42_random_and_draw.md). -/

namespace Sys2Proof.Machine

/-- `RND Vx, kk` (R140, R225): one `RandByte()` call. -/
def execRnd (x : Reg) (kk : Byte) (s : State) : Answer :=
  .next (s.countRand.setV x (s.randByte &&& kk)).advance

/-- The sprite of `DRW Vx, Vy, n` as its `DispToggle` calls, from operands read before any write (R141, R143). -/
def State.drwPixels (s : State) (x y : Reg) (n : Nibble) : List Pixel :=
  spritePixels (s.getV x) (s.getV y) (s.mem.readBytes s.i.toNat n.toNat)

/-- The drawing itself: `CF <- 0`, then the toggles (R142, R143). -/
def State.drawSprite (s : State) (ps : List Pixel) : State := s.clearCf.togglePixels ps

/-- `DRW Vx, Vy, n` (R143, R205): the bounds check precedes everything, and `VF <- CF` comes last. -/
def execDrw (x y : Reg) (n : Nibble) (s : State) : Answer :=
  if s.dataInBounds n.toNat then
    .next ((s.drawSprite (s.drwPixels x y n)).setVF (s.drawSprite (s.drwPixels x y n)).cf).advance
  else .next (s.raise .dataOutOfBounds)

end Sys2Proof.Machine
end

