-- ==== Sys2Proof/Machine/Flow.lean ====
section
/-! DEFINITION. System and control-flow instructions (40_system_and_flow.md). -/

namespace Sys2Proof.Machine

/-- `CLS` (R100). -/
def execCls (s : State) : Answer := .next s.dispClear.advance

/-- `RET` (R101, R202). -/
def execRet (s : State) : Answer :=
  if s.sp = 0 then .next (s.raise .stackUnderflow) else .next (s.pop.setPc s.stackTop)

/-- `SYS nnn` (R102): `nnn` has no effect. -/
def execSys (_nnn : Addr) (s : State) : Answer := .next s.advance

/-- `JP nnn` (R103). -/
def execJp (nnn : Addr) (s : State) : Answer := .next (s.setPc (nnn.zeroExtend 16))

/-- `JP V0, nnn` (R104): the 16-bit sum is not reduced modulo 4096. -/
def execJpV0 (nnn : Addr) (s : State) : Answer :=
  .next (s.setPc (nnn.zeroExtend 16 + (s.getV 0).zeroExtend 16))

/-- `CALL nnn` (R105, R201): pushes `PC + 2`. -/
def execCall (nnn : Addr) (s : State) : Answer :=
  if s.sp.val = Config.stackDepth then .next (s.raise .stackOverflow)
  else .next ((s.push (s.pc + 2#16)).setPc (nnn.zeroExtend 16))

/-- `SE Vx, kk` (R106). -/
def execSeImm (x : Reg) (kk : Byte) (s : State) : Answer := .next (s.skipIf (s.getV x == kk))

/-- `SNE Vx, kk` (R107). -/
def execSneImm (x : Reg) (kk : Byte) (s : State) : Answer := .next (s.skipIf (s.getV x != kk))

/-- `SE Vx, Vy` (R108). -/
def execSeReg (x y : Reg) (s : State) : Answer := .next (s.skipIf (s.getV x == s.getV y))

/-- `SNE Vx, Vy` (R109). -/
def execSneReg (x y : Reg) (s : State) : Answer := .next (s.skipIf (s.getV x != s.getV y))

end Sys2Proof.Machine
end

