-- ==== Sys2Proof/Machine/Index.lean ====
section
/-! DEFINITION. Index-register and memory instructions (44_index_and_memory.md). -/

namespace Sys2Proof.Machine

/-- `ADD I, Vx` (R160): 16-bit wraparound, no flag. -/
def execAddI (x : Reg) (s : State) : Answer := .next (s.setI (s.i + (s.getV x).zeroExtend 16)).advance

/-- `LD F, Vx` (R162). -/
def execLdF (x : Reg) (s : State) : Answer := .next (s.setI (glyphAddress (lowNibble (s.getV x)))).advance

/-- `LD I, nnn` (R166). -/
def execLdI (nnn : Addr) (s : State) : Answer := .next (s.setI (nnn.zeroExtend 16)).advance

/-- `LD B, Vx` (R163, R205). -/
def execLdB (x : Reg) (s : State) : Answer :=
  if s.dataInBounds 3 then .next (s.storeBytes s.i.toNat (bcdDigits (s.getV x))).advance
  else .next (s.raise .dataOutOfBounds)

/-- `LD [I], Vx` (R164, R205). -/
def execStRegs (x : Reg) (s : State) : Answer :=
  if s.dataInBounds (x.val + 1) then .next (s.storeBytes s.i.toNat (s.firstRegs (x.val + 1))).advance
  else .next (s.raise .dataOutOfBounds)

/-- `LD Vx, [I]` (R165, R205): all bytes are read before any register is written (R47). -/
def execLdRegs (x : Reg) (s : State) : Answer :=
  if s.dataInBounds (x.val + 1) then .next (s.loadRegs (s.mem.readBytes s.i.toNat (x.val + 1))).advance
  else .next (s.raise .dataOutOfBounds)

end Sys2Proof.Machine
end

