-- ==== Sys2Proof/Machine/Keys.lean ====
section
/-! DEFINITION. Key and timer instructions (43_key_and_timer.md). -/

namespace Sys2Proof.Machine

/-- `SKP Vx` (R150): one `KeyDown` call for the low nibble of `V[x]`. -/
def execSkp (x : Reg) (s : State) : Answer :=
  .next (s.countKeyQuery.skipIf (s.keyDown (lowNibble (s.getV x))))

/-- `SKNP Vx` (R151). -/
def execSknp (x : Reg) (s : State) : Answer :=
  .next (s.countKeyQuery.skipIf (!s.keyDown (lowNibble (s.getV x))))

/-- `LD Vx, DT` (R152). -/
def execLdVxDT (x : Reg) (s : State) : Answer := .next (s.setV x s.dt).advance

/-- `LD DT, Vx` (R153). -/
def execLdDTVx (x : Reg) (s : State) : Answer := .next (s.setDt (s.getV x)).advance

/-- `LD ST, Vx` (R154). -/
def execLdSTVx (x : Reg) (s : State) : Answer := .next (s.setSt (s.getV x)).advance

/-- What `LD Vx, K` does with the answer of `KeyEvent()`: stall, or load the key code (R155). -/
def State.takeKey (s : State) (x : Reg) (e : Option Key) : State :=
  match e with
  | none => s.setRun .awaitKey
  | some k => ((s.setV x (BitVec.ofNat 8 k.val)).setRun .running).advance

/-- `LD Vx, K` (R155, R224): one `KeyEvent()` call. -/
def execLdVxK (x : Reg) (s : State) : Answer := .next (s.countKeyEvent.takeKey x s.keyEvent)

end Sys2Proof.Machine
end

