-- ==== Sys2Proof/Syntax.lean ====
section
/-! DEFINITION. The 35 instructions, one constructor per row of spec/opcode_table.json, in the table's order
(30_encoding.md R64). Bits that the spec ignores (R65) are no operands. -/

namespace Sys2Proof

/-- An instruction with its operands. -/
inductive Instr where
  /-- `CLS` (R100). -/
  | cls
  /-- `RET` (R101). -/
  | ret
  /-- `SYS nnn` (R102). -/
  | sys (nnn : Addr)
  /-- `JP nnn` (R103). -/
  | jp (nnn : Addr)
  /-- `JP V0, nnn` (R104). -/
  | jpV0 (nnn : Addr)
  /-- `CALL nnn` (R105). -/
  | call (nnn : Addr)
  /-- `SE Vx, kk` (R106). -/
  | seImm (x : Reg) (kk : Byte)
  /-- `SNE Vx, kk` (R107). -/
  | sneImm (x : Reg) (kk : Byte)
  /-- `SE Vx, Vy` (R108). -/
  | seReg (x y : Reg)
  /-- `SNE Vx, Vy` (R109). -/
  | sneReg (x y : Reg)
  /-- `LD Vx, kk` (R120). -/
  | ldImm (x : Reg) (kk : Byte)
  /-- `LD Vx, Vy` (R121). -/
  | ldReg (x y : Reg)
  /-- `ADD Vx, kk` (R122). -/
  | addImm (x : Reg) (kk : Byte)
  /-- `OR Vx, Vy` (R123). -/
  | orReg (x y : Reg)
  /-- `AND Vx, Vy` (R124). -/
  | andReg (x y : Reg)
  /-- `XOR Vx, Vy` (R125). -/
  | xorReg (x y : Reg)
  /-- `ADD Vx, Vy` (R126). -/
  | addReg (x y : Reg)
  /-- `SUB Vx, Vy` (R127). -/
  | subReg (x y : Reg)
  /-- `SUBN Vx, Vy` (R128). -/
  | subnReg (x y : Reg)
  /-- `SHR Vx` (R129). -/
  | shr (x : Reg)
  /-- `SHL Vx` (R130). -/
  | shl (x : Reg)
  /-- `RND Vx, kk` (R140). -/
  | rnd (x : Reg) (kk : Byte)
  /-- `DRW Vx, Vy, n` (R143). -/
  | drw (x y : Reg) (n : Nibble)
  /-- `SKP Vx` (R150). -/
  | skp (x : Reg)
  /-- `SKNP Vx` (R151). -/
  | sknp (x : Reg)
  /-- `LD Vx, DT` (R152). -/
  | ldVxDT (x : Reg)
  /-- `LD DT, Vx` (R153). -/
  | ldDTVx (x : Reg)
  /-- `LD ST, Vx` (R154). -/
  | ldSTVx (x : Reg)
  /-- `LD Vx, K` (R155). -/
  | ldVxK (x : Reg)
  /-- `ADD I, Vx` (R160). -/
  | addI (x : Reg)
  /-- `LD F, Vx` (R162). -/
  | ldF (x : Reg)
  /-- `LD I, nnn` (R166). -/
  | ldI (nnn : Addr)
  /-- `LD B, Vx` (R163). -/
  | ldB (x : Reg)
  /-- `LD [I], Vx`: store `V0` to `Vx` (R164). -/
  | stRegs (x : Reg)
  /-- `LD Vx, [I]`: load `V0` to `Vx` (R165). -/
  | ldRegs (x : Reg)
  deriving DecidableEq, Repr

end Sys2Proof
end

