-- ==== Sys2Proof/WellFormed.lean ====
section
/-! DEFINITION. Which instructions have an encoding: the operand types already bound every field; the one further rule is
that the words 0x00E0 and 0x00EE are `CLS` and `RET`, never `SYS` (30_encoding.md R64, R65). -/

namespace Sys2Proof

/-- The instruction is one that some word spells (R64: row 3 excludes 0x00E0 and 0x00EE). -/
def Instr.wellFormed (i : Instr) : Bool :=
  match i with
  | .sys nnn => nnn != 0x0E0#12 && nnn != 0x0EE#12
  | .cls | .ret | .jp _ | .jpV0 _ | .call _ => true
  | .seImm _ _ | .sneImm _ _ | .seReg _ _ | .sneReg _ _ => true
  | .ldImm _ _ | .ldReg _ _ | .addImm _ _ | .orReg _ _ | .andReg _ _ | .xorReg _ _ => true
  | .addReg _ _ | .subReg _ _ | .subnReg _ _ | .shr _ | .shl _ => true
  | .rnd _ _ | .drw _ _ _ => true
  | .skp _ | .sknp _ | .ldVxDT _ | .ldDTVx _ | .ldSTVx _ | .ldVxK _ => true
  | .addI _ | .ldF _ | .ldI _ | .ldB _ | .stRegs _ | .ldRegs _ => true

end Sys2Proof
end

