-- ==== Sys2Proof/Decode.lean ====
section
/-! DEFINITION. The decoder, total on words and on bytes and rejecting by name (30_encoding.md R60 to R67), the opcode map as
mask and match rows (R64), and the encoder written from the same five formats (R62). -/

namespace Sys2Proof

/-- Why no instruction is read. -/
inductive Reject where
  /-- The word matches no row of R64: executing it raises `InvalidOpcode` (R66, R200). -/
  | invalidOpcode (op : Word)
  /-- Fewer than two bytes: there is no instruction word (R60). -/
  | truncated
  deriving DecidableEq, Repr

/-! ## Fields and formats -/

/-- `f = op[15:12]` (R61). -/
def opFamily (op : Word) : Nibble := op.extractLsb' 12 4

/-- `nnn = op[11:0]` (R61). -/
def opNnn (op : Word) : Addr := op.extractLsb' 0 12

/-- `x = op[11:8]` (R61). -/
def opX (op : Word) : Reg := (op.extractLsb' 8 4).toFin

/-- `y = op[7:4]` (R61). -/
def opY (op : Word) : Reg := (op.extractLsb' 4 4).toFin

/-- `kk = op[7:0]` (R61). -/
def opKk (op : Word) : Byte := op.extractLsb' 0 8

/-- `n = op[3:0]` (R61). -/
def opN (op : Word) : Nibble := op.extractLsb' 0 4

/-- The four bits of a register field. -/
def regBits (x : Reg) : Nibble := BitVec.ofFin x

/-- Format `NNN` (R62). -/
def formatNNN (f : Nibble) (nnn : Addr) : Word := f ++ nnn

/-- Formats `XKK` and `XFF` (R62): `x`, then an immediate byte or a selector byte. -/
def formatXKK (f : Nibble) (x : Reg) (kk : Byte) : Word := f ++ regBits x ++ kk

/-- Format `XYN` (R62): `x`, `y`, then an immediate, a selector or an ignored nibble. -/
def formatXYN (f : Nibble) (x y : Reg) (n : Nibble) : Word := f ++ regBits x ++ regBits y ++ n

/-! ## Byte order -/

/-- Big-endian: the byte at the lower address is `op[15:8]` (R41, R46). -/
def wordOfBytes (hi lo : Byte) : Word := hi ++ lo

/-- The high byte of a word, stored at the lower address (R46). -/
def highByte (op : Word) : Byte := op.extractLsb' 8 8

/-- The low byte of a word, stored at the higher address (R46). -/
def lowByte (op : Word) : Byte := op.extractLsb' 0 8

/-! ## Decoding -/

/-- Family 0: `CLS` and `RET` on all 16 bits, `SYS` otherwise (R64, R65). -/
def decodeFamily0 (op : Word) : Instr :=
  if op = 0x00E0#16 then .cls else if op = 0x00EE#16 then .ret else .sys (opNnn op)

/-- Family 8: the low nibble selects (R64). -/
def decodeFamily8 (op : Word) : Except Reject Instr :=
  match (opN op).toNat with
  | 0x0 => .ok (.ldReg (opX op) (opY op))
  | 0x1 => .ok (.orReg (opX op) (opY op))
  | 0x2 => .ok (.andReg (opX op) (opY op))
  | 0x3 => .ok (.xorReg (opX op) (opY op))
  | 0x4 => .ok (.addReg (opX op) (opY op))
  | 0x5 => .ok (.subReg (opX op) (opY op))
  | 0x6 => .ok (.shr (opX op))
  | 0x7 => .ok (.subnReg (opX op) (opY op))
  | 0xE => .ok (.shl (opX op))
  | _ => .error (.invalidOpcode op)

/-- Family 0xE: the low byte selects (R64). -/
def decodeFamilyE (op : Word) : Except Reject Instr :=
  match (opKk op).toNat with
  | 0x9E => .ok (.skp (opX op))
  | 0xA1 => .ok (.sknp (opX op))
  | _ => .error (.invalidOpcode op)

/-- Family 0xF: the low byte selects (R64). -/
def decodeFamilyF (op : Word) : Except Reject Instr :=
  match (opKk op).toNat with
  | 0x07 => .ok (.ldVxDT (opX op))
  | 0x0A => .ok (.ldVxK (opX op))
  | 0x15 => .ok (.ldDTVx (opX op))
  | 0x18 => .ok (.ldSTVx (opX op))
  | 0x1E => .ok (.addI (opX op))
  | 0x29 => .ok (.ldF (opX op))
  | 0x33 => .ok (.ldB (opX op))
  | 0x55 => .ok (.stRegs (opX op))
  | 0x65 => .ok (.ldRegs (opX op))
  | _ => .error (.invalidOpcode op)

/-- The two-level dispatch of R64: first the high nibble, then, in the overloaded families, the secondary field. The last
arm is family 0xF, the one value of the nibble that is left. -/
def decodeWord (op : Word) : Except Reject Instr :=
  match (opFamily op).toNat with
  | 0x0 => .ok (decodeFamily0 op)
  | 0x1 => .ok (.jp (opNnn op))
  | 0x2 => .ok (.call (opNnn op))
  | 0x3 => .ok (.seImm (opX op) (opKk op))
  | 0x4 => .ok (.sneImm (opX op) (opKk op))
  | 0x5 => .ok (.seReg (opX op) (opY op))
  | 0x6 => .ok (.ldImm (opX op) (opKk op))
  | 0x7 => .ok (.addImm (opX op) (opKk op))
  | 0x8 => decodeFamily8 op
  | 0x9 => .ok (.sneReg (opX op) (opY op))
  | 0xA => .ok (.ldI (opNnn op))
  | 0xB => .ok (.jpV0 (opNnn op))
  | 0xC => .ok (.rnd (opX op) (opKk op))
  | 0xD => .ok (.drw (opX op) (opY op) (opN op))
  | 0xE => decodeFamilyE op
  | _ => decodeFamilyF op

/-- Decoding from bytes: one instruction is two bytes, and the bytes after it are returned (R60). -/
def decodeBytes (bs : List Byte) : Except Reject (Instr × List Byte) :=
  match bs with
  | hi :: lo :: rest =>
    match decodeWord (wordOfBytes hi lo) with
    | .ok i => .ok (i, rest)
    | .error e => .error e
  | _ => .error .truncated

/-! ## Encoding -/

/-- The word of an instruction (R62, R64); ignored bits are emitted as 0, the `y` of a shift among them, where R65 allows any
register (assumption 16, DESIGN CHOICE: safe). -/
def encode (i : Instr) : Word :=
  match i with
  | .cls => 0x00E0#16
  | .ret => 0x00EE#16
  | .sys nnn => formatNNN 0x0#4 nnn
  | .jp nnn => formatNNN 0x1#4 nnn
  | .jpV0 nnn => formatNNN 0xB#4 nnn
  | .call nnn => formatNNN 0x2#4 nnn
  | .seImm x kk => formatXKK 0x3#4 x kk
  | .sneImm x kk => formatXKK 0x4#4 x kk
  | .seReg x y => formatXYN 0x5#4 x y 0x0#4
  | .sneReg x y => formatXYN 0x9#4 x y 0x0#4
  | .ldImm x kk => formatXKK 0x6#4 x kk
  | .ldReg x y => formatXYN 0x8#4 x y 0x0#4
  | .addImm x kk => formatXKK 0x7#4 x kk
  | .orReg x y => formatXYN 0x8#4 x y 0x1#4
  | .andReg x y => formatXYN 0x8#4 x y 0x2#4
  | .xorReg x y => formatXYN 0x8#4 x y 0x3#4
  | .addReg x y => formatXYN 0x8#4 x y 0x4#4
  | .subReg x y => formatXYN 0x8#4 x y 0x5#4
  | .subnReg x y => formatXYN 0x8#4 x y 0x7#4
  | .shr x => formatXYN 0x8#4 x 0 0x6#4
  | .shl x => formatXYN 0x8#4 x 0 0xE#4
  | .rnd x kk => formatXKK 0xC#4 x kk
  | .drw x y n => formatXYN 0xD#4 x y n
  | .skp x => formatXKK 0xE#4 x 0x9E#8
  | .sknp x => formatXKK 0xE#4 x 0xA1#8
  | .ldVxDT x => formatXKK 0xF#4 x 0x07#8
  | .ldDTVx x => formatXKK 0xF#4 x 0x15#8
  | .ldSTVx x => formatXKK 0xF#4 x 0x18#8
  | .ldVxK x => formatXKK 0xF#4 x 0x0A#8
  | .addI x => formatXKK 0xF#4 x 0x1E#8
  | .ldF x => formatXKK 0xF#4 x 0x29#8
  | .ldI nnn => formatNNN 0xA#4 nnn
  | .ldB x => formatXKK 0xF#4 x 0x33#8
  | .stRegs x => formatXKK 0xF#4 x 0x55#8
  | .ldRegs x => formatXKK 0xF#4 x 0x65#8

/-- The two bytes of an instruction as memory holds them (R46). -/
def encodeBytes (i : Instr) : List Byte := [highByte (encode i), lowByte (encode i)]

/-- The word with the bits that its row ignores set to 0 (R65): `op[3:0]` in families 5 and 9, `op[7:4]` in the shifts. -/
def canonicalWord (op : Word) : Word :=
  match (opFamily op).toNat with
  | 0x5 | 0x9 => op &&& 0xFFF0#16
  | 0x8 => if opN op = 0x6#4 ∨ opN op = 0xE#4 then op &&& 0xFF0F#16 else op
  | _ => op

/-! ## The opcode map as rows -/

/-- One row of the opcode map: a word belongs to it when `op AND mask = match` (R64). -/
structure OpcodeRow where
  mnemonic : String
  mask : Word
  value : Word
  deriving DecidableEq, Repr

/-- The word has the row's fixed bits (R64). -/
def OpcodeRow.covers (r : OpcodeRow) (op : Word) : Bool := op &&& r.mask == r.value

/-- Rows 1 to 10 of R64. -/
def opcodeRowsFlow : List OpcodeRow :=
  [⟨"CLS", 0xFFFF#16, 0x00E0#16⟩, ⟨"RET", 0xFFFF#16, 0x00EE#16⟩, ⟨"SYS_nnn", 0xF000#16, 0x0000#16⟩,
   ⟨"JP_nnn", 0xF000#16, 0x1000#16⟩, ⟨"JP_V0__nnn", 0xF000#16, 0xB000#16⟩, ⟨"CALL_nnn", 0xF000#16, 0x2000#16⟩,
   ⟨"SE_Vx__kk", 0xF000#16, 0x3000#16⟩, ⟨"SNE_Vx__kk", 0xF000#16, 0x4000#16⟩,
   ⟨"SE_Vx__Vy", 0xF000#16, 0x5000#16⟩, ⟨"SNE_Vx__Vy", 0xF000#16, 0x9000#16⟩]

/-- Rows 11 to 21 of R64. -/
def opcodeRowsAlu : List OpcodeRow :=
  [⟨"LD_Vx__kk", 0xF000#16, 0x6000#16⟩, ⟨"LD_Vx__Vy", 0xF00F#16, 0x8000#16⟩, ⟨"ADD_Vx__kk", 0xF000#16, 0x7000#16⟩,
   ⟨"OR_Vx__Vy", 0xF00F#16, 0x8001#16⟩, ⟨"AND_Vx__Vy", 0xF00F#16, 0x8002#16⟩, ⟨"XOR_Vx__Vy", 0xF00F#16, 0x8003#16⟩,
   ⟨"ADD_Vx__Vy", 0xF00F#16, 0x8004#16⟩, ⟨"SUB_Vx__Vy", 0xF00F#16, 0x8005#16⟩, ⟨"SUBN_Vx__Vy", 0xF00F#16, 0x8007#16⟩,
   ⟨"SHR_Vx", 0xF00F#16, 0x8006#16⟩, ⟨"SHL_Vx", 0xF00F#16, 0x800E#16⟩]

/-- Rows 22 to 35 of R64. -/
def opcodeRowsDevice : List OpcodeRow :=
  [⟨"RND_Vx__kk", 0xF000#16, 0xC000#16⟩, ⟨"DRW_Vx__Vy__n", 0xF000#16, 0xD000#16⟩,
   ⟨"SKP_Vx", 0xF0FF#16, 0xE09E#16⟩, ⟨"SKNP_Vx", 0xF0FF#16, 0xE0A1#16⟩, ⟨"LD_Vx__DT", 0xF0FF#16, 0xF007#16⟩,
   ⟨"LD_DT__Vx", 0xF0FF#16, 0xF015#16⟩, ⟨"LD_ST__Vx", 0xF0FF#16, 0xF018#16⟩, ⟨"LD_Vx__K", 0xF0FF#16, 0xF00A#16⟩,
   ⟨"ADD_I__Vx", 0xF0FF#16, 0xF01E#16⟩, ⟨"LD_F__Vx", 0xF0FF#16, 0xF029#16⟩, ⟨"LD_I__nnn", 0xF000#16, 0xA000#16⟩,
   ⟨"LD_B__Vx", 0xF0FF#16, 0xF033#16⟩, ⟨"LD__I___Vx", 0xF0FF#16, 0xF055#16⟩, ⟨"LD_Vx___I", 0xF0FF#16, 0xF065#16⟩]

/-- The 35 rows of R64 in the table's order; rows 1 and 2 come before row 3, which they overlap. -/
def opcodeRows : List OpcodeRow := opcodeRowsFlow ++ opcodeRowsAlu ++ opcodeRowsDevice

/-- The instruction's row in spec/opcode_table.json, by its mnemonic. -/
def Instr.mnemonic (i : Instr) : String :=
  match i with
  | .cls => "CLS"
  | .ret => "RET"
  | .sys _ => "SYS_nnn"
  | .jp _ => "JP_nnn"
  | .jpV0 _ => "JP_V0__nnn"
  | .call _ => "CALL_nnn"
  | .seImm _ _ => "SE_Vx__kk"
  | .sneImm _ _ => "SNE_Vx__kk"
  | .seReg _ _ => "SE_Vx__Vy"
  | .sneReg _ _ => "SNE_Vx__Vy"
  | .ldImm _ _ => "LD_Vx__kk"
  | .ldReg _ _ => "LD_Vx__Vy"
  | .addImm _ _ => "ADD_Vx__kk"
  | .orReg _ _ => "OR_Vx__Vy"
  | .andReg _ _ => "AND_Vx__Vy"
  | .xorReg _ _ => "XOR_Vx__Vy"
  | .addReg _ _ => "ADD_Vx__Vy"
  | .subReg _ _ => "SUB_Vx__Vy"
  | .subnReg _ _ => "SUBN_Vx__Vy"
  | .shr _ => "SHR_Vx"
  | .shl _ => "SHL_Vx"
  | .rnd _ _ => "RND_Vx__kk"
  | .drw _ _ _ => "DRW_Vx__Vy__n"
  | .skp _ => "SKP_Vx"
  | .sknp _ => "SKNP_Vx"
  | .ldVxDT _ => "LD_Vx__DT"
  | .ldDTVx _ => "LD_DT__Vx"
  | .ldSTVx _ => "LD_ST__Vx"
  | .ldVxK _ => "LD_Vx__K"
  | .addI _ => "ADD_I__Vx"
  | .ldF _ => "LD_F__Vx"
  | .ldI _ => "LD_I__nnn"
  | .ldB _ => "LD_B__Vx"
  | .stRegs _ => "LD__I___Vx"
  | .ldRegs _ => "LD_Vx___I"

/-! ## The opcode table's numbering of bits -/

/-- The one word of a table row given as `nbits` bits of `w`; bits above `nbits` are 0 (R60: every instruction is one word). -/
def tableWord (nbits w : Nat) : Word := BitVec.ofNat 16 (w % 2 ^ nbits)

/-- What the decoder reads from a table word laid out in memory's byte order. -/
def decodeTableWord (nbits w : Nat) : Option Instr :=
  match decodeBytes [highByte (tableWord nbits w), lowByte (tableWord nbits w)] with
  | .ok (i, _) => some i
  | .error _ => none

end Sys2Proof
end

