-- ==== Sys2Proof/Machine/Fetch.lean ====
section
/-! DEFINITION. The instruction fetch (20_memory.md R41, R44, R46) and placing a word where the next fetch reads it. -/

namespace Sys2Proof.Machine

/-- Both bytes of the instruction at `PC` are in memory, on the full 16-bit `PC` (R41). -/
def State.fetchInBounds (s : State) : Bool := decide (s.pc.toNat ≤ Config.memSize - 2)

/-- `MEM[PC] ++ MEM[PC+1]`, whatever the parity of `PC` (R41, R44, R46). -/
def State.fetchWord (s : State) : Word := wordOfBytes (s.mem.read s.pc.toNat) (s.mem.read (s.pc.toNat + 1))

/-- The state an instruction's rule works on: the fetch wrote `IR` (R22, R41), and `RUN` is `RUNNING` unless the rule stalls
or faults (R210; assumption 11, DEDUCED: safe). -/
def State.startTick (s : State) (op : Word) : State := { s with ir := op, run := .running }

/-- The state made fit to fetch at the next step: the machine exists and no other agent is next, a halted machine does not fetch
(R212), and a `PC` beyond memory cannot (R41). Nothing else is changed (assumption 17, DESIGN CHOICE: safe). -/
def State.readyToFetch (s : State) : State :=
  let s := { s with present := true, agenda := [] }
  let s := if s.run = .halted then { s with run := .running, err := .noError } else s
  if s.fetchInBounds then s else s.setPc (BitVec.ofNat 16 Config.programBase)

/-- The word stored, high byte first, at `PC` (R46). -/
def State.placeWord (s : State) (op : Word) : State := s.storeBytes s.pc.toNat [highByte op, lowByte op]

end Sys2Proof.Machine
end

