-- ==== Sys2Proof/Machine/Tick.lean ====
section
/-! DEFINITION. The tick engine (60_exceptions.md R209, R210, R212, R213). -/

namespace Sys2Proof.Machine

/-- One tick: ignored in `HALTED`, else fetch, decode and execute, with the errors in that order (R209, R210, R212). -/
def tick (s : State) : Answer :=
  if s.run = .halted then .next s
  else if s.fetchInBounds then
    match decodeWord s.fetchWord with
    | .ok i => exec i (s.startTick s.fetchWord)
    | .error _ => .next ((s.startTick s.fetchWord).raise .invalidOpcode)
  else .next (s.raise .fetchOutOfBounds)

/-- What the tick from this state comes to (R210, R212). -/
def tickOutcome (s : State) : TickOutcome :=
  if s.run = .halted then .ignored
  else
    match tick s with
    | .next t =>
      match t.run with
      | .running => .commit
      | .awaitKey => .stall
      | .halted => .fatal
    | .fault _ => .fatal
    | .refused _ => .fatal

/-- The snapshot output of the tick from this state: the pre-tick state when the tick commits, else nothing (R213;
assumption 18, DESIGN CHOICE: safe). -/
def snapshot (s : State) : Option State := if tickOutcome s = .commit then some s else none

/-- The end of a run: a discard, `HALTED`, or a fixed point of `tick` with `RUN = RUNNING`, which is the one of the two
definitions R262 offers that this model takes; a stalled `LD Vx, K` is not an end (assumption 22, DESIGN CHOICE: safe). -/
def runEnd (s : State) : Option RunEnd :=
  if s.present then
    match s.run with
    | .halted => some .fatalError
    | .awaitKey => none
    | .running =>
      match tick s with
      | .next t => if t = s then some .fixedPoint else none
      | .fault _ => none
      | .refused _ => none
  else some .discarded

/-- The state with an instruction word where the next tick fetches it (assumption 17, DESIGN CHOICE: safe). -/
def placeTableWord (s : State) (nbits w : Nat) : State := s.readyToFetch.placeWord (tableWord nbits w)

end Sys2Proof.Machine
end

