-- ==== Sys2Proof/Machine/Timers.lean ====
section
/-! DEFINITION. `TimerTick`, the timer driver's event (60_exceptions.md R226), and the events that fall before a tick. -/

namespace Sys2Proof.Machine

/-- `TimerTick` has an effect: always in `RUNNING`, never in `HALTED`, and in `AWAIT_KEY` by the parameter (R226;
assumption 3, DESIGN CHOICE: unsafe). -/
def State.timersRun (s : State) : Bool :=
  match s.run with
  | .running => true
  | .awaitKey => Config.timersRunDuringKeyWait
  | .halted => false

/-- One `TimerTick`: each timer that is not 0 counts down by 1 (R226). -/
def State.timerTick (s : State) : State :=
  if s.timersRun then
    { s with
      dt := if s.dt = 0#8 then s.dt else s.dt - 1#8
      st := if s.st = 0#8 then s.st else s.st - 1#8 }
  else s

/-- A countdown timer after `k` events: it stops at 0 (R226). -/
def countDown (b : Byte) (k : Nat) : Byte := BitVec.ofNat 8 (b.toNat - k)

/-- `k` `TimerTick` events in a row, in closed form. -/
def State.timerTicks (s : State) (k : Nat) : State :=
  if s.timersRun then { s with dt := countDown s.dt k, st := countDown s.st k } else s

/-- The timer driver's turn before a tick: the next free number of `TimerTick`s; where they can have no effect, none is drawn
(R226; assumption 4, DESIGN CHOICE: safe). -/
def State.timerEvents (s : State) : State :=
  if s.timersRun then
    { s.timerTicks (Config.timerTicks s.timerDraws) with timerDraws := s.timerDraws + 1 }
  else s

end Sys2Proof.Machine
end

