-- ==== Sys2Proof/Machine/Agents.lean ====
section
/-! DEFINITION. The agents' actions on the core's state and their serialisation (60_exceptions.md R220, R226, R228). -/

namespace Sys2Proof.Machine

/-- One whole action of one agent (R220). A machine that does not exist has no ticks and no timers; `Load` creates one in every
state (R228, R250; assumption 19, DESIGN CHOICE: safe). -/
def act (a : Action) (s : State) : Answer :=
  match a with
  | .tick => if s.present then tick s else .next s
  | .timerTick => if s.present then .next s.timerTick else .next s
  | .load image => .next (s.reload image)
  | .discard => .next s.discard

/-- Whole actions, one after the other (R220). -/
def acts (as : List Action) (s : State) : Answer :=
  match as with
  | [] => .next s
  | a :: rest =>
    match act a s with
    | .next t => acts rest t
    | .fault r => .fault r
    | .refused r => .refused r

/-- One step of the model: the next action of the agenda; where none is left, the timer driver's free number of `TimerTick`s and
then a tick (R210, R220, R226; assumptions 4 and 23). -/
def stepOnce (s : State) : Answer :=
  match s.agenda with
  | a :: rest => act a (s.withAgenda rest)
  | [] => if s.present then tick s.timerEvents else .next s

end Sys2Proof.Machine
end

