-- ==== Sys2Proof/Machine/Step.lean ====
section
/-! DEFINITION. The step of the machine, and the state with a given instruction at the next fetch. -/

namespace Sys2Proof.Machine

/-- One step: the next action on the agenda, or `TimerTick`s and a tick (R210, R220, R226). -/
def step : State → Host.Outcome State Fault Refusal := fun s => Sys2Proof.Machine.stepOnce s

/-- The state with the table word `w` of `nbits` bits stored where `step` fetches its next instruction (assumption
17, DESIGN CHOICE: safe). -/
def State.withFetchWord (s : State) (nbits w : Nat) : State := Sys2Proof.Machine.placeTableWord s nbits w

end Sys2Proof.Machine
end

