-- ==== Sys2Proof/Safety.lean ====
section
/-! DEFINITION. The terms claims are stated in: the machine's invariant, what an instruction may write, frames, and the end of a
run. -/

namespace Sys2Proof.Machine

/-! ## What an instruction may write -/

/-- The six instructions that write `VF` as a side effect (R13). -/
def writesFlag (i : Instr) : Bool :=
  match i with
  | .addReg _ _ | .subReg _ _ | .subnReg _ _ | .shr _ | .shl _ | .drw _ _ _ => true
  | .cls | .ret | .sys _ | .jp _ | .jpV0 _ | .call _ => false
  | .seImm _ _ | .sneImm _ _ | .seReg _ _ | .sneReg _ _ => false
  | .ldImm _ _ | .ldReg _ _ | .addImm _ _ | .orReg _ _ | .andReg _ _ | .xorReg _ _ | .rnd _ _ => false
  | .skp _ | .sknp _ | .ldVxDT _ | .ldDTVx _ | .ldSTVx _ | .ldVxK _ => false
  | .addI _ | .ldF _ | .ldI _ | .ldB _ | .stRegs _ | .ldRegs _ => false

/-- The instruction names register `r` as a destination (R120 to R165). -/
def isDestination (i : Instr) (r : Reg) : Bool :=
  match i with
  | .ldImm x _ | .addImm x _ | .rnd x _ => r == x
  | .ldReg x _ | .orReg x _ | .andReg x _ | .xorReg x _ | .addReg x _ | .subReg x _ | .subnReg x _ => r == x
  | .shr x | .shl x | .ldVxDT x | .ldVxK x => r == x
  | .ldRegs x => decide (r ≤ x)
  | .cls | .ret | .sys _ | .jp _ | .jpV0 _ | .call _ | .drw _ _ _ => false
  | .seImm _ _ | .sneImm _ _ | .seReg _ _ | .sneReg _ _ | .skp _ | .sknp _ => false
  | .ldDTVx _ | .ldSTVx _ | .addI _ | .ldF _ | .ldI _ | .ldB _ | .stRegs _ => false

/-- The bytes the instruction stores, from the state it starts in: the address and the values, none for an instruction
that stores nothing (R163, R164, R167). -/
def storedBytes (i : Instr) (s : State) : List Byte :=
  match i with
  | .ldB x => bcdDigits (s.getV x)
  | .stRegs x => s.firstRegs (x.val + 1)
  | .cls | .ret | .sys _ | .jp _ | .jpV0 _ | .call _ => []
  | .seImm _ _ | .sneImm _ _ | .seReg _ _ | .sneReg _ _ => []
  | .ldImm _ _ | .ldReg _ _ | .addImm _ _ | .orReg _ _ | .andReg _ _ | .xorReg _ _ => []
  | .addReg _ _ | .subReg _ _ | .subnReg _ _ | .shr _ | .shl _ | .rnd _ _ | .drw _ _ _ => []
  | .skp _ | .sknp _ | .ldVxDT _ | .ldDTVx _ | .ldSTVx _ | .ldVxK _ => []
  | .addI _ | .ldF _ | .ldI _ | .ldRegs _ => []

/-- The one fatal error that an instruction's own rule can raise (R209). -/
def handlerError (i : Instr) : Option ErrorCode :=
  match i with
  | .call _ => some .stackOverflow
  | .ret => some .stackUnderflow
  | .drw _ _ _ | .ldB _ | .stRegs _ | .ldRegs _ => some .dataOutOfBounds
  | .cls | .sys _ | .jp _ | .jpV0 _ => none
  | .seImm _ _ | .sneImm _ _ | .seReg _ _ | .sneReg _ _ => none
  | .ldImm _ _ | .ldReg _ _ | .addImm _ _ | .orReg _ _ | .andReg _ _ | .xorReg _ _ => none
  | .addReg _ _ | .subReg _ _ | .subnReg _ _ | .shr _ | .shl _ | .rnd _ _ => none
  | .skp _ | .sknp _ | .ldVxDT _ | .ldDTVx _ | .ldSTVx _ | .ldVxK _ => none
  | .addI _ | .ldF _ | .ldI _ => none

/-! ## Frames and words -/

/-- Nothing but `PC` and the registers in `written` differs; every byte of memory reads as before. -/
structure RegFrame (written : Reg → Prop) (s t : State) : Prop where
  regs : ∀ r, ¬ written r → t.getV r = s.getV r
  rest : t = { s with v := t.v, pc := t.pc }
  bytes : ∀ a, t.mem.read a = s.mem.read a

/-- Nothing but `PC` differs; every byte of memory reads as before. -/
structure PcFrame (s t : State) : Prop where
  rest : t = { s with pc := t.pc }
  bytes : ∀ a, t.mem.read a = s.mem.read a

/-- The number `n`, as a 16-bit word, spells the instruction (R64). -/
abbrev Spells (n : Nat) (i : Instr) : Prop := decodeWord (BitVec.ofNat 16 n) = .ok i

/-- The fetch of this state reads the word `op` from inside memory, most significant byte first (R41). -/
abbrev Fetches (s : State) (op : Word) : Prop :=
  s.pc.toNat ≤ 0xFFE ∧ op.toNat = 256 * (s.mem.read s.pc.toNat).toNat + (s.mem.read (s.pc.toNat + 1)).toNat

/-- The sprite of `DRW Vx, Vy, n` has a 1 bit whose pixel, with wrap-around in both directions, is `p` (R141, R143). -/
def SpriteTouches (s : State) (x y : Reg) (n : Nibble) (p : Pixel) : Prop :=
  ∃ r < n.toNat, ∃ c < 8, (s.mem.read (s.i.toNat + r)).getLsbD (7 - c) = true ∧
    p.1.val = ((s.getV x).toNat + c) % 64 ∧ p.2.val = ((s.getV y).toNat + r) % 32

/-- The number `n` is an instruction word that matches no row (R66). -/
abbrev InvalidWord (n : Nat) : Prop :=
  (n / 4096 = 0x8 ∧ n % 16 ∈ [0x8, 0x9, 0xA, 0xB, 0xC, 0xD, 0xF]) ∨
  (n / 4096 = 0xE ∧ n % 256 ∉ [0x9E, 0xA1]) ∨
  (n / 4096 = 0xF ∧ n % 256 ∉ [0x07, 0x0A, 0x15, 0x18, 0x1E, 0x29, 0x33, 0x55, 0x65])

/-! ## The invariant and the end of a run -/

/-- What holds in every state the machine reaches: memory is in canonical form, `ERR` is set exactly in `HALTED` (R25), `PC`
is at most 0x10FE (R18), a live return address is at most 0x1000 (R105), and in `AWAIT_KEY` the word at `PC` is still the
`LD Vx, K` that `IR` holds (R24). -/
structure State.Inv (s : State) : Prop where
  memWf : s.mem.wf
  errIffHalted : s.err ≠ .noError ↔ s.run = .halted
  pcBound : s.pc.toNat ≤ 0x10FE
  stackBound : ∀ k : Fin 16, k.val < s.sp.val → s.stack[k].toNat ≤ 0x1000
  keyWait : s.run = .awaitKey → Fetches s s.ir ∧ ∃ x, decodeWord s.ir = .ok (.ldVxK x)

/-- The instruction is a jump whose target in this state is its own address (R103, R104, R262). -/
def selfJump (i : Instr) (s : State) : Bool :=
  match i with
  | .jp nnn => nnn.toNat == s.pc.toNat
  | .jpV0 nnn => nnn.toNat + (s.getV 0).toNat == s.pc.toNat
  | .cls | .ret | .sys _ | .call _ => false
  | .seImm _ _ | .sneImm _ _ | .seReg _ _ | .sneReg _ _ => false
  | .ldImm _ _ | .ldReg _ _ | .addImm _ _ | .orReg _ _ | .andReg _ _ | .xorReg _ _ => false
  | .addReg _ _ | .subReg _ _ | .subnReg _ _ | .shr _ | .shl _ | .rnd _ _ | .drw _ _ _ => false
  | .skp _ | .sknp _ | .ldVxDT _ | .ldDTVx _ | .ldSTVx _ | .ldVxK _ => false
  | .addI _ | .ldF _ | .ldI _ | .ldB _ | .stRegs _ | .ldRegs _ => false

/-- The machine exists, runs and has reached a jump to itself, `JP` or `JP V0`: the next tick takes it, and the state after that tick is
the end of the run, `runEnd` (R262). -/
def State.atSelfJump (s : State) : Prop :=
  s.present = true ∧ s.run = .running ∧ ∃ op i, Fetches s op ∧ decodeWord op = .ok i ∧ selfJump i s = true

end Sys2Proof.Machine
end

