-- ==== Sys2Proof/Certificates/Slice0/Obligations.lean ====
section
/-! DEFINITION. The statements for the provers. Each docstring names the rule of spec/ it formalises, or the rules and
assumption log entries it rests on. -/

open Sys2Proof Sys2Proof.Machine

/-! ## Encoding (30_encoding.md) -/

/-- R64: a word is decoded by finding its one row; rows 1 and 2 come first, and are the only ones that overlap another, row 3. -/
def Obligations.DecodeMatchesOpcodeMap : Prop :=
  ∀ op : Word,
    (match decodeWord op with
      | .ok i => some i.mnemonic
      | .error _ => none) = (opcodeRows.find? fun r => r.covers op).map OpcodeRow.mnemonic ∧
    ∀ r ∈ opcodeRows, ∀ q ∈ opcodeRows, r.covers op = true → q.covers op = true →
      r = q ∨ op = 0x00E0#16 ∨ op = 0x00EE#16

/-- R61: the positions of the six fields. -/
def Obligations.FieldsAreBitSlices : Prop :=
  ∀ op : Word,
    (opFamily op).toNat = op.toNat / 2 ^ 12 ∧ (opNnn op).toNat = op.toNat % 2 ^ 12 ∧
    (opX op).val = op.toNat / 2 ^ 8 % 16 ∧ (opY op).val = op.toNat / 2 ^ 4 % 16 ∧
    (opKk op).toNat = op.toNat % 2 ^ 8 ∧ (opN op).toNat = op.toNat % 2 ^ 4

/-- R66: the words that decode to nothing are exactly these, 1792 of family 8, 4064 of family 0xE and 3952 of family 0xF. -/
def Obligations.InvalidWordsAreExactly : Prop :=
  (∀ op : Word, (∃ e, decodeWord op = .error e) ↔ InvalidWord op.toNat) ∧
  (∀ op : Word, op.toNat / 4096 ∉ [0x8, 0xE, 0xF] → ∃ i, decodeWord op = .ok i) ∧
  (∃ c8 cE cF : List Nat, c8.length = 7 * 256 ∧ cE.length = 254 * 16 ∧ cF.length = 247 * 16 ∧
    (∀ n ∈ c8, n / 4096 = 0x8) ∧ (∀ n ∈ cE, n / 4096 = 0xE) ∧ (∀ n ∈ cF, n / 4096 = 0xF) ∧
    (c8 ++ cE ++ cF).Nodup ∧ ∀ n, n ∈ c8 ++ cE ++ cF ↔ n < 65536 ∧ InvalidWord n)

/-- R200: an invalid word that is fetched halts the machine with code 1, and `PC` is not advanced. -/
def Obligations.InvalidOpcodeIsFatal : Prop :=
  ∀ (s : State) (op : Word), s.run ≠ .halted → Fetches s op → InvalidWord op.toNat →
    tick s = .next { s with ir := op, run := .halted, err := .invalidOpcode } ∧ ErrorCode.invalidOpcode.code = 1#3

/-- R67: every word yields a well-formed instruction or the rejection that names the word. -/
def Obligations.DecodeIsTotal : Prop :=
  ∀ op : Word, (∃ i, decodeWord op = .ok i ∧ i.wellFormed = true) ∨ decodeWord op = .error (.invalidOpcode op)

/-- The encoder's word decodes to the instruction, every operand at every value, from a word and from bytes (R62, R64). -/
def Obligations.DecodeOfEncode : Prop :=
  ∀ i : Instr, i.wellFormed = true →
    decodeWord (encode i) = .ok i ∧ ∀ rest, decodeBytes (encodeBytes i ++ rest) = .ok (i, rest)

/-- A word that decodes is the encoder's word up to `op[3:0]` of `5xyN` and `9xyN` and `op[7:4]` of the shifts, and these bits,
which R65 lets be ignored, never change what is read. That the encoder writes 0 in `op[7:4]` of a shift, where R65 allows any
register, and that the operand of `SYS`, whose bits R65 ignores as well, is kept in the word, is the model's choice
(assumption 16). -/
def Obligations.EncodeOfDecode : Prop :=
  ∀ (op : Word) (i : Instr), decodeWord op = .ok i →
    encode i = canonicalWord op ∧ ∀ op' : Word, canonicalWord op' = canonicalWord op → decodeWord op' = .ok i

/-- One word of every row of the opcode map, written out from the encodings and examples of the rules, and one invalid word
(30_encoding.md R64, 95_test_vectors.md). -/
def Obligations.SpecWordsDecode : Prop :=
  (decodeWord 0x00E0#16 = .ok .cls ∧ decodeWord 0x00EE#16 = .ok .ret ∧ decodeWord 0x01E0#16 = .ok (.sys 0x1E0) ∧
    decodeWord 0x1204#16 = .ok (.jp 0x204) ∧ decodeWord 0xB300#16 = .ok (.jpV0 0x300) ∧
    decodeWord 0x2204#16 = .ok (.call 0x204) ∧ decodeWord 0x33FF#16 = .ok (.seImm 3 0xFF) ∧
    decodeWord 0x4005#16 = .ok (.sneImm 0 5) ∧ decodeWord 0x5120#16 = .ok (.seReg 1 2) ∧
    decodeWord 0x9120#16 = .ok (.sneReg 1 2)) ∧
  (decodeWord 0x6005#16 = .ok (.ldImm 0 5) ∧ decodeWord 0x8120#16 = .ok (.ldReg 1 2) ∧
    decodeWord 0x7003#16 = .ok (.addImm 0 3) ∧ decodeWord 0x8121#16 = .ok (.orReg 1 2) ∧
    decodeWord 0x8122#16 = .ok (.andReg 1 2) ∧ decodeWord 0x8123#16 = .ok (.xorReg 1 2) ∧
    decodeWord 0x8124#16 = .ok (.addReg 1 2) ∧ decodeWord 0x8125#16 = .ok (.subReg 1 2) ∧
    decodeWord 0x8127#16 = .ok (.subnReg 1 2) ∧ decodeWord 0x8106#16 = .ok (.shr 1) ∧
    decodeWord 0x810E#16 = .ok (.shl 1)) ∧
  (decodeWord 0xC10F#16 = .ok (.rnd 1 0x0F) ∧ decodeWord 0xD125#16 = .ok (.drw 1 2 5) ∧
    decodeWord 0xE29E#16 = .ok (.skp 2) ∧ decodeWord 0xE2A1#16 = .ok (.sknp 2) ∧
    decodeWord 0xF307#16 = .ok (.ldVxDT 3) ∧ decodeWord 0xF315#16 = .ok (.ldDTVx 3) ∧
    decodeWord 0xF318#16 = .ok (.ldSTVx 3) ∧ decodeWord 0xF50A#16 = .ok (.ldVxK 5) ∧
    decodeWord 0xF21E#16 = .ok (.addI 2) ∧ decodeWord 0xF429#16 = .ok (.ldF 4) ∧
    decodeWord 0xA300#16 = .ok (.ldI 0x300) ∧ decodeWord 0xF133#16 = .ok (.ldB 1) ∧
    decodeWord 0xF255#16 = .ok (.stRegs 2) ∧ decodeWord 0xF265#16 = .ok (.ldRegs 2)) ∧
  decodeWord 0xF508#16 = .error (.invalidOpcode 0xF508)

/-! ## Reset and the host (70_reset_and_hazards.md, 60_exceptions.md) -/

/-- R28, R250, R251: the state `Load` creates, and the images it refuses. A `Load` over any state creates the same core, makes no
call to a collaborator, and refuses the same images without a change (that it is `fb`, the counts of calls and the agenda that
hold what lies outside the core is the model's form, assumptions 8, 9 and 23). -/
def Obligations.LoadBuildsTheResetState : Prop :=
  ∀ image : List Byte,
    (3584 < image.length → load image = none) ∧
    (image.length ≤ 3584 → ∃ t, load image = some t ∧
      (∀ r, t.getV r = 0#8) ∧ t.i = 0#16 ∧ t.pc = 0x200#16 ∧ t.sp = 0 ∧ (∀ k : Fin 16, t.stack[k] = 0#16) ∧
      t.dt = 0#8 ∧ t.st = 0#8 ∧ t.ir = 0#16 ∧ t.cf = false ∧ t.run = .running ∧ t.err = .noError ∧
      ∀ a < 4096, t.mem.read a =
        if h : 0x200 ≤ a ∧ a - 0x200 < image.length then image[a - 0x200]
        else if Config.fontBase ≤ a ∧ a < Config.fontBase + 80 then Config.font.getD (a - Config.fontBase) 0#8
        else 0#8) ∧
    ∀ s : State,
      (3584 < image.length → s.reload image = s) ∧
      ∀ t, load image = some t → s.reload image =
        { t with
          fb := s.fb, randDraws := s.randDraws, keyQueries := s.keyQueries, keyEvents := s.keyEvents,
          timerDraws := s.timerDraws, agenda := s.agenda }

/-- R161: after any `Load`, glyph `d` of the standard font stands at `FONT_BASE + 5 d`. -/
def Obligations.FontIsLoaded : Prop :=
  ∀ (image : List Byte) (t : State), load image = some t → ∀ d : Fin 16,
    t.mem.readBytes (Config.fontBase + 5 * d.val) 5 =
      match d with
      | ⟨0x0, _⟩ => [0xF0#8, 0x90#8, 0x90#8, 0x90#8, 0xF0#8]
      | ⟨0x1, _⟩ => [0x20#8, 0x60#8, 0x20#8, 0x20#8, 0x70#8]
      | ⟨0x2, _⟩ => [0xF0#8, 0x10#8, 0xF0#8, 0x80#8, 0xF0#8]
      | ⟨0x3, _⟩ => [0xF0#8, 0x10#8, 0xF0#8, 0x10#8, 0xF0#8]
      | ⟨0x4, _⟩ => [0x90#8, 0x90#8, 0xF0#8, 0x10#8, 0x10#8]
      | ⟨0x5, _⟩ => [0xF0#8, 0x80#8, 0xF0#8, 0x10#8, 0xF0#8]
      | ⟨0x6, _⟩ => [0xF0#8, 0x80#8, 0xF0#8, 0x90#8, 0xF0#8]
      | ⟨0x7, _⟩ => [0xF0#8, 0x10#8, 0x20#8, 0x40#8, 0x40#8]
      | ⟨0x8, _⟩ => [0xF0#8, 0x90#8, 0xF0#8, 0x90#8, 0xF0#8]
      | ⟨0x9, _⟩ => [0xF0#8, 0x90#8, 0xF0#8, 0x10#8, 0xF0#8]
      | ⟨0xA, _⟩ => [0xF0#8, 0x90#8, 0xF0#8, 0x90#8, 0x90#8]
      | ⟨0xB, _⟩ => [0xE0#8, 0x90#8, 0xE0#8, 0x90#8, 0xE0#8]
      | ⟨0xC, _⟩ => [0xF0#8, 0x80#8, 0x80#8, 0x80#8, 0xF0#8]
      | ⟨0xD, _⟩ => [0xE0#8, 0x90#8, 0x90#8, 0x90#8, 0xE0#8]
      | ⟨0xE, _⟩ => [0xF0#8, 0x80#8, 0xF0#8, 0x80#8, 0xF0#8]
      | ⟨_, _⟩ => [0xF0#8, 0x80#8, 0xF0#8, 0x80#8, 0x80#8]

/-- `State.reset` is what `Load` of the empty image creates, with the frame buffer clear (assumptions 2 and 17). -/
def Obligations.ResetIsLoadOfTheEmptyImage : Prop :=
  load [] = some State.reset ∧ (∀ p, State.reset.pixel p = false) ∧ State.reset.mem.wf ∧
    ∀ r, State.reset.getV r = 0#8

/-- One `TimerTick` in each run state (R226; `TIMERS_RUN_DURING_KEY_WAIT` false, assumption 3). -/
def Obligations.TimerTickCountsDown : Prop :=
  ∀ s : State,
    (s.run = .running → s.timerTick.dt.toNat = s.dt.toNat - 1 ∧ s.timerTick.st.toNat = s.st.toNat - 1 ∧
      s.timerTick = { s with dt := s.timerTick.dt, st := s.timerTick.st }) ∧
    (s.run = .awaitKey ∨ s.run = .halted → s.timerTick = s)

/-- Any interleaving of whole `tick`, `TimerTick`, `Load` and discard actions is a run: with the actions on the agenda, as many
steps of the machine are those actions in that order, each as its own rule says. With nothing on the agenda a step is some
number of `TimerTick`s and then a tick, in which `DT` and `ST` never rise before the tick (R220, R226, R228; the agenda is the
model's form, assumption 23, the number is free, assumption 4, and that a discarded machine stays as it is until a `Load` is
assumption 19). -/
def Obligations.AnyInterleavingIsARun : Prop :=
  (∀ (as : List Action) (s : State), Host.Core.run Sys2Proof.core as.length (s.withAgenda as) = acts as (s.withAgenda [])) ∧
  (∀ s : State,
    (s.present = true → act .tick s = tick s ∧ act .timerTick s = .next s.timerTick) ∧
    (s.present = false → act .tick s = .next s ∧ act .timerTick s = .next s) ∧
    (∀ image, act (.load image) s = .next (s.reload image) ∧ (image.length ≤ 3584 → (s.reload image).present = true)) ∧
    act .discard s = .next { s with present := false }) ∧
  (∀ s : State, s.agenda = [] → s.present = true → ∃ k : Nat,
    step s = acts (List.replicate k .timerTick ++ [.tick]) { s with timerDraws := s.timerEvents.timerDraws }) ∧
  (∀ s : State, s.agenda = [] → s.present = false → step s = .next s) ∧
  (∀ s : State, ∃ k : Nat,
    s.timerEvents = { State.timerTick^[k] s with timerDraws := s.timerEvents.timerDraws } ∧
    s.timerEvents.dt.toNat ≤ s.dt.toNat ∧ s.timerEvents.st.toNat ≤ s.st.toNat ∧
    (s.run ≠ .running → s.timerEvents = s))

/-- A word placed with `withFetchWord` is fetched and run by the very next step, and in a state that could fetch nothing else is
changed but that the machine exists and no other agent's action comes first (assumption 17). The step is the timer driver's events, then the instruction with `RUN` already `RUNNING`, the model's
choices of assumptions 4 and 11 (R41, R46, R210). -/
def Obligations.PlacedWordRunsNext : Prop :=
  ∀ (s : State) (w : Nat),
    Fetches (s.withFetchWord 16 w) (BitVec.ofNat 16 w) ∧
    (∀ i, decodeTableWord 16 w = some i →
      step (s.withFetchWord 16 w) =
        exec i { (s.withFetchWord 16 w).timerEvents with ir := BitVec.ofNat 16 w, run := .running }) ∧
    (s.run ≠ .halted → s.pc.toNat ≤ 0xFFE →
      s.withFetchWord 16 w = { s with mem := (s.withFetchWord 16 w).mem, present := true, agenda := [] } ∧
      ∀ a, a ≠ s.pc.toNat → a ≠ s.pc.toNat + 1 → (s.withFetchWord 16 w).mem.read a = s.mem.read a)

/-! ## The tick engine (20_memory.md, 60_exceptions.md) -/

/-- The bounds check on the full `PC`, the big-endian word, `IR`, and then the decoded instruction (R41, R210); that `RUN` is
set together with `IR` is the model's choice (assumption 11). -/
def Obligations.TickFetchesBigEndian : Prop :=
  ∀ s : State, s.run ≠ .halted →
    (4096 - 2 < s.pc.toNat → tick s = .next { s with run := .halted, err := .fetchOutOfBounds }) ∧
    (s.pc.toNat ≤ 4096 - 2 → ∃ op : Word,
      op.toNat = 256 * (s.mem.read s.pc.toNat).toNat + (s.mem.read (s.pc.toNat + 1)).toNat ∧
      (∀ i, decodeWord op = .ok i → tick s = exec i { s with ir := op, run := .running }) ∧
      (∀ e, decodeWord op = .error e → ∃ t, tick s = .next t ∧ t.ir = op))

/-- R204: a tick raises `FetchOutOfBounds`, code 4, exactly when `PC` is 0xFFF or more. -/
def Obligations.FetchErrorExactly : Prop :=
  ErrorCode.fetchOutOfBounds.code = 4#3 ∧
  ∀ (s t : State), s.run ≠ .halted → tick s = .next t →
    ((t.run = .halted ∧ t.err = .fetchOutOfBounds) ↔ 0x0FFF ≤ s.pc.toNat)

/-- A step runs the decoded instruction, with `IR` the word and `RUN` set to `RUNNING` (R210; assumption 11): right away where a
tick is next on the agenda, and after the timer driver's events where the agenda is empty (R220, R226; assumptions 4 and 23). -/
def Obligations.StepRunsDecodedInstruction : Prop :=
  ∀ (s : State) (op : Word) (i : Instr), s.present = true → s.run ≠ .halted → Fetches s op → decodeWord op = .ok i →
    (s.agenda = [] → step s = exec i { s.timerEvents with ir := op, run := .running }) ∧
    (∀ rest, s.agenda = .tick :: rest → step s = exec i { s with agenda := rest, ir := op, run := .running })

/-- A tick in `HALTED` does nothing, and no snapshot is made (R212); neither does a step, since a `TimerTick` there has no effect
(R226) and the model draws no number of them (assumption 4). Only `Load` leaves `HALTED` (assumption 23: a `Load` is the next
action of the agenda). -/
def Obligations.HaltedTickIsIgnored : Prop :=
  ∀ s : State, s.run = .halted →
    tick s = .next s ∧ (s.agenda = [] → step s = .next s) ∧ tickOutcome s = .ignored ∧ snapshot s = none ∧
    ∀ t, step s = .next t → t.run = .halted ∨ ∃ image rest, s.agenda = .load image :: rest

/-- Every step of every state answers a next state, and so does every instruction (R67, R203, R206; assumption 10). -/
def Obligations.EveryStepAnswers : Prop :=
  (∀ s : State, ∃ t, step s = .next t) ∧ ∀ (i : Instr) (s : State), ∃ t, exec i s = .next t

/-- R203: a tick that raises an error changes `RUN` and `ERR`, and `IR` where the fetch succeeded, and nothing else. -/
def Obligations.FatalErrorsArePrecise : Prop :=
  ∀ s t : State, s.run ≠ .halted → tick s = .next t → t.run = .halted →
    t.err ≠ .noError ∧ t = { s with run := .halted, err := t.err, ir := t.ir } ∧
    (s.pc.toNat ≤ 0xFFE → Fetches s t.ir) ∧ (0xFFE < s.pc.toNat → t.ir = s.ir)

/-- A tick at `LD Vx, K` answers a next state: with no event only `RUN` and `IR` change, beside the count of `KeyEvent()` calls, and
with an event the machine runs on; no other tick leaves the machine waiting (R155, R210; assumptions 7 and 8). -/
def Obligations.StallChangesOnlyRunAndIr : Prop :=
  (∀ (s : State) (op : Word) (x : Reg), s.run ≠ .halted → Fetches s op → decodeWord op = .ok (.ldVxK x) →
    ∃ t, tick s = .next t ∧ t.ir = op ∧
      match Config.keyEvent s.keyEvents with
      | none => t = { s with run := .awaitKey, ir := op, keyEvents := s.keyEvents + 1 } ∧ tickOutcome s = .stall
      | some _ => t.run = .running ∧ tickOutcome s = .commit) ∧
  (∀ (s t : State), s.run ≠ .halted → (∀ op x, Fetches s op → decodeWord op ≠ .ok (.ldVxK x)) → tick s = .next t →
    t.run ≠ .awaitKey)

/-- R211: a tick in `AWAIT_KEY` is executed exactly like a tick in `RUNNING`, and finds the same `LD Vx, K`. -/
def Obligations.AwaitKeyTicksLikeRunning : Prop :=
  ∀ s : State, s.run = .awaitKey →
    tick s = tick { s with run := .running } ∧
    (s.Inv → ∃ x, Fetches s s.ir ∧ tick s = exec (.ldVxK x) { s with run := .running })

/-- R209: the fetch error first, then the invalid opcode, then the one error of the decoded instruction. -/
def Obligations.ErrorPriority : Prop :=
  ∀ s t : State, s.run ≠ .halted → tick s = .next t → t.run = .halted →
    if 0xFFE < s.pc.toNat then t.err = .fetchOutOfBounds
    else ∃ op, Fetches s op ∧
      match decodeWord op with
      | .error _ => t.err = .invalidOpcode
      | .ok i => handlerError i = some t.err

/-- The invariant is kept by every step: canonical memory, `ERR` set exactly in `HALTED`, `PC` at most 0x10FE, live return
addresses at most 0x1000, and a waiting machine still at its `LD Vx, K` (R18, R24, R25, R105). -/
def Obligations.StepKeepsInvariant : Prop :=
  ∀ s t : State, s.Inv → step s = .next t → t.Inv

/-- The invariant holds after reset and after every `Load` (R28). -/
def Obligations.InvariantHoldsAtReset : Prop :=
  State.reset.Inv ∧ ∀ (image : List Byte) (t : State), load image = some t → t.Inv ∧ ∀ s : State, (s.loadImage image).Inv

/-- R213: the complete pre-tick state is presented on exactly the ticks that commit. -/
def Obligations.SnapshotOnCommitOnly : Prop :=
  ∀ s p : State, snapshot s = some p ↔ p = s ∧ s.run ≠ .halted ∧ ∃ t, tick s = .next t ∧ t.run = .running

/-- The end of a run is a discard, a fatal error or a fixed point of the tick with `RUN = RUNNING` (the definition this model
takes, assumption 22): exactly a jump to itself, `JP` or `JP V0`, whose word `IR` already holds. One tick after a jump to itself
is reached the run has ended, from then on no tick changes anything, and a step that is no `Load` and no discard changes only
the timers and what says which event comes next (R103, R104, R262; assumptions 4, 19 and 23). A wait for a key is not an end. -/
def Obligations.SelfJumpIsFixedPoint : Prop :=
  (∀ s : State, runEnd s = some .discarded ↔ s.present = false) ∧
  (∀ s : State, runEnd s = some .fatalError ↔ s.present = true ∧ s.run = .halted) ∧
  (∀ s : State, runEnd s = some .fixedPoint ↔ s.present = true ∧ s.run = .running ∧ tick s = .next s) ∧
  (∀ s : State, runEnd s = some .fixedPoint ↔ s.atSelfJump ∧ Fetches s s.ir) ∧
  (∀ s : State, s.present = true → s.run = .awaitKey → runEnd s = none) ∧
  (∀ s : State, s.atSelfJump → ∃ t, tick s = .next t ∧ t = { s with ir := t.ir } ∧ runEnd t = some .fixedPoint) ∧
  (∀ s : State, runEnd s = some .fixedPoint →
    (∀ image rest, s.agenda ≠ .load image :: rest) → (∀ rest, s.agenda ≠ .discard :: rest) →
    ∃ t, step s = .next t ∧ runEnd t = some .fixedPoint ∧
      t = { s with dt := t.dt, st := t.st, timerDraws := t.timerDraws, agenda := t.agenda })

/-! ## Whole-machine rules: who may write what -/

/-- R17: the new `PC` of every instruction. -/
def Obligations.PcAfterTick : Prop :=
  ∀ (s t : State) (op : Word) (i : Instr), s.run ≠ .halted → Fetches s op → decodeWord op = .ok i → tick s = .next t →
    (t.run ≠ .running → t.pc = s.pc) ∧
    (t.run = .running → t.pc.toNat =
      match i with
      | .jp nnn | .call nnn => nnn.toNat
      | .jpV0 nnn => (nnn.toNat + (s.getV 0).toNat) % 65536
      | .ret => s.stackTop.toNat
      | .seImm x kk => if s.getV x = kk then (s.pc.toNat + 4) % 65536 else (s.pc.toNat + 2) % 65536
      | .sneImm x kk => if s.getV x ≠ kk then (s.pc.toNat + 4) % 65536 else (s.pc.toNat + 2) % 65536
      | .seReg x y => if s.getV x = s.getV y then (s.pc.toNat + 4) % 65536 else (s.pc.toNat + 2) % 65536
      | .sneReg x y => if s.getV x ≠ s.getV y then (s.pc.toNat + 4) % 65536 else (s.pc.toNat + 2) % 65536
      | .skp x => if s.keyDown (lowNibble (s.getV x)) = true then (s.pc.toNat + 4) % 65536 else (s.pc.toNat + 2) % 65536
      | .sknp x => if s.keyDown (lowNibble (s.getV x)) = false then (s.pc.toNat + 4) % 65536 else (s.pc.toNat + 2) % 65536
      | _ => (s.pc.toNat + 2) % 65536)

/-- Exactly six instructions write `VF` as a side effect, to 0 or 1 (or fault); a register that is no destination keeps
its value under every instruction (R13, R14). -/
def Obligations.OnlySixInstructionsWriteFlags : Prop :=
  ∀ (i : Instr) (s t : State), exec i s = .next t →
    (∀ r, isDestination i r = false → ¬(r = regF ∧ writesFlag i = true) → t.getV r = s.getV r) ∧
    (writesFlag i = true → t.getV regF = 0#8 ∨ t.getV regF = 1#8 ∨ t = s.raise .dataOutOfBounds)

/-- `I` is written by `LD I, nnn`, `ADD I, Vx` and `LD F, Vx` and by no other instruction (R15). -/
def Obligations.OnlyThreeInstructionsWriteIndex : Prop :=
  ∀ (i : Instr) (s t : State), exec i s = .next t →
    match i with
    | .ldI _ | .addI _ | .ldF _ => True
    | _ => t.i = s.i

/-- The stack is reached through `CALL` and `RET` alone, and by them one entry at a time (R19, R20). -/
def Obligations.OnlyCallAndRetTouchStack : Prop :=
  ∀ (i : Instr) (s t : State), exec i s = .next t →
    match i with
    | .call _ => (s.sp.val < 16 → t.sp.val = s.sp.val + 1) ∧ ∀ k : Fin 16, k.val ≠ s.sp.val → t.stack[k] = s.stack[k]
    | .ret => (s.sp.val ≠ 0 → t.sp.val + 1 = s.sp.val) ∧ t.stack = s.stack
    | _ => t.sp = s.sp ∧ t.stack = s.stack

/-- Only `LD DT, Vx` writes `DT` and only `LD ST, Vx` writes `ST`; no instruction writes `IR`, which the fetch alone writes (R21,
R22). -/
def Obligations.OnlyTheirLoadsWriteTimers : Prop :=
  ∀ (i : Instr) (s t : State), exec i s = .next t → t.ir = s.ir ∧
    match i with
    | .ldDTVx _ => t.st = s.st
    | .ldSTVx _ => t.dt = s.dt
    | _ => t.dt = s.dt ∧ t.st = s.st

/-- The frame buffer is reached by `CLS` and `DRW` alone, and `CF` by `DRW` alone (R23, R221). -/
def Obligations.OnlyClsAndDrwReachDisplay : Prop :=
  ∀ (i : Instr) (s t : State), exec i s = .next t →
    match i with
    | .cls => t.cf = s.cf
    | .drw _ _ _ => True
    | _ => t.fb = s.fb ∧ t.cf = s.cf

/-- Memory is written by `LD B, Vx` and `LD [I], Vx` alone, at `I` onward: a stored address reads as the stored byte, and every
other byte reads as before (R43, R167). -/
def Obligations.OnlyTwoInstructionsWriteMemory : Prop :=
  ∀ (i : Instr) (s t : State), exec i s = .next t →
    (∀ a, a < s.i.toNat ∨ s.i.toNat + (storedBytes i s).length ≤ a → t.mem.read a = s.mem.read a) ∧
    (∀ (j : Nat) (hj : j < (storedBytes i s).length), s.i.toNat + (storedBytes i s).length ≤ 4096 →
      t.mem.read (s.i.toNat + j) = (storedBytes i s)[j]) ∧
    (4096 < s.i.toNat + (storedBytes i s).length → storedBytes i s ≠ [] → t.mem = s.mem) ∧
    (storedBytes i s = [] → t.mem = s.mem)

/-! ## System and control flow (40_system_and_flow.md) -/

/-- R100: `CLS` clears every pixel and advances. -/
def Obligations.ClsClearsDisplay : Prop :=
  Spells 0x00E0 .cls ∧
  ∀ s : State, ∃ t, exec .cls s = .next t ∧ (∀ p, t.pixel p = false) ∧ t.pc.toNat = (s.pc.toNat + 2) % 65536 ∧
    t = { s with pc := t.pc, fb := t.fb } ∧ ∀ a, t.mem.read a = s.mem.read a

/-- R101, R202: `RET` pops the newest entry into `PC`, and faults with code 3 on an empty stack. -/
def Obligations.RetPopsIntoPc : Prop :=
  Spells 0x00EE .ret ∧ ErrorCode.stackUnderflow.code = 3#3 ∧
  ∀ s : State,
    (s.sp = 0 → exec .ret s = .next { s with run := .halted, err := .stackUnderflow }) ∧
    (∀ k : Fin 16, s.sp.val = k.val + 1 → ∃ t, exec .ret s = .next t ∧ t.pc = s.stack[k] ∧ t.sp.val = k.val ∧
      t = { s with pc := t.pc, sp := t.sp } ∧ ∀ a, t.mem.read a = s.mem.read a)

/-- R102, R103, R104: `SYS` advances and does nothing else; the two jumps set `PC` and nothing else. -/
def Obligations.SysAndJumpsSetPc : Prop :=
  ∀ (nnn : Addr) (s : State),
    (nnn ≠ 0x0E0#12 → nnn ≠ 0x0EE#12 → Spells nnn.toNat (.sys nnn)) ∧
    Spells (0x1000 + nnn.toNat) (.jp nnn) ∧ Spells (0xB000 + nnn.toNat) (.jpV0 nnn) ∧
    (∃ t, exec (.sys nnn) s = .next t ∧ t.pc.toNat = (s.pc.toNat + 2) % 65536 ∧ PcFrame s t) ∧
    (∃ t, exec (.jp nnn) s = .next t ∧ t.pc.toNat = nnn.toNat ∧ PcFrame s t) ∧
    (∃ t, exec (.jpV0 nnn) s = .next t ∧ t.pc.toNat = nnn.toNat + (s.getV 0).toNat ∧ PcFrame s t)

/-- R105, R201: `CALL` pushes `PC + 2` and jumps, and faults with code 2 on a full stack. -/
def Obligations.CallPushesReturnAddress : Prop :=
  ErrorCode.stackOverflow.code = 2#3 ∧
  ∀ (nnn : Addr) (s : State),
    Spells (0x2000 + nnn.toNat) (.call nnn) ∧
    (s.sp.val = 16 → exec (.call nnn) s = .next { s with run := .halted, err := .stackOverflow }) ∧
    (∀ k : Fin 16, s.sp.val = k.val → ∃ t, exec (.call nnn) s = .next t ∧
      t.stack[k].toNat = (s.pc.toNat + 2) % 65536 ∧ t.sp.val = k.val + 1 ∧ t.pc.toNat = nnn.toNat ∧
      (∀ j : Fin 16, j ≠ k → t.stack[j] = s.stack[j]) ∧
      t = { s with pc := t.pc, sp := t.sp, stack := t.stack } ∧ ∀ a, t.mem.read a = s.mem.read a)

/-- A `RET` right after a `CALL` resumes behind the call with the stack as it was (R101, R105, R110). -/
def Obligations.RetUndoesCall : Prop :=
  ∀ (nnn : Addr) (s t : State), s.sp.val < 16 → exec (.call nnn) s = .next t →
    ∃ u, exec .ret t = .next u ∧ u.pc.toNat = (s.pc.toNat + 2) % 65536 ∧ u.sp = s.sp ∧
      (∀ k : Fin 16, k.val < s.sp.val → u.stack[k] = s.stack[k]) ∧ u = { s with pc := u.pc, stack := u.stack }

/-- R106, R107: the skips on an immediate. -/
def Obligations.SkipsCompareImmediate : Prop :=
  ∀ (x : Reg) (kk : Byte) (s : State),
    Spells (0x3000 + 0x100 * x.val + kk.toNat) (.seImm x kk) ∧ Spells (0x4000 + 0x100 * x.val + kk.toNat) (.sneImm x kk) ∧
    (∃ t, exec (.seImm x kk) s = .next t ∧
      t.pc.toNat = (s.pc.toNat + if (s.getV x).toNat = kk.toNat then 4 else 2) % 65536 ∧ PcFrame s t) ∧
    (∃ t, exec (.sneImm x kk) s = .next t ∧
      t.pc.toNat = (s.pc.toNat + if (s.getV x).toNat = kk.toNat then 2 else 4) % 65536 ∧ PcFrame s t)

/-- R108, R109: the skips on two registers; the low nibble of their words is ignored. -/
def Obligations.SkipsCompareRegisters : Prop :=
  ∀ (x y : Reg) (n : Nibble) (s : State),
    Spells (0x5000 + 0x100 * x.val + 0x10 * y.val + n.toNat) (.seReg x y) ∧
    Spells (0x9000 + 0x100 * x.val + 0x10 * y.val + n.toNat) (.sneReg x y) ∧
    (∃ t, exec (.seReg x y) s = .next t ∧
      t.pc.toNat = (s.pc.toNat + if (s.getV x).toNat = (s.getV y).toNat then 4 else 2) % 65536 ∧ PcFrame s t) ∧
    (∃ t, exec (.sneReg x y) s = .next t ∧
      t.pc.toNat = (s.pc.toNat + if (s.getV x).toNat = (s.getV y).toNat then 2 else 4) % 65536 ∧ PcFrame s t)

/-! ## Loads and arithmetic (41_load_and_alu.md) -/

/-- R120, R121: the two register loads. -/
def Obligations.LoadsAssignRegister : Prop :=
  ∀ (x y : Reg) (kk : Byte) (s : State),
    Spells (0x6000 + 0x100 * x.val + kk.toNat) (.ldImm x kk) ∧
    Spells (0x8000 + 0x100 * x.val + 0x10 * y.val) (.ldReg x y) ∧
    (∃ t, exec (.ldImm x kk) s = .next t ∧ t.getV x = kk ∧ t.pc.toNat = (s.pc.toNat + 2) % 65536 ∧
      RegFrame (· = x) s t) ∧
    (∃ t, exec (.ldReg x y) s = .next t ∧ t.getV x = s.getV y ∧ t.pc.toNat = (s.pc.toNat + 2) % 65536 ∧
      RegFrame (· = x) s t)

/-- R122: the immediate add wraps and writes no flag. -/
def Obligations.AddImmediateWraps : Prop :=
  ∀ (x : Reg) (kk : Byte) (s : State),
    Spells (0x7000 + 0x100 * x.val + kk.toNat) (.addImm x kk) ∧
    ∃ t, exec (.addImm x kk) s = .next t ∧ (t.getV x).toNat = ((s.getV x).toNat + kk.toNat) % 256 ∧
      t.pc.toNat = (s.pc.toNat + 2) % 65536 ∧ RegFrame (· = x) s t

/-- R123, R124, R125: the bitwise operations, bit by bit, with no flag. -/
def Obligations.LogicIsBitwise : Prop :=
  ∀ (x y : Reg) (s : State),
    Spells (0x8001 + 0x100 * x.val + 0x10 * y.val) (.orReg x y) ∧
    Spells (0x8002 + 0x100 * x.val + 0x10 * y.val) (.andReg x y) ∧
    Spells (0x8003 + 0x100 * x.val + 0x10 * y.val) (.xorReg x y) ∧
    (∃ t, exec (.orReg x y) s = .next t ∧
      (∀ b < 8, (t.getV x).getLsbD b = ((s.getV x).getLsbD b || (s.getV y).getLsbD b)) ∧
      t.pc.toNat = (s.pc.toNat + 2) % 65536 ∧ RegFrame (· = x) s t) ∧
    (∃ t, exec (.andReg x y) s = .next t ∧
      (∀ b < 8, (t.getV x).getLsbD b = ((s.getV x).getLsbD b && (s.getV y).getLsbD b)) ∧
      t.pc.toNat = (s.pc.toNat + 2) % 65536 ∧ RegFrame (· = x) s t) ∧
    (∃ t, exec (.xorReg x y) s = .next t ∧
      (∀ b < 8, (t.getV x).getLsbD b = ((s.getV x).getLsbD b != (s.getV y).getLsbD b)) ∧
      t.pc.toNat = (s.pc.toNat + 2) % 65536 ∧ RegFrame (· = x) s t)

/-- R126: the wrapped sum and the carry; the flag is written last, so with `x = 15` it is what stays (R14). -/
def Obligations.AddSetsCarry : Prop :=
  ∀ (x y : Reg) (s : State),
    Spells (0x8004 + 0x100 * x.val + 0x10 * y.val) (.addReg x y) ∧
    ∃ t, exec (.addReg x y) s = .next t ∧
      (x ≠ regF → (t.getV x).toNat = ((s.getV x).toNat + (s.getV y).toNat) % 256) ∧
      (t.getV regF).toNat = (if 255 < (s.getV x).toNat + (s.getV y).toNat then 1 else 0) ∧
      t.pc.toNat = (s.pc.toNat + 2) % 65536 ∧ RegFrame (fun r => r = x ∨ r = regF) s t

/-- R127, R128: the wrapped differences and the no-borrow flag, written last (R14). -/
def Obligations.SubtractsSetNoBorrow : Prop :=
  ∀ (x y : Reg) (s : State),
    Spells (0x8005 + 0x100 * x.val + 0x10 * y.val) (.subReg x y) ∧
    Spells (0x8007 + 0x100 * x.val + 0x10 * y.val) (.subnReg x y) ∧
    (∃ t, exec (.subReg x y) s = .next t ∧
      (x ≠ regF → ((t.getV x).toNat : Int) = ((s.getV x).toNat - (s.getV y).toNat : Int) % 256) ∧
      (t.getV regF).toNat = (if (s.getV y).toNat ≤ (s.getV x).toNat then 1 else 0) ∧
      t.pc.toNat = (s.pc.toNat + 2) % 65536 ∧ RegFrame (fun r => r = x ∨ r = regF) s t) ∧
    (∃ t, exec (.subnReg x y) s = .next t ∧
      (x ≠ regF → ((t.getV x).toNat : Int) = ((s.getV y).toNat - (s.getV x).toNat : Int) % 256) ∧
      (t.getV regF).toNat = (if (s.getV x).toNat ≤ (s.getV y).toNat then 1 else 0) ∧
      t.pc.toNat = (s.pc.toNat + 2) % 65536 ∧ RegFrame (fun r => r = x ∨ r = regF) s t)

/-- R129, R130: the shifts by one, in place, with the bit shifted out in `VF`, written last (R14); `y` is ignored. -/
def Obligations.ShiftsSetBitShiftedOut : Prop :=
  ∀ (x y : Reg) (s : State),
    Spells (0x8006 + 0x100 * x.val + 0x10 * y.val) (.shr x) ∧ Spells (0x800E + 0x100 * x.val + 0x10 * y.val) (.shl x) ∧
    (∃ t, exec (.shr x) s = .next t ∧ (x ≠ regF → (t.getV x).toNat = (s.getV x).toNat / 2) ∧
      (t.getV regF).toNat = (s.getV x).toNat % 2 ∧
      t.pc.toNat = (s.pc.toNat + 2) % 65536 ∧ RegFrame (fun r => r = x ∨ r = regF) s t) ∧
    (∃ t, exec (.shl x) s = .next t ∧ (x ≠ regF → (t.getV x).toNat = (s.getV x).toNat * 2 % 256) ∧
      (t.getV regF).toNat = (s.getV x).toNat / 128 ∧
      t.pc.toNat = (s.pc.toNat + 2) % 65536 ∧ RegFrame (fun r => r = x ∨ r = regF) s t)

/-! ## Random and draw (42_random_and_draw.md) -/

/-- R140: one drawn byte AND the immediate; the byte is the free value (assumption 5), so this holds for every byte
drawn; the count of calls is the model's own (assumption 8). -/
def Obligations.RandomIsMasked : Prop :=
  ∀ (x : Reg) (kk : Byte) (s : State),
    Spells (0xC000 + 0x100 * x.val + kk.toNat) (.rnd x kk) ∧
    ∃ t, exec (.rnd x kk) s = .next t ∧
      (∀ b < 8, (t.getV x).getLsbD b = ((Config.randByte s.randDraws).getLsbD b && kk.getLsbD b)) ∧
      t.pc.toNat = (s.pc.toNat + 2) % 65536 ∧ (∀ r, r ≠ x → t.getV r = s.getV r) ∧
      t = { s with v := t.v, pc := t.pc, randDraws := s.randDraws + 1 } ∧ ∀ a, t.mem.read a = s.mem.read a

/-- R142, R143: `DRW` inverts exactly the sprite's pixels, with wrap-around, and `VF` and `CF` tell whether one of them was set;
an access beyond memory faults before any effect. -/
def Obligations.DrawTogglesSprite : Prop :=
  ∀ (x y : Reg) (n : Nibble) (s : State),
    Spells (0xD000 + 0x100 * x.val + 0x10 * y.val + n.toNat) (.drw x y n) ∧
    (n.toNat = 0 ∨ s.i.toNat + n.toNat - 1 ≤ 4095 → ∃ t, exec (.drw x y n) s = .next t ∧
      (∀ p, SpriteTouches s x y n p → t.pixel p = !s.pixel p) ∧
      (∀ p, ¬ SpriteTouches s x y n p → t.pixel p = s.pixel p) ∧
      ((∃ p, SpriteTouches s x y n p ∧ s.pixel p = true) → t.getV regF = 1#8 ∧ t.cf = true) ∧
      ((∀ p, SpriteTouches s x y n p → s.pixel p = false) → t.getV regF = 0#8 ∧ t.cf = false) ∧
      t.pc.toNat = (s.pc.toNat + 2) % 65536 ∧ (∀ r, r ≠ regF → t.getV r = s.getV r) ∧
      t = { s with v := t.v, pc := t.pc, cf := t.cf, fb := t.fb } ∧ ∀ a, t.mem.read a = s.mem.read a) ∧
    (0 < n.toNat → 4095 < s.i.toNat + n.toNat - 1 →
      exec (.drw x y n) s = .next { s with run := .halted, err := .dataOutOfBounds })

/-- No two calls of one `DRW` address the same pixel, and there is one call per 1 bit of the sprite (R143). -/
def Obligations.SpriteCallsAreDistinct : Prop :=
  ∀ (vx vy : Byte) (rows : List Byte), rows.length ≤ 15 →
    (spritePixels vx vy rows).Nodup ∧
    (spritePixels vx vy rows).length = (rows.map fun b => ((List.range 8).filter fun c => b.getLsbD c).length).sum

/-- The same sprite drawn twice at the same coordinates leaves the display as it was; the first draw reports no collision on clear
ground; the second reports one exactly when the first set a pixel (R143, 95_test_vectors.md S6). -/
def Obligations.DrawTwiceRestoresDisplay : Prop :=
  ∀ (x y : Reg) (n : Nibble) (s t u : State),
    (n.toNat = 0 ∨ s.i.toNat + n.toNat - 1 ≤ 4095) →
    exec (.drw x y n) s = .next t → t.getV x = s.getV x → t.getV y = s.getV y → exec (.drw x y n) t = .next u →
    u.fb = s.fb ∧
    ((∃ p, SpriteTouches s x y n p ∧ s.pixel p = false) → u.getV regF = 1#8) ∧
    ((∀ p, SpriteTouches s x y n p → s.pixel p = true) → u.getV regF = 0#8) ∧
    ((∀ p, SpriteTouches s x y n p → s.pixel p = false) → t.getV regF = 0#8)

/-! ## Keys and timers (43_key_and_timer.md) -/

/-- R150, R151: the key skips, on the low nibble of `V[x]`; the key's state is the free value (assumption
6), the count of calls the model's own (assumption 8). -/
def Obligations.KeySkipsFollowKeyState : Prop :=
  ∀ (x : Reg) (k : Key) (s : State), (s.getV x).toNat % 16 = k.val →
    Spells (0xE09E + 0x100 * x.val) (.skp x) ∧ Spells (0xE0A1 + 0x100 * x.val) (.sknp x) ∧
    (∃ t, exec (.skp x) s = .next t ∧
      t.pc.toNat = (s.pc.toNat + if Config.keyDown s.keyQueries k = true then 4 else 2) % 65536 ∧
      t = { s with pc := t.pc, keyQueries := s.keyQueries + 1 } ∧ ∀ a, t.mem.read a = s.mem.read a) ∧
    (∃ t, exec (.sknp x) s = .next t ∧
      t.pc.toNat = (s.pc.toNat + if Config.keyDown s.keyQueries k = true then 2 else 4) % 65536 ∧
      t = { s with pc := t.pc, keyQueries := s.keyQueries + 1 } ∧ ∀ a, t.mem.read a = s.mem.read a)

/-- R152, R153, R154: the three timer loads. -/
def Obligations.TimerLoadsCopy : Prop :=
  ∀ (x : Reg) (s : State),
    Spells (0xF007 + 0x100 * x.val) (.ldVxDT x) ∧ Spells (0xF015 + 0x100 * x.val) (.ldDTVx x) ∧
    Spells (0xF018 + 0x100 * x.val) (.ldSTVx x) ∧
    (∃ t, exec (.ldVxDT x) s = .next t ∧ t.getV x = s.dt ∧ t.pc.toNat = (s.pc.toNat + 2) % 65536 ∧
      RegFrame (· = x) s t) ∧
    (∃ t, exec (.ldDTVx x) s = .next t ∧ t.dt = s.getV x ∧ t.pc.toNat = (s.pc.toNat + 2) % 65536 ∧
      t = { s with pc := t.pc, dt := t.dt } ∧ ∀ a, t.mem.read a = s.mem.read a) ∧
    (∃ t, exec (.ldSTVx x) s = .next t ∧ t.st = s.getV x ∧ t.pc.toNat = (s.pc.toNat + 2) % 65536 ∧
      t = { s with pc := t.pc, st := t.st } ∧ ∀ a, t.mem.read a = s.mem.read a)

/-- R155: with no event the machine stalls in `AWAIT_KEY`, with one it loads the code; the event is the free value (assumption
7). Every answer it can give is covered, and in each the instruction answers a next state; the count of calls is the model's own
(assumption 8). -/
def Obligations.KeyWaitStallsOrLoads : Prop :=
  ∀ (x : Reg) (s : State),
    Spells (0xF00A + 0x100 * x.val) (.ldVxK x) ∧
    ∃ t, exec (.ldVxK x) s = .next t ∧
      match Config.keyEvent s.keyEvents with
      | none => t = { s with run := .awaitKey, keyEvents := s.keyEvents + 1 }
      | some k => (t.getV x).toNat = k.val ∧ t.run = .running ∧ t.pc.toNat = (s.pc.toNat + 2) % 65536 ∧
          (∀ r, r ≠ x → t.getV r = s.getV r) ∧
          t = { s with v := t.v, pc := t.pc, run := .running, keyEvents := s.keyEvents + 1 } ∧
          ∀ a, t.mem.read a = s.mem.read a

/-! ## Index and memory (44_index_and_memory.md) -/

/-- R160, R162, R166: the three writers of `I`, none of which touches a flag. -/
def Obligations.IndexWritersSetIndex : Prop :=
  ∀ (x : Reg) (nnn : Addr) (s : State),
    Spells (0xF01E + 0x100 * x.val) (.addI x) ∧ Spells (0xF029 + 0x100 * x.val) (.ldF x) ∧
    Spells (0xA000 + nnn.toNat) (.ldI nnn) ∧
    (∃ t, exec (.addI x) s = .next t ∧ t.i.toNat = (s.i.toNat + (s.getV x).toNat) % 65536 ∧
      t.pc.toNat = (s.pc.toNat + 2) % 65536 ∧ t = { s with pc := t.pc, i := t.i } ∧ ∀ a, t.mem.read a = s.mem.read a) ∧
    (∃ t, exec (.ldF x) s = .next t ∧ t.i.toNat = Config.fontBase + 5 * ((s.getV x).toNat % 16) ∧
      t.pc.toNat = (s.pc.toNat + 2) % 65536 ∧ t = { s with pc := t.pc, i := t.i } ∧ ∀ a, t.mem.read a = s.mem.read a) ∧
    (∃ t, exec (.ldI nnn) s = .next t ∧ t.i.toNat = nnn.toNat ∧
      t.pc.toNat = (s.pc.toNat + 2) % 65536 ∧ t = { s with pc := t.pc, i := t.i } ∧ ∀ a, t.mem.read a = s.mem.read a)

/-- R163: the three decimal digits at `I`, `I + 1`, `I + 2`, or `DataOutOfBounds` when `I + 2` is beyond memory. -/
def Obligations.BcdStoresDigits : Prop :=
  ∀ (x : Reg) (s : State),
    Spells (0xF033 + 0x100 * x.val) (.ldB x) ∧
    (s.i.toNat + 2 ≤ 4095 → ∃ t, exec (.ldB x) s = .next t ∧
      (t.mem.read s.i.toNat).toNat = (s.getV x).toNat / 100 ∧
      (t.mem.read (s.i.toNat + 1)).toNat = (s.getV x).toNat / 10 % 10 ∧
      (t.mem.read (s.i.toNat + 2)).toNat = (s.getV x).toNat % 10 ∧
      (∀ a, a < s.i.toNat ∨ s.i.toNat + 3 ≤ a → t.mem.read a = s.mem.read a) ∧
      t.pc.toNat = (s.pc.toNat + 2) % 65536 ∧ t = { s with pc := t.pc, mem := t.mem }) ∧
    (4095 < s.i.toNat + 2 → exec (.ldB x) s = .next { s with run := .halted, err := .dataOutOfBounds })

/-- R164: `V0` to `Vx` go to `I` onward, or `DataOutOfBounds` when `I + x` is beyond memory. -/
def Obligations.StoreCopiesRegisters : Prop :=
  ∀ (x : Reg) (s : State),
    Spells (0xF055 + 0x100 * x.val) (.stRegs x) ∧
    (s.i.toNat + x.val ≤ 4095 → ∃ t, exec (.stRegs x) s = .next t ∧
      (∀ k : Reg, k ≤ x → t.mem.read (s.i.toNat + k.val) = s.getV k) ∧
      (∀ a, a < s.i.toNat ∨ s.i.toNat + x.val + 1 ≤ a → t.mem.read a = s.mem.read a) ∧
      t.pc.toNat = (s.pc.toNat + 2) % 65536 ∧ t = { s with pc := t.pc, mem := t.mem }) ∧
    (4095 < s.i.toNat + x.val → exec (.stRegs x) s = .next { s with run := .halted, err := .dataOutOfBounds })

/-- R165: `V0` to `Vx` come from `I` onward, or `DataOutOfBounds` when `I + x` is beyond memory. -/
def Obligations.LoadCopiesMemory : Prop :=
  ∀ (x : Reg) (s : State),
    Spells (0xF065 + 0x100 * x.val) (.ldRegs x) ∧
    (s.i.toNat + x.val ≤ 4095 → ∃ t, exec (.ldRegs x) s = .next t ∧
      (∀ k : Reg, k ≤ x → t.getV k = s.mem.read (s.i.toNat + k.val)) ∧
      t.pc.toNat = (s.pc.toNat + 2) % 65536 ∧ RegFrame (· ≤ x) s t) ∧
    (4095 < s.i.toNat + x.val → exec (.ldRegs x) s = .next { s with run := .halted, err := .dataOutOfBounds })

/-- R205: a tick raises `DataOutOfBounds`, code 5, exactly for these instructions and addresses. -/
def Obligations.DataErrorExactly : Prop :=
  ErrorCode.dataOutOfBounds.code = 5#3 ∧
  ∀ (s t : State) (op : Word) (i : Instr), s.run ≠ .halted → Fetches s op → decodeWord op = .ok i → tick s = .next t →
    ((t.run = .halted ∧ t.err = .dataOutOfBounds) ↔
      match i with
      | .drw _ _ n => 0 < n.toNat ∧ 4095 < s.i.toNat + n.toNat - 1
      | .ldB _ => 4095 < s.i.toNat + 2
      | .stRegs x | .ldRegs x => 4095 < s.i.toNat + x.val
      | _ => False)

/-- A store is seen by the next fetch: the bytes of two stored registers are the word fetched there (R52). -/
def Obligations.StoreIsSeenByFetch : Prop :=
  ∀ (x k : Reg) (s t u : State), s.i.toNat + x.val ≤ 4095 → k < x → exec (.stRegs x) s = .next t →
    u.mem = t.mem → u.pc.toNat = s.i.toNat + k.val →
    ∀ op : Word, Fetches u op ↔ op.toNat = 256 * (s.getV k).toNat + (s.getV (k + 1)).toNat
end

