-- ==== Sys2Proof/Laws/State.lean ====
section
/-! SUPPORT. For every named update of the state, what each field holds after it, and how the accessors read through it. -/

namespace Sys2Proof.Machine

/-! ### `setV` -/

@[simp] theorem State.setV_v (s : State) (x : Reg) (b : Byte) : (s.setV x b).v = s.v.set x b := rfl
@[simp] theorem State.setV_i (s : State) (x : Reg) (b : Byte) : (s.setV x b).i = s.i := rfl
@[simp] theorem State.setV_pc (s : State) (x : Reg) (b : Byte) : (s.setV x b).pc = s.pc := rfl
@[simp] theorem State.setV_stack (s : State) (x : Reg) (b : Byte) : (s.setV x b).stack = s.stack := rfl
@[simp] theorem State.setV_sp (s : State) (x : Reg) (b : Byte) : (s.setV x b).sp = s.sp := rfl
@[simp] theorem State.setV_dt (s : State) (x : Reg) (b : Byte) : (s.setV x b).dt = s.dt := rfl
@[simp] theorem State.setV_st (s : State) (x : Reg) (b : Byte) : (s.setV x b).st = s.st := rfl
@[simp] theorem State.setV_ir (s : State) (x : Reg) (b : Byte) : (s.setV x b).ir = s.ir := rfl
@[simp] theorem State.setV_cf (s : State) (x : Reg) (b : Byte) : (s.setV x b).cf = s.cf := rfl
@[simp] theorem State.setV_run (s : State) (x : Reg) (b : Byte) : (s.setV x b).run = s.run := rfl
@[simp] theorem State.setV_err (s : State) (x : Reg) (b : Byte) : (s.setV x b).err = s.err := rfl
@[simp] theorem State.setV_mem (s : State) (x : Reg) (b : Byte) : (s.setV x b).mem = s.mem := rfl
@[simp] theorem State.setV_fb (s : State) (x : Reg) (b : Byte) : (s.setV x b).fb = s.fb := rfl
@[simp] theorem State.setV_randDraws (s : State) (x : Reg) (b : Byte) : (s.setV x b).randDraws = s.randDraws := rfl
@[simp] theorem State.setV_keyQueries (s : State) (x : Reg) (b : Byte) : (s.setV x b).keyQueries = s.keyQueries := rfl
@[simp] theorem State.setV_keyEvents (s : State) (x : Reg) (b : Byte) : (s.setV x b).keyEvents = s.keyEvents := rfl
@[simp] theorem State.setV_timerDraws (s : State) (x : Reg) (b : Byte) : (s.setV x b).timerDraws = s.timerDraws := rfl
@[simp] theorem State.setV_present (s : State) (x : Reg) (b : Byte) : (s.setV x b).present = s.present := rfl
@[simp] theorem State.setV_agenda (s : State) (x : Reg) (b : Byte) : (s.setV x b).agenda = s.agenda := rfl
@[simp] theorem State.setV_pixel (s : State) (x : Reg) (b : Byte) (q : Pixel) : (s.setV x b).pixel q = s.pixel q := rfl

/-! ### `setI` -/

@[simp] theorem State.setI_v (s : State) (w : Word) : (s.setI w).v = s.v := rfl
@[simp] theorem State.setI_i (s : State) (w : Word) : (s.setI w).i = w := rfl
@[simp] theorem State.setI_pc (s : State) (w : Word) : (s.setI w).pc = s.pc := rfl
@[simp] theorem State.setI_stack (s : State) (w : Word) : (s.setI w).stack = s.stack := rfl
@[simp] theorem State.setI_sp (s : State) (w : Word) : (s.setI w).sp = s.sp := rfl
@[simp] theorem State.setI_dt (s : State) (w : Word) : (s.setI w).dt = s.dt := rfl
@[simp] theorem State.setI_st (s : State) (w : Word) : (s.setI w).st = s.st := rfl
@[simp] theorem State.setI_ir (s : State) (w : Word) : (s.setI w).ir = s.ir := rfl
@[simp] theorem State.setI_cf (s : State) (w : Word) : (s.setI w).cf = s.cf := rfl
@[simp] theorem State.setI_run (s : State) (w : Word) : (s.setI w).run = s.run := rfl
@[simp] theorem State.setI_err (s : State) (w : Word) : (s.setI w).err = s.err := rfl
@[simp] theorem State.setI_mem (s : State) (w : Word) : (s.setI w).mem = s.mem := rfl
@[simp] theorem State.setI_fb (s : State) (w : Word) : (s.setI w).fb = s.fb := rfl
@[simp] theorem State.setI_randDraws (s : State) (w : Word) : (s.setI w).randDraws = s.randDraws := rfl
@[simp] theorem State.setI_keyQueries (s : State) (w : Word) : (s.setI w).keyQueries = s.keyQueries := rfl
@[simp] theorem State.setI_keyEvents (s : State) (w : Word) : (s.setI w).keyEvents = s.keyEvents := rfl
@[simp] theorem State.setI_timerDraws (s : State) (w : Word) : (s.setI w).timerDraws = s.timerDraws := rfl
@[simp] theorem State.setI_present (s : State) (w : Word) : (s.setI w).present = s.present := rfl
@[simp] theorem State.setI_agenda (s : State) (w : Word) : (s.setI w).agenda = s.agenda := rfl
@[simp] theorem State.setI_getV (s : State) (w : Word) (q : Reg) : (s.setI w).getV q = s.getV q := rfl
@[simp] theorem State.setI_pixel (s : State) (w : Word) (q : Pixel) : (s.setI w).pixel q = s.pixel q := rfl

/-! ### `setPc` -/

@[simp] theorem State.setPc_v (s : State) (w : Word) : (s.setPc w).v = s.v := rfl
@[simp] theorem State.setPc_i (s : State) (w : Word) : (s.setPc w).i = s.i := rfl
@[simp] theorem State.setPc_pc (s : State) (w : Word) : (s.setPc w).pc = w := rfl
@[simp] theorem State.setPc_stack (s : State) (w : Word) : (s.setPc w).stack = s.stack := rfl
@[simp] theorem State.setPc_sp (s : State) (w : Word) : (s.setPc w).sp = s.sp := rfl
@[simp] theorem State.setPc_dt (s : State) (w : Word) : (s.setPc w).dt = s.dt := rfl
@[simp] theorem State.setPc_st (s : State) (w : Word) : (s.setPc w).st = s.st := rfl
@[simp] theorem State.setPc_ir (s : State) (w : Word) : (s.setPc w).ir = s.ir := rfl
@[simp] theorem State.setPc_cf (s : State) (w : Word) : (s.setPc w).cf = s.cf := rfl
@[simp] theorem State.setPc_run (s : State) (w : Word) : (s.setPc w).run = s.run := rfl
@[simp] theorem State.setPc_err (s : State) (w : Word) : (s.setPc w).err = s.err := rfl
@[simp] theorem State.setPc_mem (s : State) (w : Word) : (s.setPc w).mem = s.mem := rfl
@[simp] theorem State.setPc_fb (s : State) (w : Word) : (s.setPc w).fb = s.fb := rfl
@[simp] theorem State.setPc_randDraws (s : State) (w : Word) : (s.setPc w).randDraws = s.randDraws := rfl
@[simp] theorem State.setPc_keyQueries (s : State) (w : Word) : (s.setPc w).keyQueries = s.keyQueries := rfl
@[simp] theorem State.setPc_keyEvents (s : State) (w : Word) : (s.setPc w).keyEvents = s.keyEvents := rfl
@[simp] theorem State.setPc_timerDraws (s : State) (w : Word) : (s.setPc w).timerDraws = s.timerDraws := rfl
@[simp] theorem State.setPc_present (s : State) (w : Word) : (s.setPc w).present = s.present := rfl
@[simp] theorem State.setPc_agenda (s : State) (w : Word) : (s.setPc w).agenda = s.agenda := rfl
@[simp] theorem State.setPc_getV (s : State) (w : Word) (q : Reg) : (s.setPc w).getV q = s.getV q := rfl
@[simp] theorem State.setPc_pixel (s : State) (w : Word) (q : Pixel) : (s.setPc w).pixel q = s.pixel q := rfl

/-! ### `advance` -/

@[simp] theorem State.advance_v (s : State) : (s.advance).v = s.v := rfl
@[simp] theorem State.advance_i (s : State) : (s.advance).i = s.i := rfl
@[simp] theorem State.advance_pc (s : State) : (s.advance).pc = s.pc + 2#16 := rfl
@[simp] theorem State.advance_stack (s : State) : (s.advance).stack = s.stack := rfl
@[simp] theorem State.advance_sp (s : State) : (s.advance).sp = s.sp := rfl
@[simp] theorem State.advance_dt (s : State) : (s.advance).dt = s.dt := rfl
@[simp] theorem State.advance_st (s : State) : (s.advance).st = s.st := rfl
@[simp] theorem State.advance_ir (s : State) : (s.advance).ir = s.ir := rfl
@[simp] theorem State.advance_cf (s : State) : (s.advance).cf = s.cf := rfl
@[simp] theorem State.advance_run (s : State) : (s.advance).run = s.run := rfl
@[simp] theorem State.advance_err (s : State) : (s.advance).err = s.err := rfl
@[simp] theorem State.advance_mem (s : State) : (s.advance).mem = s.mem := rfl
@[simp] theorem State.advance_fb (s : State) : (s.advance).fb = s.fb := rfl
@[simp] theorem State.advance_randDraws (s : State) : (s.advance).randDraws = s.randDraws := rfl
@[simp] theorem State.advance_keyQueries (s : State) : (s.advance).keyQueries = s.keyQueries := rfl
@[simp] theorem State.advance_keyEvents (s : State) : (s.advance).keyEvents = s.keyEvents := rfl
@[simp] theorem State.advance_timerDraws (s : State) : (s.advance).timerDraws = s.timerDraws := rfl
@[simp] theorem State.advance_present (s : State) : (s.advance).present = s.present := rfl
@[simp] theorem State.advance_agenda (s : State) : (s.advance).agenda = s.agenda := rfl
@[simp] theorem State.advance_getV (s : State) (q : Reg) : (s.advance).getV q = s.getV q := rfl
@[simp] theorem State.advance_pixel (s : State) (q : Pixel) : (s.advance).pixel q = s.pixel q := rfl

/-! ### `skipIf` -/

@[simp] theorem State.skipIf_v (s : State) (c : Bool) : (s.skipIf c).v = s.v := rfl
@[simp] theorem State.skipIf_i (s : State) (c : Bool) : (s.skipIf c).i = s.i := rfl
@[simp] theorem State.skipIf_pc (s : State) (c : Bool) : (s.skipIf c).pc = (if c then s.pc + 4#16 else s.pc + 2#16) := rfl
@[simp] theorem State.skipIf_stack (s : State) (c : Bool) : (s.skipIf c).stack = s.stack := rfl
@[simp] theorem State.skipIf_sp (s : State) (c : Bool) : (s.skipIf c).sp = s.sp := rfl
@[simp] theorem State.skipIf_dt (s : State) (c : Bool) : (s.skipIf c).dt = s.dt := rfl
@[simp] theorem State.skipIf_st (s : State) (c : Bool) : (s.skipIf c).st = s.st := rfl
@[simp] theorem State.skipIf_ir (s : State) (c : Bool) : (s.skipIf c).ir = s.ir := rfl
@[simp] theorem State.skipIf_cf (s : State) (c : Bool) : (s.skipIf c).cf = s.cf := rfl
@[simp] theorem State.skipIf_run (s : State) (c : Bool) : (s.skipIf c).run = s.run := rfl
@[simp] theorem State.skipIf_err (s : State) (c : Bool) : (s.skipIf c).err = s.err := rfl
@[simp] theorem State.skipIf_mem (s : State) (c : Bool) : (s.skipIf c).mem = s.mem := rfl
@[simp] theorem State.skipIf_fb (s : State) (c : Bool) : (s.skipIf c).fb = s.fb := rfl
@[simp] theorem State.skipIf_randDraws (s : State) (c : Bool) : (s.skipIf c).randDraws = s.randDraws := rfl
@[simp] theorem State.skipIf_keyQueries (s : State) (c : Bool) : (s.skipIf c).keyQueries = s.keyQueries := rfl
@[simp] theorem State.skipIf_keyEvents (s : State) (c : Bool) : (s.skipIf c).keyEvents = s.keyEvents := rfl
@[simp] theorem State.skipIf_timerDraws (s : State) (c : Bool) : (s.skipIf c).timerDraws = s.timerDraws := rfl
@[simp] theorem State.skipIf_present (s : State) (c : Bool) : (s.skipIf c).present = s.present := rfl
@[simp] theorem State.skipIf_agenda (s : State) (c : Bool) : (s.skipIf c).agenda = s.agenda := rfl
@[simp] theorem State.skipIf_getV (s : State) (c : Bool) (q : Reg) : (s.skipIf c).getV q = s.getV q := rfl
@[simp] theorem State.skipIf_pixel (s : State) (c : Bool) (q : Pixel) : (s.skipIf c).pixel q = s.pixel q := rfl

/-! ### `setDt` -/

@[simp] theorem State.setDt_v (s : State) (b : Byte) : (s.setDt b).v = s.v := rfl
@[simp] theorem State.setDt_i (s : State) (b : Byte) : (s.setDt b).i = s.i := rfl
@[simp] theorem State.setDt_pc (s : State) (b : Byte) : (s.setDt b).pc = s.pc := rfl
@[simp] theorem State.setDt_stack (s : State) (b : Byte) : (s.setDt b).stack = s.stack := rfl
@[simp] theorem State.setDt_sp (s : State) (b : Byte) : (s.setDt b).sp = s.sp := rfl
@[simp] theorem State.setDt_dt (s : State) (b : Byte) : (s.setDt b).dt = b := rfl
@[simp] theorem State.setDt_st (s : State) (b : Byte) : (s.setDt b).st = s.st := rfl
@[simp] theorem State.setDt_ir (s : State) (b : Byte) : (s.setDt b).ir = s.ir := rfl
@[simp] theorem State.setDt_cf (s : State) (b : Byte) : (s.setDt b).cf = s.cf := rfl
@[simp] theorem State.setDt_run (s : State) (b : Byte) : (s.setDt b).run = s.run := rfl
@[simp] theorem State.setDt_err (s : State) (b : Byte) : (s.setDt b).err = s.err := rfl
@[simp] theorem State.setDt_mem (s : State) (b : Byte) : (s.setDt b).mem = s.mem := rfl
@[simp] theorem State.setDt_fb (s : State) (b : Byte) : (s.setDt b).fb = s.fb := rfl
@[simp] theorem State.setDt_randDraws (s : State) (b : Byte) : (s.setDt b).randDraws = s.randDraws := rfl
@[simp] theorem State.setDt_keyQueries (s : State) (b : Byte) : (s.setDt b).keyQueries = s.keyQueries := rfl
@[simp] theorem State.setDt_keyEvents (s : State) (b : Byte) : (s.setDt b).keyEvents = s.keyEvents := rfl
@[simp] theorem State.setDt_timerDraws (s : State) (b : Byte) : (s.setDt b).timerDraws = s.timerDraws := rfl
@[simp] theorem State.setDt_present (s : State) (b : Byte) : (s.setDt b).present = s.present := rfl
@[simp] theorem State.setDt_agenda (s : State) (b : Byte) : (s.setDt b).agenda = s.agenda := rfl
@[simp] theorem State.setDt_getV (s : State) (b : Byte) (q : Reg) : (s.setDt b).getV q = s.getV q := rfl
@[simp] theorem State.setDt_pixel (s : State) (b : Byte) (q : Pixel) : (s.setDt b).pixel q = s.pixel q := rfl

/-! ### `setSt` -/

@[simp] theorem State.setSt_v (s : State) (b : Byte) : (s.setSt b).v = s.v := rfl
@[simp] theorem State.setSt_i (s : State) (b : Byte) : (s.setSt b).i = s.i := rfl
@[simp] theorem State.setSt_pc (s : State) (b : Byte) : (s.setSt b).pc = s.pc := rfl
@[simp] theorem State.setSt_stack (s : State) (b : Byte) : (s.setSt b).stack = s.stack := rfl
@[simp] theorem State.setSt_sp (s : State) (b : Byte) : (s.setSt b).sp = s.sp := rfl
@[simp] theorem State.setSt_dt (s : State) (b : Byte) : (s.setSt b).dt = s.dt := rfl
@[simp] theorem State.setSt_st (s : State) (b : Byte) : (s.setSt b).st = b := rfl
@[simp] theorem State.setSt_ir (s : State) (b : Byte) : (s.setSt b).ir = s.ir := rfl
@[simp] theorem State.setSt_cf (s : State) (b : Byte) : (s.setSt b).cf = s.cf := rfl
@[simp] theorem State.setSt_run (s : State) (b : Byte) : (s.setSt b).run = s.run := rfl
@[simp] theorem State.setSt_err (s : State) (b : Byte) : (s.setSt b).err = s.err := rfl
@[simp] theorem State.setSt_mem (s : State) (b : Byte) : (s.setSt b).mem = s.mem := rfl
@[simp] theorem State.setSt_fb (s : State) (b : Byte) : (s.setSt b).fb = s.fb := rfl
@[simp] theorem State.setSt_randDraws (s : State) (b : Byte) : (s.setSt b).randDraws = s.randDraws := rfl
@[simp] theorem State.setSt_keyQueries (s : State) (b : Byte) : (s.setSt b).keyQueries = s.keyQueries := rfl
@[simp] theorem State.setSt_keyEvents (s : State) (b : Byte) : (s.setSt b).keyEvents = s.keyEvents := rfl
@[simp] theorem State.setSt_timerDraws (s : State) (b : Byte) : (s.setSt b).timerDraws = s.timerDraws := rfl
@[simp] theorem State.setSt_present (s : State) (b : Byte) : (s.setSt b).present = s.present := rfl
@[simp] theorem State.setSt_agenda (s : State) (b : Byte) : (s.setSt b).agenda = s.agenda := rfl
@[simp] theorem State.setSt_getV (s : State) (b : Byte) (q : Reg) : (s.setSt b).getV q = s.getV q := rfl
@[simp] theorem State.setSt_pixel (s : State) (b : Byte) (q : Pixel) : (s.setSt b).pixel q = s.pixel q := rfl

/-! ### `loadRegs` -/

@[simp] theorem State.loadRegs_v (s : State) (bs : List Byte) : (s.loadRegs bs).v = loadFrom s.v 0 bs := rfl
@[simp] theorem State.loadRegs_i (s : State) (bs : List Byte) : (s.loadRegs bs).i = s.i := rfl
@[simp] theorem State.loadRegs_pc (s : State) (bs : List Byte) : (s.loadRegs bs).pc = s.pc := rfl
@[simp] theorem State.loadRegs_stack (s : State) (bs : List Byte) : (s.loadRegs bs).stack = s.stack := rfl
@[simp] theorem State.loadRegs_sp (s : State) (bs : List Byte) : (s.loadRegs bs).sp = s.sp := rfl
@[simp] theorem State.loadRegs_dt (s : State) (bs : List Byte) : (s.loadRegs bs).dt = s.dt := rfl
@[simp] theorem State.loadRegs_st (s : State) (bs : List Byte) : (s.loadRegs bs).st = s.st := rfl
@[simp] theorem State.loadRegs_ir (s : State) (bs : List Byte) : (s.loadRegs bs).ir = s.ir := rfl
@[simp] theorem State.loadRegs_cf (s : State) (bs : List Byte) : (s.loadRegs bs).cf = s.cf := rfl
@[simp] theorem State.loadRegs_run (s : State) (bs : List Byte) : (s.loadRegs bs).run = s.run := rfl
@[simp] theorem State.loadRegs_err (s : State) (bs : List Byte) : (s.loadRegs bs).err = s.err := rfl
@[simp] theorem State.loadRegs_mem (s : State) (bs : List Byte) : (s.loadRegs bs).mem = s.mem := rfl
@[simp] theorem State.loadRegs_fb (s : State) (bs : List Byte) : (s.loadRegs bs).fb = s.fb := rfl
@[simp] theorem State.loadRegs_randDraws (s : State) (bs : List Byte) : (s.loadRegs bs).randDraws = s.randDraws := rfl
@[simp] theorem State.loadRegs_keyQueries (s : State) (bs : List Byte) : (s.loadRegs bs).keyQueries = s.keyQueries := rfl
@[simp] theorem State.loadRegs_keyEvents (s : State) (bs : List Byte) : (s.loadRegs bs).keyEvents = s.keyEvents := rfl
@[simp] theorem State.loadRegs_timerDraws (s : State) (bs : List Byte) : (s.loadRegs bs).timerDraws = s.timerDraws := rfl
@[simp] theorem State.loadRegs_present (s : State) (bs : List Byte) : (s.loadRegs bs).present = s.present := rfl
@[simp] theorem State.loadRegs_agenda (s : State) (bs : List Byte) : (s.loadRegs bs).agenda = s.agenda := rfl
@[simp] theorem State.loadRegs_pixel (s : State) (bs : List Byte) (q : Pixel) : (s.loadRegs bs).pixel q = s.pixel q := rfl

/-! ### `storeBytes` -/

@[simp] theorem State.storeBytes_v (s : State) (a : Nat) (bs : List Byte) : (s.storeBytes a bs).v = s.v := rfl
@[simp] theorem State.storeBytes_i (s : State) (a : Nat) (bs : List Byte) : (s.storeBytes a bs).i = s.i := rfl
@[simp] theorem State.storeBytes_pc (s : State) (a : Nat) (bs : List Byte) : (s.storeBytes a bs).pc = s.pc := rfl
@[simp] theorem State.storeBytes_stack (s : State) (a : Nat) (bs : List Byte) : (s.storeBytes a bs).stack = s.stack := rfl
@[simp] theorem State.storeBytes_sp (s : State) (a : Nat) (bs : List Byte) : (s.storeBytes a bs).sp = s.sp := rfl
@[simp] theorem State.storeBytes_dt (s : State) (a : Nat) (bs : List Byte) : (s.storeBytes a bs).dt = s.dt := rfl
@[simp] theorem State.storeBytes_st (s : State) (a : Nat) (bs : List Byte) : (s.storeBytes a bs).st = s.st := rfl
@[simp] theorem State.storeBytes_ir (s : State) (a : Nat) (bs : List Byte) : (s.storeBytes a bs).ir = s.ir := rfl
@[simp] theorem State.storeBytes_cf (s : State) (a : Nat) (bs : List Byte) : (s.storeBytes a bs).cf = s.cf := rfl
@[simp] theorem State.storeBytes_run (s : State) (a : Nat) (bs : List Byte) : (s.storeBytes a bs).run = s.run := rfl
@[simp] theorem State.storeBytes_err (s : State) (a : Nat) (bs : List Byte) : (s.storeBytes a bs).err = s.err := rfl
@[simp] theorem State.storeBytes_mem (s : State) (a : Nat) (bs : List Byte) : (s.storeBytes a bs).mem = s.mem.writeBytes a bs := rfl
@[simp] theorem State.storeBytes_fb (s : State) (a : Nat) (bs : List Byte) : (s.storeBytes a bs).fb = s.fb := rfl
@[simp] theorem State.storeBytes_randDraws (s : State) (a : Nat) (bs : List Byte) : (s.storeBytes a bs).randDraws = s.randDraws := rfl
@[simp] theorem State.storeBytes_keyQueries (s : State) (a : Nat) (bs : List Byte) : (s.storeBytes a bs).keyQueries = s.keyQueries := rfl
@[simp] theorem State.storeBytes_keyEvents (s : State) (a : Nat) (bs : List Byte) : (s.storeBytes a bs).keyEvents = s.keyEvents := rfl
@[simp] theorem State.storeBytes_timerDraws (s : State) (a : Nat) (bs : List Byte) : (s.storeBytes a bs).timerDraws = s.timerDraws := rfl
@[simp] theorem State.storeBytes_present (s : State) (a : Nat) (bs : List Byte) : (s.storeBytes a bs).present = s.present := rfl
@[simp] theorem State.storeBytes_agenda (s : State) (a : Nat) (bs : List Byte) : (s.storeBytes a bs).agenda = s.agenda := rfl
@[simp] theorem State.storeBytes_getV (s : State) (a : Nat) (bs : List Byte) (q : Reg) : (s.storeBytes a bs).getV q = s.getV q := rfl
@[simp] theorem State.storeBytes_pixel (s : State) (a : Nat) (bs : List Byte) (q : Pixel) : (s.storeBytes a bs).pixel q = s.pixel q := rfl

/-! ### `pop` -/

@[simp] theorem State.pop_v (s : State) : (s.pop).v = s.v := rfl
@[simp] theorem State.pop_i (s : State) : (s.pop).i = s.i := rfl
@[simp] theorem State.pop_pc (s : State) : (s.pop).pc = s.pc := rfl
@[simp] theorem State.pop_stack (s : State) : (s.pop).stack = s.stack := rfl
@[simp] theorem State.pop_dt (s : State) : (s.pop).dt = s.dt := rfl
@[simp] theorem State.pop_st (s : State) : (s.pop).st = s.st := rfl
@[simp] theorem State.pop_ir (s : State) : (s.pop).ir = s.ir := rfl
@[simp] theorem State.pop_cf (s : State) : (s.pop).cf = s.cf := rfl
@[simp] theorem State.pop_run (s : State) : (s.pop).run = s.run := rfl
@[simp] theorem State.pop_err (s : State) : (s.pop).err = s.err := rfl
@[simp] theorem State.pop_mem (s : State) : (s.pop).mem = s.mem := rfl
@[simp] theorem State.pop_fb (s : State) : (s.pop).fb = s.fb := rfl
@[simp] theorem State.pop_randDraws (s : State) : (s.pop).randDraws = s.randDraws := rfl
@[simp] theorem State.pop_keyQueries (s : State) : (s.pop).keyQueries = s.keyQueries := rfl
@[simp] theorem State.pop_keyEvents (s : State) : (s.pop).keyEvents = s.keyEvents := rfl
@[simp] theorem State.pop_timerDraws (s : State) : (s.pop).timerDraws = s.timerDraws := rfl
@[simp] theorem State.pop_present (s : State) : (s.pop).present = s.present := rfl
@[simp] theorem State.pop_agenda (s : State) : (s.pop).agenda = s.agenda := rfl
@[simp] theorem State.pop_sp_val (s : State) : s.pop.sp.val = s.sp.val - 1 := rfl
@[simp] theorem State.pop_getV (s : State) (q : Reg) : (s.pop).getV q = s.getV q := rfl
@[simp] theorem State.pop_pixel (s : State) (q : Pixel) : (s.pop).pixel q = s.pixel q := rfl

/-! ### `push` -/

@[simp] theorem State.push_v (s : State) (w : Word) : (s.push w).v = s.v := rfl
@[simp] theorem State.push_i (s : State) (w : Word) : (s.push w).i = s.i := rfl
@[simp] theorem State.push_pc (s : State) (w : Word) : (s.push w).pc = s.pc := rfl
@[simp] theorem State.push_stack (s : State) (w : Word) : (s.push w).stack = s.stack.setIfInBounds s.sp.val w := rfl
@[simp] theorem State.push_dt (s : State) (w : Word) : (s.push w).dt = s.dt := rfl
@[simp] theorem State.push_st (s : State) (w : Word) : (s.push w).st = s.st := rfl
@[simp] theorem State.push_ir (s : State) (w : Word) : (s.push w).ir = s.ir := rfl
@[simp] theorem State.push_cf (s : State) (w : Word) : (s.push w).cf = s.cf := rfl
@[simp] theorem State.push_run (s : State) (w : Word) : (s.push w).run = s.run := rfl
@[simp] theorem State.push_err (s : State) (w : Word) : (s.push w).err = s.err := rfl
@[simp] theorem State.push_mem (s : State) (w : Word) : (s.push w).mem = s.mem := rfl
@[simp] theorem State.push_fb (s : State) (w : Word) : (s.push w).fb = s.fb := rfl
@[simp] theorem State.push_randDraws (s : State) (w : Word) : (s.push w).randDraws = s.randDraws := rfl
@[simp] theorem State.push_keyQueries (s : State) (w : Word) : (s.push w).keyQueries = s.keyQueries := rfl
@[simp] theorem State.push_keyEvents (s : State) (w : Word) : (s.push w).keyEvents = s.keyEvents := rfl
@[simp] theorem State.push_timerDraws (s : State) (w : Word) : (s.push w).timerDraws = s.timerDraws := rfl
@[simp] theorem State.push_present (s : State) (w : Word) : (s.push w).present = s.present := rfl
@[simp] theorem State.push_agenda (s : State) (w : Word) : (s.push w).agenda = s.agenda := rfl
@[simp] theorem State.push_sp_val (s : State) (w : Word) : (s.push w).sp.val = min (s.sp.val + 1) Config.stackDepth := rfl
@[simp] theorem State.push_getV (s : State) (w : Word) (q : Reg) : (s.push w).getV q = s.getV q := rfl
@[simp] theorem State.push_pixel (s : State) (w : Word) (q : Pixel) : (s.push w).pixel q = s.pixel q := rfl

/-! ### `setRun` -/

@[simp] theorem State.setRun_v (s : State) (r : RunState) : (s.setRun r).v = s.v := rfl
@[simp] theorem State.setRun_i (s : State) (r : RunState) : (s.setRun r).i = s.i := rfl
@[simp] theorem State.setRun_pc (s : State) (r : RunState) : (s.setRun r).pc = s.pc := rfl
@[simp] theorem State.setRun_stack (s : State) (r : RunState) : (s.setRun r).stack = s.stack := rfl
@[simp] theorem State.setRun_sp (s : State) (r : RunState) : (s.setRun r).sp = s.sp := rfl
@[simp] theorem State.setRun_dt (s : State) (r : RunState) : (s.setRun r).dt = s.dt := rfl
@[simp] theorem State.setRun_st (s : State) (r : RunState) : (s.setRun r).st = s.st := rfl
@[simp] theorem State.setRun_ir (s : State) (r : RunState) : (s.setRun r).ir = s.ir := rfl
@[simp] theorem State.setRun_cf (s : State) (r : RunState) : (s.setRun r).cf = s.cf := rfl
@[simp] theorem State.setRun_run (s : State) (r : RunState) : (s.setRun r).run = r := rfl
@[simp] theorem State.setRun_err (s : State) (r : RunState) : (s.setRun r).err = s.err := rfl
@[simp] theorem State.setRun_mem (s : State) (r : RunState) : (s.setRun r).mem = s.mem := rfl
@[simp] theorem State.setRun_fb (s : State) (r : RunState) : (s.setRun r).fb = s.fb := rfl
@[simp] theorem State.setRun_randDraws (s : State) (r : RunState) : (s.setRun r).randDraws = s.randDraws := rfl
@[simp] theorem State.setRun_keyQueries (s : State) (r : RunState) : (s.setRun r).keyQueries = s.keyQueries := rfl
@[simp] theorem State.setRun_keyEvents (s : State) (r : RunState) : (s.setRun r).keyEvents = s.keyEvents := rfl
@[simp] theorem State.setRun_timerDraws (s : State) (r : RunState) : (s.setRun r).timerDraws = s.timerDraws := rfl
@[simp] theorem State.setRun_present (s : State) (r : RunState) : (s.setRun r).present = s.present := rfl
@[simp] theorem State.setRun_agenda (s : State) (r : RunState) : (s.setRun r).agenda = s.agenda := rfl
@[simp] theorem State.setRun_getV (s : State) (r : RunState) (q : Reg) : (s.setRun r).getV q = s.getV q := rfl
@[simp] theorem State.setRun_pixel (s : State) (r : RunState) (q : Pixel) : (s.setRun r).pixel q = s.pixel q := rfl

/-! ### `raise` -/

@[simp] theorem State.raise_v (s : State) (e : ErrorCode) : (s.raise e).v = s.v := rfl
@[simp] theorem State.raise_i (s : State) (e : ErrorCode) : (s.raise e).i = s.i := rfl
@[simp] theorem State.raise_pc (s : State) (e : ErrorCode) : (s.raise e).pc = s.pc := rfl
@[simp] theorem State.raise_stack (s : State) (e : ErrorCode) : (s.raise e).stack = s.stack := rfl
@[simp] theorem State.raise_sp (s : State) (e : ErrorCode) : (s.raise e).sp = s.sp := rfl
@[simp] theorem State.raise_dt (s : State) (e : ErrorCode) : (s.raise e).dt = s.dt := rfl
@[simp] theorem State.raise_st (s : State) (e : ErrorCode) : (s.raise e).st = s.st := rfl
@[simp] theorem State.raise_ir (s : State) (e : ErrorCode) : (s.raise e).ir = s.ir := rfl
@[simp] theorem State.raise_cf (s : State) (e : ErrorCode) : (s.raise e).cf = s.cf := rfl
@[simp] theorem State.raise_run (s : State) (e : ErrorCode) : (s.raise e).run = .halted := rfl
@[simp] theorem State.raise_err (s : State) (e : ErrorCode) : (s.raise e).err = e := rfl
@[simp] theorem State.raise_mem (s : State) (e : ErrorCode) : (s.raise e).mem = s.mem := rfl
@[simp] theorem State.raise_fb (s : State) (e : ErrorCode) : (s.raise e).fb = s.fb := rfl
@[simp] theorem State.raise_randDraws (s : State) (e : ErrorCode) : (s.raise e).randDraws = s.randDraws := rfl
@[simp] theorem State.raise_keyQueries (s : State) (e : ErrorCode) : (s.raise e).keyQueries = s.keyQueries := rfl
@[simp] theorem State.raise_keyEvents (s : State) (e : ErrorCode) : (s.raise e).keyEvents = s.keyEvents := rfl
@[simp] theorem State.raise_timerDraws (s : State) (e : ErrorCode) : (s.raise e).timerDraws = s.timerDraws := rfl
@[simp] theorem State.raise_present (s : State) (e : ErrorCode) : (s.raise e).present = s.present := rfl
@[simp] theorem State.raise_agenda (s : State) (e : ErrorCode) : (s.raise e).agenda = s.agenda := rfl
@[simp] theorem State.raise_getV (s : State) (e : ErrorCode) (q : Reg) : (s.raise e).getV q = s.getV q := rfl
@[simp] theorem State.raise_pixel (s : State) (e : ErrorCode) (q : Pixel) : (s.raise e).pixel q = s.pixel q := rfl

/-! ### `discard` -/

@[simp] theorem State.discard_v (s : State) : (s.discard).v = s.v := rfl
@[simp] theorem State.discard_i (s : State) : (s.discard).i = s.i := rfl
@[simp] theorem State.discard_pc (s : State) : (s.discard).pc = s.pc := rfl
@[simp] theorem State.discard_stack (s : State) : (s.discard).stack = s.stack := rfl
@[simp] theorem State.discard_sp (s : State) : (s.discard).sp = s.sp := rfl
@[simp] theorem State.discard_dt (s : State) : (s.discard).dt = s.dt := rfl
@[simp] theorem State.discard_st (s : State) : (s.discard).st = s.st := rfl
@[simp] theorem State.discard_ir (s : State) : (s.discard).ir = s.ir := rfl
@[simp] theorem State.discard_cf (s : State) : (s.discard).cf = s.cf := rfl
@[simp] theorem State.discard_run (s : State) : (s.discard).run = s.run := rfl
@[simp] theorem State.discard_err (s : State) : (s.discard).err = s.err := rfl
@[simp] theorem State.discard_mem (s : State) : (s.discard).mem = s.mem := rfl
@[simp] theorem State.discard_fb (s : State) : (s.discard).fb = s.fb := rfl
@[simp] theorem State.discard_randDraws (s : State) : (s.discard).randDraws = s.randDraws := rfl
@[simp] theorem State.discard_keyQueries (s : State) : (s.discard).keyQueries = s.keyQueries := rfl
@[simp] theorem State.discard_keyEvents (s : State) : (s.discard).keyEvents = s.keyEvents := rfl
@[simp] theorem State.discard_timerDraws (s : State) : (s.discard).timerDraws = s.timerDraws := rfl
@[simp] theorem State.discard_present (s : State) : (s.discard).present = false := rfl
@[simp] theorem State.discard_agenda (s : State) : (s.discard).agenda = s.agenda := rfl
@[simp] theorem State.discard_getV (s : State) (q : Reg) : (s.discard).getV q = s.getV q := rfl
@[simp] theorem State.discard_pixel (s : State) (q : Pixel) : (s.discard).pixel q = s.pixel q := rfl

/-! ### `withAgenda` -/

@[simp] theorem State.withAgenda_v (s : State) (l : List Action) : (s.withAgenda l).v = s.v := rfl
@[simp] theorem State.withAgenda_i (s : State) (l : List Action) : (s.withAgenda l).i = s.i := rfl
@[simp] theorem State.withAgenda_pc (s : State) (l : List Action) : (s.withAgenda l).pc = s.pc := rfl
@[simp] theorem State.withAgenda_stack (s : State) (l : List Action) : (s.withAgenda l).stack = s.stack := rfl
@[simp] theorem State.withAgenda_sp (s : State) (l : List Action) : (s.withAgenda l).sp = s.sp := rfl
@[simp] theorem State.withAgenda_dt (s : State) (l : List Action) : (s.withAgenda l).dt = s.dt := rfl
@[simp] theorem State.withAgenda_st (s : State) (l : List Action) : (s.withAgenda l).st = s.st := rfl
@[simp] theorem State.withAgenda_ir (s : State) (l : List Action) : (s.withAgenda l).ir = s.ir := rfl
@[simp] theorem State.withAgenda_cf (s : State) (l : List Action) : (s.withAgenda l).cf = s.cf := rfl
@[simp] theorem State.withAgenda_run (s : State) (l : List Action) : (s.withAgenda l).run = s.run := rfl
@[simp] theorem State.withAgenda_err (s : State) (l : List Action) : (s.withAgenda l).err = s.err := rfl
@[simp] theorem State.withAgenda_mem (s : State) (l : List Action) : (s.withAgenda l).mem = s.mem := rfl
@[simp] theorem State.withAgenda_fb (s : State) (l : List Action) : (s.withAgenda l).fb = s.fb := rfl
@[simp] theorem State.withAgenda_randDraws (s : State) (l : List Action) : (s.withAgenda l).randDraws = s.randDraws := rfl
@[simp] theorem State.withAgenda_keyQueries (s : State) (l : List Action) : (s.withAgenda l).keyQueries = s.keyQueries := rfl
@[simp] theorem State.withAgenda_keyEvents (s : State) (l : List Action) : (s.withAgenda l).keyEvents = s.keyEvents := rfl
@[simp] theorem State.withAgenda_timerDraws (s : State) (l : List Action) : (s.withAgenda l).timerDraws = s.timerDraws := rfl
@[simp] theorem State.withAgenda_present (s : State) (l : List Action) : (s.withAgenda l).present = s.present := rfl
@[simp] theorem State.withAgenda_agenda (s : State) (l : List Action) : (s.withAgenda l).agenda = l := rfl
@[simp] theorem State.withAgenda_getV (s : State) (l : List Action) (q : Reg) : (s.withAgenda l).getV q = s.getV q := rfl
@[simp] theorem State.withAgenda_pixel (s : State) (l : List Action) (q : Pixel) : (s.withAgenda l).pixel q = s.pixel q := rfl

/-! ### `dispClear` -/

@[simp] theorem State.dispClear_v (s : State) : (s.dispClear).v = s.v := rfl
@[simp] theorem State.dispClear_i (s : State) : (s.dispClear).i = s.i := rfl
@[simp] theorem State.dispClear_pc (s : State) : (s.dispClear).pc = s.pc := rfl
@[simp] theorem State.dispClear_stack (s : State) : (s.dispClear).stack = s.stack := rfl
@[simp] theorem State.dispClear_sp (s : State) : (s.dispClear).sp = s.sp := rfl
@[simp] theorem State.dispClear_dt (s : State) : (s.dispClear).dt = s.dt := rfl
@[simp] theorem State.dispClear_st (s : State) : (s.dispClear).st = s.st := rfl
@[simp] theorem State.dispClear_ir (s : State) : (s.dispClear).ir = s.ir := rfl
@[simp] theorem State.dispClear_cf (s : State) : (s.dispClear).cf = s.cf := rfl
@[simp] theorem State.dispClear_run (s : State) : (s.dispClear).run = s.run := rfl
@[simp] theorem State.dispClear_err (s : State) : (s.dispClear).err = s.err := rfl
@[simp] theorem State.dispClear_mem (s : State) : (s.dispClear).mem = s.mem := rfl
@[simp] theorem State.dispClear_fb (s : State) : (s.dispClear).fb = Vector.replicate 32 0#64 := rfl
@[simp] theorem State.dispClear_randDraws (s : State) : (s.dispClear).randDraws = s.randDraws := rfl
@[simp] theorem State.dispClear_keyQueries (s : State) : (s.dispClear).keyQueries = s.keyQueries := rfl
@[simp] theorem State.dispClear_keyEvents (s : State) : (s.dispClear).keyEvents = s.keyEvents := rfl
@[simp] theorem State.dispClear_timerDraws (s : State) : (s.dispClear).timerDraws = s.timerDraws := rfl
@[simp] theorem State.dispClear_present (s : State) : (s.dispClear).present = s.present := rfl
@[simp] theorem State.dispClear_agenda (s : State) : (s.dispClear).agenda = s.agenda := rfl
@[simp] theorem State.dispClear_getV (s : State) (q : Reg) : (s.dispClear).getV q = s.getV q := rfl

/-! ### `togglePixel` -/

@[simp] theorem State.togglePixel_v (s : State) (p : Pixel) : (s.togglePixel p).v = s.v := rfl
@[simp] theorem State.togglePixel_i (s : State) (p : Pixel) : (s.togglePixel p).i = s.i := rfl
@[simp] theorem State.togglePixel_pc (s : State) (p : Pixel) : (s.togglePixel p).pc = s.pc := rfl
@[simp] theorem State.togglePixel_stack (s : State) (p : Pixel) : (s.togglePixel p).stack = s.stack := rfl
@[simp] theorem State.togglePixel_sp (s : State) (p : Pixel) : (s.togglePixel p).sp = s.sp := rfl
@[simp] theorem State.togglePixel_dt (s : State) (p : Pixel) : (s.togglePixel p).dt = s.dt := rfl
@[simp] theorem State.togglePixel_st (s : State) (p : Pixel) : (s.togglePixel p).st = s.st := rfl
@[simp] theorem State.togglePixel_ir (s : State) (p : Pixel) : (s.togglePixel p).ir = s.ir := rfl
@[simp] theorem State.togglePixel_cf (s : State) (p : Pixel) : (s.togglePixel p).cf = (s.cf || s.pixel p) := rfl
@[simp] theorem State.togglePixel_run (s : State) (p : Pixel) : (s.togglePixel p).run = s.run := rfl
@[simp] theorem State.togglePixel_err (s : State) (p : Pixel) : (s.togglePixel p).err = s.err := rfl
@[simp] theorem State.togglePixel_mem (s : State) (p : Pixel) : (s.togglePixel p).mem = s.mem := rfl
@[simp] theorem State.togglePixel_fb (s : State) (p : Pixel) : (s.togglePixel p).fb = s.fb.set p.2 (s.fb[p.2] ^^^ BitVec.twoPow 64 p.1.val) := rfl
@[simp] theorem State.togglePixel_randDraws (s : State) (p : Pixel) : (s.togglePixel p).randDraws = s.randDraws := rfl
@[simp] theorem State.togglePixel_keyQueries (s : State) (p : Pixel) : (s.togglePixel p).keyQueries = s.keyQueries := rfl
@[simp] theorem State.togglePixel_keyEvents (s : State) (p : Pixel) : (s.togglePixel p).keyEvents = s.keyEvents := rfl
@[simp] theorem State.togglePixel_timerDraws (s : State) (p : Pixel) : (s.togglePixel p).timerDraws = s.timerDraws := rfl
@[simp] theorem State.togglePixel_present (s : State) (p : Pixel) : (s.togglePixel p).present = s.present := rfl
@[simp] theorem State.togglePixel_agenda (s : State) (p : Pixel) : (s.togglePixel p).agenda = s.agenda := rfl
@[simp] theorem State.togglePixel_getV (s : State) (p : Pixel) (q : Reg) : (s.togglePixel p).getV q = s.getV q := rfl

/-! ### `clearCf` -/

@[simp] theorem State.clearCf_v (s : State) : (s.clearCf).v = s.v := rfl
@[simp] theorem State.clearCf_i (s : State) : (s.clearCf).i = s.i := rfl
@[simp] theorem State.clearCf_pc (s : State) : (s.clearCf).pc = s.pc := rfl
@[simp] theorem State.clearCf_stack (s : State) : (s.clearCf).stack = s.stack := rfl
@[simp] theorem State.clearCf_sp (s : State) : (s.clearCf).sp = s.sp := rfl
@[simp] theorem State.clearCf_dt (s : State) : (s.clearCf).dt = s.dt := rfl
@[simp] theorem State.clearCf_st (s : State) : (s.clearCf).st = s.st := rfl
@[simp] theorem State.clearCf_ir (s : State) : (s.clearCf).ir = s.ir := rfl
@[simp] theorem State.clearCf_cf (s : State) : (s.clearCf).cf = false := rfl
@[simp] theorem State.clearCf_run (s : State) : (s.clearCf).run = s.run := rfl
@[simp] theorem State.clearCf_err (s : State) : (s.clearCf).err = s.err := rfl
@[simp] theorem State.clearCf_mem (s : State) : (s.clearCf).mem = s.mem := rfl
@[simp] theorem State.clearCf_fb (s : State) : (s.clearCf).fb = s.fb := rfl
@[simp] theorem State.clearCf_randDraws (s : State) : (s.clearCf).randDraws = s.randDraws := rfl
@[simp] theorem State.clearCf_keyQueries (s : State) : (s.clearCf).keyQueries = s.keyQueries := rfl
@[simp] theorem State.clearCf_keyEvents (s : State) : (s.clearCf).keyEvents = s.keyEvents := rfl
@[simp] theorem State.clearCf_timerDraws (s : State) : (s.clearCf).timerDraws = s.timerDraws := rfl
@[simp] theorem State.clearCf_present (s : State) : (s.clearCf).present = s.present := rfl
@[simp] theorem State.clearCf_agenda (s : State) : (s.clearCf).agenda = s.agenda := rfl
@[simp] theorem State.clearCf_getV (s : State) (q : Reg) : (s.clearCf).getV q = s.getV q := rfl
@[simp] theorem State.clearCf_pixel (s : State) (q : Pixel) : (s.clearCf).pixel q = s.pixel q := rfl

/-! ### `countRand` -/

@[simp] theorem State.countRand_v (s : State) : (s.countRand).v = s.v := rfl
@[simp] theorem State.countRand_i (s : State) : (s.countRand).i = s.i := rfl
@[simp] theorem State.countRand_pc (s : State) : (s.countRand).pc = s.pc := rfl
@[simp] theorem State.countRand_stack (s : State) : (s.countRand).stack = s.stack := rfl
@[simp] theorem State.countRand_sp (s : State) : (s.countRand).sp = s.sp := rfl
@[simp] theorem State.countRand_dt (s : State) : (s.countRand).dt = s.dt := rfl
@[simp] theorem State.countRand_st (s : State) : (s.countRand).st = s.st := rfl
@[simp] theorem State.countRand_ir (s : State) : (s.countRand).ir = s.ir := rfl
@[simp] theorem State.countRand_cf (s : State) : (s.countRand).cf = s.cf := rfl
@[simp] theorem State.countRand_run (s : State) : (s.countRand).run = s.run := rfl
@[simp] theorem State.countRand_err (s : State) : (s.countRand).err = s.err := rfl
@[simp] theorem State.countRand_mem (s : State) : (s.countRand).mem = s.mem := rfl
@[simp] theorem State.countRand_fb (s : State) : (s.countRand).fb = s.fb := rfl
@[simp] theorem State.countRand_randDraws (s : State) : (s.countRand).randDraws = s.randDraws + 1 := rfl
@[simp] theorem State.countRand_keyQueries (s : State) : (s.countRand).keyQueries = s.keyQueries := rfl
@[simp] theorem State.countRand_keyEvents (s : State) : (s.countRand).keyEvents = s.keyEvents := rfl
@[simp] theorem State.countRand_timerDraws (s : State) : (s.countRand).timerDraws = s.timerDraws := rfl
@[simp] theorem State.countRand_present (s : State) : (s.countRand).present = s.present := rfl
@[simp] theorem State.countRand_agenda (s : State) : (s.countRand).agenda = s.agenda := rfl
@[simp] theorem State.countRand_getV (s : State) (q : Reg) : (s.countRand).getV q = s.getV q := rfl
@[simp] theorem State.countRand_pixel (s : State) (q : Pixel) : (s.countRand).pixel q = s.pixel q := rfl

/-! ### `countKeyQuery` -/

@[simp] theorem State.countKeyQuery_v (s : State) : (s.countKeyQuery).v = s.v := rfl
@[simp] theorem State.countKeyQuery_i (s : State) : (s.countKeyQuery).i = s.i := rfl
@[simp] theorem State.countKeyQuery_pc (s : State) : (s.countKeyQuery).pc = s.pc := rfl
@[simp] theorem State.countKeyQuery_stack (s : State) : (s.countKeyQuery).stack = s.stack := rfl
@[simp] theorem State.countKeyQuery_sp (s : State) : (s.countKeyQuery).sp = s.sp := rfl
@[simp] theorem State.countKeyQuery_dt (s : State) : (s.countKeyQuery).dt = s.dt := rfl
@[simp] theorem State.countKeyQuery_st (s : State) : (s.countKeyQuery).st = s.st := rfl
@[simp] theorem State.countKeyQuery_ir (s : State) : (s.countKeyQuery).ir = s.ir := rfl
@[simp] theorem State.countKeyQuery_cf (s : State) : (s.countKeyQuery).cf = s.cf := rfl
@[simp] theorem State.countKeyQuery_run (s : State) : (s.countKeyQuery).run = s.run := rfl
@[simp] theorem State.countKeyQuery_err (s : State) : (s.countKeyQuery).err = s.err := rfl
@[simp] theorem State.countKeyQuery_mem (s : State) : (s.countKeyQuery).mem = s.mem := rfl
@[simp] theorem State.countKeyQuery_fb (s : State) : (s.countKeyQuery).fb = s.fb := rfl
@[simp] theorem State.countKeyQuery_randDraws (s : State) : (s.countKeyQuery).randDraws = s.randDraws := rfl
@[simp] theorem State.countKeyQuery_keyQueries (s : State) : (s.countKeyQuery).keyQueries = s.keyQueries + 1 := rfl
@[simp] theorem State.countKeyQuery_keyEvents (s : State) : (s.countKeyQuery).keyEvents = s.keyEvents := rfl
@[simp] theorem State.countKeyQuery_timerDraws (s : State) : (s.countKeyQuery).timerDraws = s.timerDraws := rfl
@[simp] theorem State.countKeyQuery_present (s : State) : (s.countKeyQuery).present = s.present := rfl
@[simp] theorem State.countKeyQuery_agenda (s : State) : (s.countKeyQuery).agenda = s.agenda := rfl
@[simp] theorem State.countKeyQuery_getV (s : State) (q : Reg) : (s.countKeyQuery).getV q = s.getV q := rfl
@[simp] theorem State.countKeyQuery_pixel (s : State) (q : Pixel) : (s.countKeyQuery).pixel q = s.pixel q := rfl

/-! ### `countKeyEvent` -/

@[simp] theorem State.countKeyEvent_v (s : State) : (s.countKeyEvent).v = s.v := rfl
@[simp] theorem State.countKeyEvent_i (s : State) : (s.countKeyEvent).i = s.i := rfl
@[simp] theorem State.countKeyEvent_pc (s : State) : (s.countKeyEvent).pc = s.pc := rfl
@[simp] theorem State.countKeyEvent_stack (s : State) : (s.countKeyEvent).stack = s.stack := rfl
@[simp] theorem State.countKeyEvent_sp (s : State) : (s.countKeyEvent).sp = s.sp := rfl
@[simp] theorem State.countKeyEvent_dt (s : State) : (s.countKeyEvent).dt = s.dt := rfl
@[simp] theorem State.countKeyEvent_st (s : State) : (s.countKeyEvent).st = s.st := rfl
@[simp] theorem State.countKeyEvent_ir (s : State) : (s.countKeyEvent).ir = s.ir := rfl
@[simp] theorem State.countKeyEvent_cf (s : State) : (s.countKeyEvent).cf = s.cf := rfl
@[simp] theorem State.countKeyEvent_run (s : State) : (s.countKeyEvent).run = s.run := rfl
@[simp] theorem State.countKeyEvent_err (s : State) : (s.countKeyEvent).err = s.err := rfl
@[simp] theorem State.countKeyEvent_mem (s : State) : (s.countKeyEvent).mem = s.mem := rfl
@[simp] theorem State.countKeyEvent_fb (s : State) : (s.countKeyEvent).fb = s.fb := rfl
@[simp] theorem State.countKeyEvent_randDraws (s : State) : (s.countKeyEvent).randDraws = s.randDraws := rfl
@[simp] theorem State.countKeyEvent_keyQueries (s : State) : (s.countKeyEvent).keyQueries = s.keyQueries := rfl
@[simp] theorem State.countKeyEvent_keyEvents (s : State) : (s.countKeyEvent).keyEvents = s.keyEvents + 1 := rfl
@[simp] theorem State.countKeyEvent_timerDraws (s : State) : (s.countKeyEvent).timerDraws = s.timerDraws := rfl
@[simp] theorem State.countKeyEvent_present (s : State) : (s.countKeyEvent).present = s.present := rfl
@[simp] theorem State.countKeyEvent_agenda (s : State) : (s.countKeyEvent).agenda = s.agenda := rfl
@[simp] theorem State.countKeyEvent_getV (s : State) (q : Reg) : (s.countKeyEvent).getV q = s.getV q := rfl
@[simp] theorem State.countKeyEvent_pixel (s : State) (q : Pixel) : (s.countKeyEvent).pixel q = s.pixel q := rfl

/-! ### `setVF` -/

@[simp] theorem State.setVF_v (s : State) (f : Bool) : (s.setVF f).v = s.v.set regF (flagByte f) := rfl
@[simp] theorem State.setVF_i (s : State) (f : Bool) : (s.setVF f).i = s.i := rfl
@[simp] theorem State.setVF_pc (s : State) (f : Bool) : (s.setVF f).pc = s.pc := rfl
@[simp] theorem State.setVF_stack (s : State) (f : Bool) : (s.setVF f).stack = s.stack := rfl
@[simp] theorem State.setVF_sp (s : State) (f : Bool) : (s.setVF f).sp = s.sp := rfl
@[simp] theorem State.setVF_dt (s : State) (f : Bool) : (s.setVF f).dt = s.dt := rfl
@[simp] theorem State.setVF_st (s : State) (f : Bool) : (s.setVF f).st = s.st := rfl
@[simp] theorem State.setVF_ir (s : State) (f : Bool) : (s.setVF f).ir = s.ir := rfl
@[simp] theorem State.setVF_cf (s : State) (f : Bool) : (s.setVF f).cf = s.cf := rfl
@[simp] theorem State.setVF_run (s : State) (f : Bool) : (s.setVF f).run = s.run := rfl
@[simp] theorem State.setVF_err (s : State) (f : Bool) : (s.setVF f).err = s.err := rfl
@[simp] theorem State.setVF_mem (s : State) (f : Bool) : (s.setVF f).mem = s.mem := rfl
@[simp] theorem State.setVF_fb (s : State) (f : Bool) : (s.setVF f).fb = s.fb := rfl
@[simp] theorem State.setVF_randDraws (s : State) (f : Bool) : (s.setVF f).randDraws = s.randDraws := rfl
@[simp] theorem State.setVF_keyQueries (s : State) (f : Bool) : (s.setVF f).keyQueries = s.keyQueries := rfl
@[simp] theorem State.setVF_keyEvents (s : State) (f : Bool) : (s.setVF f).keyEvents = s.keyEvents := rfl
@[simp] theorem State.setVF_timerDraws (s : State) (f : Bool) : (s.setVF f).timerDraws = s.timerDraws := rfl
@[simp] theorem State.setVF_present (s : State) (f : Bool) : (s.setVF f).present = s.present := rfl
@[simp] theorem State.setVF_agenda (s : State) (f : Bool) : (s.setVF f).agenda = s.agenda := rfl
@[simp] theorem State.setVF_pixel (s : State) (f : Bool) (q : Pixel) : (s.setVF f).pixel q = s.pixel q := rfl

/-! ### `setResult` -/

@[simp] theorem State.setResult_v (s : State) (x : Reg) (b : Byte) (f : Bool) : (s.setResult x b f).v = (s.v.set x b).set regF (flagByte f) := rfl
@[simp] theorem State.setResult_i (s : State) (x : Reg) (b : Byte) (f : Bool) : (s.setResult x b f).i = s.i := rfl
@[simp] theorem State.setResult_pc (s : State) (x : Reg) (b : Byte) (f : Bool) : (s.setResult x b f).pc = s.pc := rfl
@[simp] theorem State.setResult_stack (s : State) (x : Reg) (b : Byte) (f : Bool) : (s.setResult x b f).stack = s.stack := rfl
@[simp] theorem State.setResult_sp (s : State) (x : Reg) (b : Byte) (f : Bool) : (s.setResult x b f).sp = s.sp := rfl
@[simp] theorem State.setResult_dt (s : State) (x : Reg) (b : Byte) (f : Bool) : (s.setResult x b f).dt = s.dt := rfl
@[simp] theorem State.setResult_st (s : State) (x : Reg) (b : Byte) (f : Bool) : (s.setResult x b f).st = s.st := rfl
@[simp] theorem State.setResult_ir (s : State) (x : Reg) (b : Byte) (f : Bool) : (s.setResult x b f).ir = s.ir := rfl
@[simp] theorem State.setResult_cf (s : State) (x : Reg) (b : Byte) (f : Bool) : (s.setResult x b f).cf = s.cf := rfl
@[simp] theorem State.setResult_run (s : State) (x : Reg) (b : Byte) (f : Bool) : (s.setResult x b f).run = s.run := rfl
@[simp] theorem State.setResult_err (s : State) (x : Reg) (b : Byte) (f : Bool) : (s.setResult x b f).err = s.err := rfl
@[simp] theorem State.setResult_mem (s : State) (x : Reg) (b : Byte) (f : Bool) : (s.setResult x b f).mem = s.mem := rfl
@[simp] theorem State.setResult_fb (s : State) (x : Reg) (b : Byte) (f : Bool) : (s.setResult x b f).fb = s.fb := rfl
@[simp] theorem State.setResult_randDraws (s : State) (x : Reg) (b : Byte) (f : Bool) : (s.setResult x b f).randDraws = s.randDraws := rfl
@[simp] theorem State.setResult_keyQueries (s : State) (x : Reg) (b : Byte) (f : Bool) : (s.setResult x b f).keyQueries = s.keyQueries := rfl
@[simp] theorem State.setResult_keyEvents (s : State) (x : Reg) (b : Byte) (f : Bool) : (s.setResult x b f).keyEvents = s.keyEvents := rfl
@[simp] theorem State.setResult_timerDraws (s : State) (x : Reg) (b : Byte) (f : Bool) : (s.setResult x b f).timerDraws = s.timerDraws := rfl
@[simp] theorem State.setResult_present (s : State) (x : Reg) (b : Byte) (f : Bool) : (s.setResult x b f).present = s.present := rfl
@[simp] theorem State.setResult_agenda (s : State) (x : Reg) (b : Byte) (f : Bool) : (s.setResult x b f).agenda = s.agenda := rfl
@[simp] theorem State.setResult_pixel (s : State) (x : Reg) (b : Byte) (f : Bool) (q : Pixel) : (s.setResult x b f).pixel q = s.pixel q := rfl

/-! ### `startTick` -/

@[simp] theorem State.startTick_v (s : State) (op : Word) : (s.startTick op).v = s.v := rfl
@[simp] theorem State.startTick_i (s : State) (op : Word) : (s.startTick op).i = s.i := rfl
@[simp] theorem State.startTick_pc (s : State) (op : Word) : (s.startTick op).pc = s.pc := rfl
@[simp] theorem State.startTick_stack (s : State) (op : Word) : (s.startTick op).stack = s.stack := rfl
@[simp] theorem State.startTick_sp (s : State) (op : Word) : (s.startTick op).sp = s.sp := rfl
@[simp] theorem State.startTick_dt (s : State) (op : Word) : (s.startTick op).dt = s.dt := rfl
@[simp] theorem State.startTick_st (s : State) (op : Word) : (s.startTick op).st = s.st := rfl
@[simp] theorem State.startTick_ir (s : State) (op : Word) : (s.startTick op).ir = op := rfl
@[simp] theorem State.startTick_cf (s : State) (op : Word) : (s.startTick op).cf = s.cf := rfl
@[simp] theorem State.startTick_run (s : State) (op : Word) : (s.startTick op).run = .running := rfl
@[simp] theorem State.startTick_err (s : State) (op : Word) : (s.startTick op).err = s.err := rfl
@[simp] theorem State.startTick_mem (s : State) (op : Word) : (s.startTick op).mem = s.mem := rfl
@[simp] theorem State.startTick_fb (s : State) (op : Word) : (s.startTick op).fb = s.fb := rfl
@[simp] theorem State.startTick_randDraws (s : State) (op : Word) : (s.startTick op).randDraws = s.randDraws := rfl
@[simp] theorem State.startTick_keyQueries (s : State) (op : Word) : (s.startTick op).keyQueries = s.keyQueries := rfl
@[simp] theorem State.startTick_keyEvents (s : State) (op : Word) : (s.startTick op).keyEvents = s.keyEvents := rfl
@[simp] theorem State.startTick_timerDraws (s : State) (op : Word) : (s.startTick op).timerDraws = s.timerDraws := rfl
@[simp] theorem State.startTick_present (s : State) (op : Word) : (s.startTick op).present = s.present := rfl
@[simp] theorem State.startTick_agenda (s : State) (op : Word) : (s.startTick op).agenda = s.agenda := rfl
@[simp] theorem State.startTick_getV (s : State) (op : Word) (q : Reg) : (s.startTick op).getV q = s.getV q := rfl
@[simp] theorem State.startTick_pixel (s : State) (op : Word) (q : Pixel) : (s.startTick op).pixel q = s.pixel q := rfl

/-! ### `loadImage` -/

@[simp] theorem State.loadImage_v (s : State) (image : List Byte) : (s.loadImage image).v = Vector.replicate 16 0#8 := rfl
@[simp] theorem State.loadImage_i (s : State) (image : List Byte) : (s.loadImage image).i = 0#16 := rfl
@[simp] theorem State.loadImage_pc (s : State) (image : List Byte) : (s.loadImage image).pc = 0x200#16 := rfl
@[simp] theorem State.loadImage_stack (s : State) (image : List Byte) : (s.loadImage image).stack = Vector.replicate 16 0#16 := rfl
@[simp] theorem State.loadImage_sp (s : State) (image : List Byte) : (s.loadImage image).sp = 0 := rfl
@[simp] theorem State.loadImage_dt (s : State) (image : List Byte) : (s.loadImage image).dt = 0#8 := rfl
@[simp] theorem State.loadImage_st (s : State) (image : List Byte) : (s.loadImage image).st = 0#8 := rfl
@[simp] theorem State.loadImage_ir (s : State) (image : List Byte) : (s.loadImage image).ir = 0#16 := rfl
@[simp] theorem State.loadImage_cf (s : State) (image : List Byte) : (s.loadImage image).cf = false := rfl
@[simp] theorem State.loadImage_run (s : State) (image : List Byte) : (s.loadImage image).run = .running := rfl
@[simp] theorem State.loadImage_err (s : State) (image : List Byte) : (s.loadImage image).err = .noError := rfl
@[simp] theorem State.loadImage_mem (s : State) (image : List Byte) : (s.loadImage image).mem = Mem.writeBytes [] 0x200 image := rfl
@[simp] theorem State.loadImage_fb (s : State) (image : List Byte) : (s.loadImage image).fb = s.fb := rfl
@[simp] theorem State.loadImage_randDraws (s : State) (image : List Byte) : (s.loadImage image).randDraws = s.randDraws := rfl
@[simp] theorem State.loadImage_keyQueries (s : State) (image : List Byte) : (s.loadImage image).keyQueries = s.keyQueries := rfl
@[simp] theorem State.loadImage_keyEvents (s : State) (image : List Byte) : (s.loadImage image).keyEvents = s.keyEvents := rfl
@[simp] theorem State.loadImage_timerDraws (s : State) (image : List Byte) : (s.loadImage image).timerDraws = s.timerDraws := rfl
@[simp] theorem State.loadImage_present (s : State) (image : List Byte) : (s.loadImage image).present = true := rfl
@[simp] theorem State.loadImage_agenda (s : State) (image : List Byte) : (s.loadImage image).agenda = s.agenda := rfl
@[simp] theorem State.loadImage_pixel (s : State) (image : List Byte) (q : Pixel) : (s.loadImage image).pixel q = s.pixel q := rfl

/-! ### `placeWord` -/

@[simp] theorem State.placeWord_v (s : State) (op : Word) : (s.placeWord op).v = s.v := rfl
@[simp] theorem State.placeWord_i (s : State) (op : Word) : (s.placeWord op).i = s.i := rfl
@[simp] theorem State.placeWord_pc (s : State) (op : Word) : (s.placeWord op).pc = s.pc := rfl
@[simp] theorem State.placeWord_stack (s : State) (op : Word) : (s.placeWord op).stack = s.stack := rfl
@[simp] theorem State.placeWord_sp (s : State) (op : Word) : (s.placeWord op).sp = s.sp := rfl
@[simp] theorem State.placeWord_dt (s : State) (op : Word) : (s.placeWord op).dt = s.dt := rfl
@[simp] theorem State.placeWord_st (s : State) (op : Word) : (s.placeWord op).st = s.st := rfl
@[simp] theorem State.placeWord_ir (s : State) (op : Word) : (s.placeWord op).ir = s.ir := rfl
@[simp] theorem State.placeWord_cf (s : State) (op : Word) : (s.placeWord op).cf = s.cf := rfl
@[simp] theorem State.placeWord_run (s : State) (op : Word) : (s.placeWord op).run = s.run := rfl
@[simp] theorem State.placeWord_err (s : State) (op : Word) : (s.placeWord op).err = s.err := rfl
@[simp] theorem State.placeWord_mem (s : State) (op : Word) : (s.placeWord op).mem = s.mem.writeBytes s.pc.toNat [highByte op, lowByte op] := rfl
@[simp] theorem State.placeWord_fb (s : State) (op : Word) : (s.placeWord op).fb = s.fb := rfl
@[simp] theorem State.placeWord_randDraws (s : State) (op : Word) : (s.placeWord op).randDraws = s.randDraws := rfl
@[simp] theorem State.placeWord_keyQueries (s : State) (op : Word) : (s.placeWord op).keyQueries = s.keyQueries := rfl
@[simp] theorem State.placeWord_keyEvents (s : State) (op : Word) : (s.placeWord op).keyEvents = s.keyEvents := rfl
@[simp] theorem State.placeWord_timerDraws (s : State) (op : Word) : (s.placeWord op).timerDraws = s.timerDraws := rfl
@[simp] theorem State.placeWord_present (s : State) (op : Word) : (s.placeWord op).present = s.present := rfl
@[simp] theorem State.placeWord_agenda (s : State) (op : Word) : (s.placeWord op).agenda = s.agenda := rfl
@[simp] theorem State.placeWord_getV (s : State) (op : Word) (q : Reg) : (s.placeWord op).getV q = s.getV q := rfl
@[simp] theorem State.placeWord_pixel (s : State) (op : Word) (q : Pixel) : (s.placeWord op).pixel q = s.pixel q := rfl

/-! ### `togglePixels` and `drawSprite` -/

/-- The toggles of a sprite change nothing but the frame buffer and `CF` (R142, R143). -/
theorem State.togglePixels_frame (s : State) (ps : List Pixel) :
    s.togglePixels ps = { s with fb := (s.togglePixels ps).fb, cf := (s.togglePixels ps).cf } := by
  induction ps generalizing s with
  | nil => rfl
  | cons p rest ih => rw [State.togglePixels, ih]; rfl

/-- Drawing changes nothing but the frame buffer and `CF` (R142, R143). -/
theorem State.drawSprite_frame (s : State) (ps : List Pixel) :
    s.drawSprite ps = { s with fb := (s.drawSprite ps).fb, cf := (s.drawSprite ps).cf } :=
  State.togglePixels_frame s.clearCf ps

@[simp] theorem State.togglePixels_v (s : State) (ps : List Pixel) : (s.togglePixels ps).v = s.v := by rw [State.togglePixels_frame]
@[simp] theorem State.togglePixels_i (s : State) (ps : List Pixel) : (s.togglePixels ps).i = s.i := by rw [State.togglePixels_frame]
@[simp] theorem State.togglePixels_pc (s : State) (ps : List Pixel) : (s.togglePixels ps).pc = s.pc := by rw [State.togglePixels_frame]
@[simp] theorem State.togglePixels_stack (s : State) (ps : List Pixel) : (s.togglePixels ps).stack = s.stack := by rw [State.togglePixels_frame]
@[simp] theorem State.togglePixels_sp (s : State) (ps : List Pixel) : (s.togglePixels ps).sp = s.sp := by rw [State.togglePixels_frame]
@[simp] theorem State.togglePixels_dt (s : State) (ps : List Pixel) : (s.togglePixels ps).dt = s.dt := by rw [State.togglePixels_frame]
@[simp] theorem State.togglePixels_st (s : State) (ps : List Pixel) : (s.togglePixels ps).st = s.st := by rw [State.togglePixels_frame]
@[simp] theorem State.togglePixels_ir (s : State) (ps : List Pixel) : (s.togglePixels ps).ir = s.ir := by rw [State.togglePixels_frame]
@[simp] theorem State.togglePixels_run (s : State) (ps : List Pixel) : (s.togglePixels ps).run = s.run := by rw [State.togglePixels_frame]
@[simp] theorem State.togglePixels_err (s : State) (ps : List Pixel) : (s.togglePixels ps).err = s.err := by rw [State.togglePixels_frame]
@[simp] theorem State.togglePixels_mem (s : State) (ps : List Pixel) : (s.togglePixels ps).mem = s.mem := by rw [State.togglePixels_frame]
@[simp] theorem State.togglePixels_randDraws (s : State) (ps : List Pixel) : (s.togglePixels ps).randDraws = s.randDraws := by rw [State.togglePixels_frame]
@[simp] theorem State.togglePixels_keyQueries (s : State) (ps : List Pixel) : (s.togglePixels ps).keyQueries = s.keyQueries := by rw [State.togglePixels_frame]
@[simp] theorem State.togglePixels_keyEvents (s : State) (ps : List Pixel) : (s.togglePixels ps).keyEvents = s.keyEvents := by rw [State.togglePixels_frame]
@[simp] theorem State.togglePixels_timerDraws (s : State) (ps : List Pixel) : (s.togglePixels ps).timerDraws = s.timerDraws := by rw [State.togglePixels_frame]
@[simp] theorem State.togglePixels_present (s : State) (ps : List Pixel) : (s.togglePixels ps).present = s.present := by rw [State.togglePixels_frame]
@[simp] theorem State.togglePixels_agenda (s : State) (ps : List Pixel) : (s.togglePixels ps).agenda = s.agenda := by rw [State.togglePixels_frame]
@[simp] theorem State.togglePixels_getV (s : State) (ps : List Pixel) (r : Reg) : (s.togglePixels ps).getV r = s.getV r := by rw [State.togglePixels_frame]; rfl

@[simp] theorem State.drawSprite_v (s : State) (ps : List Pixel) : (s.drawSprite ps).v = s.v := by rw [State.drawSprite_frame]
@[simp] theorem State.drawSprite_i (s : State) (ps : List Pixel) : (s.drawSprite ps).i = s.i := by rw [State.drawSprite_frame]
@[simp] theorem State.drawSprite_pc (s : State) (ps : List Pixel) : (s.drawSprite ps).pc = s.pc := by rw [State.drawSprite_frame]
@[simp] theorem State.drawSprite_stack (s : State) (ps : List Pixel) : (s.drawSprite ps).stack = s.stack := by rw [State.drawSprite_frame]
@[simp] theorem State.drawSprite_sp (s : State) (ps : List Pixel) : (s.drawSprite ps).sp = s.sp := by rw [State.drawSprite_frame]
@[simp] theorem State.drawSprite_dt (s : State) (ps : List Pixel) : (s.drawSprite ps).dt = s.dt := by rw [State.drawSprite_frame]
@[simp] theorem State.drawSprite_st (s : State) (ps : List Pixel) : (s.drawSprite ps).st = s.st := by rw [State.drawSprite_frame]
@[simp] theorem State.drawSprite_ir (s : State) (ps : List Pixel) : (s.drawSprite ps).ir = s.ir := by rw [State.drawSprite_frame]
@[simp] theorem State.drawSprite_run (s : State) (ps : List Pixel) : (s.drawSprite ps).run = s.run := by rw [State.drawSprite_frame]
@[simp] theorem State.drawSprite_err (s : State) (ps : List Pixel) : (s.drawSprite ps).err = s.err := by rw [State.drawSprite_frame]
@[simp] theorem State.drawSprite_mem (s : State) (ps : List Pixel) : (s.drawSprite ps).mem = s.mem := by rw [State.drawSprite_frame]
@[simp] theorem State.drawSprite_randDraws (s : State) (ps : List Pixel) : (s.drawSprite ps).randDraws = s.randDraws := by rw [State.drawSprite_frame]
@[simp] theorem State.drawSprite_keyQueries (s : State) (ps : List Pixel) : (s.drawSprite ps).keyQueries = s.keyQueries := by rw [State.drawSprite_frame]
@[simp] theorem State.drawSprite_keyEvents (s : State) (ps : List Pixel) : (s.drawSprite ps).keyEvents = s.keyEvents := by rw [State.drawSprite_frame]
@[simp] theorem State.drawSprite_timerDraws (s : State) (ps : List Pixel) : (s.drawSprite ps).timerDraws = s.timerDraws := by rw [State.drawSprite_frame]
@[simp] theorem State.drawSprite_present (s : State) (ps : List Pixel) : (s.drawSprite ps).present = s.present := by rw [State.drawSprite_frame]
@[simp] theorem State.drawSprite_agenda (s : State) (ps : List Pixel) : (s.drawSprite ps).agenda = s.agenda := by rw [State.drawSprite_frame]
@[simp] theorem State.drawSprite_getV (s : State) (ps : List Pixel) (r : Reg) : (s.drawSprite ps).getV r = s.getV r := by rw [State.drawSprite_frame]; rfl

/-! ### `timerTick` -/

/-- A `TimerTick` changes nothing but the timers (R226). -/
theorem State.timerTick_frame (s : State) :
    s.timerTick = { s with dt := s.timerTick.dt, st := s.timerTick.st } := by
  cases h : s.timersRun <;> simp [State.timerTick, h]

@[simp] theorem State.timerTick_v (s : State) : s.timerTick.v = s.v := by rw [State.timerTick_frame]
@[simp] theorem State.timerTick_i (s : State) : s.timerTick.i = s.i := by rw [State.timerTick_frame]
@[simp] theorem State.timerTick_pc (s : State) : s.timerTick.pc = s.pc := by rw [State.timerTick_frame]
@[simp] theorem State.timerTick_stack (s : State) : s.timerTick.stack = s.stack := by rw [State.timerTick_frame]
@[simp] theorem State.timerTick_sp (s : State) : s.timerTick.sp = s.sp := by rw [State.timerTick_frame]
@[simp] theorem State.timerTick_ir (s : State) : s.timerTick.ir = s.ir := by rw [State.timerTick_frame]
@[simp] theorem State.timerTick_cf (s : State) : s.timerTick.cf = s.cf := by rw [State.timerTick_frame]
@[simp] theorem State.timerTick_run (s : State) : s.timerTick.run = s.run := by rw [State.timerTick_frame]
@[simp] theorem State.timerTick_err (s : State) : s.timerTick.err = s.err := by rw [State.timerTick_frame]
@[simp] theorem State.timerTick_mem (s : State) : s.timerTick.mem = s.mem := by rw [State.timerTick_frame]
@[simp] theorem State.timerTick_fb (s : State) : s.timerTick.fb = s.fb := by rw [State.timerTick_frame]
@[simp] theorem State.timerTick_randDraws (s : State) : s.timerTick.randDraws = s.randDraws := by rw [State.timerTick_frame]
@[simp] theorem State.timerTick_keyQueries (s : State) : s.timerTick.keyQueries = s.keyQueries := by rw [State.timerTick_frame]
@[simp] theorem State.timerTick_keyEvents (s : State) : s.timerTick.keyEvents = s.keyEvents := by rw [State.timerTick_frame]
@[simp] theorem State.timerTick_timerDraws (s : State) : s.timerTick.timerDraws = s.timerDraws := by rw [State.timerTick_frame]
@[simp] theorem State.timerTick_present (s : State) : s.timerTick.present = s.present := by rw [State.timerTick_frame]
@[simp] theorem State.timerTick_agenda (s : State) : s.timerTick.agenda = s.agenda := by rw [State.timerTick_frame]
@[simp] theorem State.timerTick_getV (s : State) (r : Reg) : s.timerTick.getV r = s.getV r := by rw [State.timerTick_frame]; rfl
@[simp] theorem State.timerTick_pixel (s : State) (q : Pixel) : s.timerTick.pixel q = s.pixel q := by rw [State.timerTick_frame]; rfl

/-! ### `timerEvents` -/

/-- The timer driver changes nothing but the timers and its own counter (R226). -/
theorem State.timerEvents_frame (s : State) :
    s.timerEvents = { s with dt := s.timerEvents.dt, st := s.timerEvents.st, timerDraws := s.timerEvents.timerDraws } := by
  cases h : s.timersRun <;> simp [State.timerEvents, State.timerTicks, h]

@[simp] theorem State.timerEvents_v (s : State) : s.timerEvents.v = s.v := by rw [State.timerEvents_frame]
@[simp] theorem State.timerEvents_i (s : State) : s.timerEvents.i = s.i := by rw [State.timerEvents_frame]
@[simp] theorem State.timerEvents_pc (s : State) : s.timerEvents.pc = s.pc := by rw [State.timerEvents_frame]
@[simp] theorem State.timerEvents_stack (s : State) : s.timerEvents.stack = s.stack := by rw [State.timerEvents_frame]
@[simp] theorem State.timerEvents_sp (s : State) : s.timerEvents.sp = s.sp := by rw [State.timerEvents_frame]
@[simp] theorem State.timerEvents_ir (s : State) : s.timerEvents.ir = s.ir := by rw [State.timerEvents_frame]
@[simp] theorem State.timerEvents_cf (s : State) : s.timerEvents.cf = s.cf := by rw [State.timerEvents_frame]
@[simp] theorem State.timerEvents_run (s : State) : s.timerEvents.run = s.run := by rw [State.timerEvents_frame]
@[simp] theorem State.timerEvents_err (s : State) : s.timerEvents.err = s.err := by rw [State.timerEvents_frame]
@[simp] theorem State.timerEvents_mem (s : State) : s.timerEvents.mem = s.mem := by rw [State.timerEvents_frame]
@[simp] theorem State.timerEvents_fb (s : State) : s.timerEvents.fb = s.fb := by rw [State.timerEvents_frame]
@[simp] theorem State.timerEvents_randDraws (s : State) : s.timerEvents.randDraws = s.randDraws := by rw [State.timerEvents_frame]
@[simp] theorem State.timerEvents_keyQueries (s : State) : s.timerEvents.keyQueries = s.keyQueries := by rw [State.timerEvents_frame]
@[simp] theorem State.timerEvents_keyEvents (s : State) : s.timerEvents.keyEvents = s.keyEvents := by rw [State.timerEvents_frame]
@[simp] theorem State.timerEvents_present (s : State) : s.timerEvents.present = s.present := by rw [State.timerEvents_frame]
@[simp] theorem State.timerEvents_agenda (s : State) : s.timerEvents.agenda = s.agenda := by rw [State.timerEvents_frame]
@[simp] theorem State.timerEvents_getV (s : State) (r : Reg) : s.timerEvents.getV r = s.getV r := by rw [State.timerEvents_frame]; rfl
@[simp] theorem State.timerEvents_pixel (s : State) (q : Pixel) : s.timerEvents.pixel q = s.pixel q := by rw [State.timerEvents_frame]; rfl


end Sys2Proof.Machine
end

