-- ==== Sys2Proof/Laws/Registers.lean ====
section
/-! SUPPORT. What register writes do, seen through `getV` (10_state.md R10 to R14), and the stack's accessors (R19, R20). -/

namespace Sys2Proof.Machine

/-- A register write changes the one register it names (R10). -/
theorem State.getV_setV (s : State) (x r : Reg) (b : Byte) :
    (s.setV x b).getV r = if r = x then b else s.getV r := by
  by_cases h : r = x
  · subst h; simp [State.getV]
  · have h' : x.val ≠ r.val := fun e => h (Fin.ext e.symm)
    simp [State.getV, h, Vector.getElem_set_ne _ _ h']

@[simp] theorem State.getV_setV_self (s : State) (x : Reg) (b : Byte) : (s.setV x b).getV x = b := by
  simp [State.getV_setV]

theorem State.getV_setV_ne (s : State) {x r : Reg} (b : Byte) (h : r ≠ x) : (s.setV x b).getV r = s.getV r := by
  simp [State.getV_setV, h]

/-- The flag is what `VF` holds; the other registers keep their value (R13). -/
theorem State.getV_setVF (s : State) (f : Bool) (r : Reg) :
    (s.setVF f).getV r = if r = regF then flagByte f else s.getV r :=
  State.getV_setV s regF r (flagByte f)

/-- Result first, flag second: the flag wins in `VF` (R14). -/
theorem State.getV_setResult (s : State) (x : Reg) (b : Byte) (f : Bool) (r : Reg) :
    (s.setResult x b f).getV r = if r = regF then flagByte f else if r = x then b else s.getV r := by
  rw [State.setResult, State.getV_setVF, State.getV_setV]

theorem loadFrom_getElem (v : Vector Byte 16) (k : Nat) (bs : List Byte) (j : Nat) (hj : j < 16) :
    (loadFrom v k bs)[j] = if h : k ≤ j ∧ j < k + bs.length then bs[j - k] else v[j] := by
  induction bs generalizing v k with
  | nil => rw [loadFrom, dif_neg (by simp only [List.length_nil]; omega)]
  | cons b rest ih =>
    rw [loadFrom, ih]
    by_cases h1 : k = j
    · subst h1
      rw [dif_neg (by omega), dif_pos (by simp)]
      simp
    · by_cases h2 : k + 1 ≤ j ∧ j < k + 1 + rest.length
      · rw [dif_pos h2, dif_pos (by simp; omega)]
        obtain ⟨d, rfl⟩ : ∃ d, j = k + (d + 1) := ⟨j - k - 1, by omega⟩
        simp [show k + (d + 1) - (k + 1) = d by omega]
      · rw [dif_neg h2, dif_neg (by simp; omega)]
        simp [h1]

/-- Loading a list of bytes writes the registers below its length and no other (R165). -/
theorem State.getV_loadRegs (s : State) (bs : List Byte) (r : Reg) :
    (s.loadRegs bs).getV r = if h : r.val < bs.length then bs[r.val] else s.getV r := by
  simp [State.getV, loadFrom_getElem]

@[simp] theorem State.firstRegs_length (s : State) (n : Nat) : (s.firstRegs n).length = min n 16 := by
  simp [State.firstRegs]

/-- The list of the first registers holds them in order (R164). -/
theorem State.firstRegs_getElem (s : State) (n j : Nat) (h : j < (s.firstRegs n).length) (h16 : j < 16) :
    (s.firstRegs n)[j] = s.getV ⟨j, h16⟩ := by
  simp [State.firstRegs, State.getV]

/-- A push puts the word at index `SP` and leaves the other entries alone (R20). -/
theorem State.push_stack_getElem (s : State) (w : Word) (j : Nat) (hj : j < 16) :
    (s.push w).stack[j] = if s.sp.val = j then w else s.stack[j] := by
  simp [Vector.getElem_setIfInBounds]

/-- What was pushed on a stack that is not full is on top (R20). -/
theorem State.stackTop_push (s : State) (w : Word) (h : s.sp.val < Config.stackDepth) : (s.push w).stackTop = w := by
  have h2 : min (s.sp.val + 1) Config.stackDepth - 1 = s.sp.val := by omega
  simp only [State.stackTop, State.push, Vector.getElem_setIfInBounds, h2, if_true]

/-- Two states with the same register file have the same registers, and conversely. -/
theorem State.v_eq_of_getV {s t : State} (h : ∀ r, s.getV r = t.getV r) : s.v = t.v := by
  apply Vector.ext
  intro j hj
  exact h ⟨j, hj⟩

end Sys2Proof.Machine
end

