-- ==== Sys2Proof/Laws/Display.lean ====
section
/-! SUPPORT. What the display operations do, seen pixel by pixel (60_exceptions.md R221, R222; 42_random_and_draw.md R141 to
R143). -/

namespace Sys2Proof.Machine

/-- After `DispClear()` no pixel is set (R222). -/
@[simp] theorem State.pixel_dispClear (s : State) (q : Pixel) : s.dispClear.pixel q = false := by
  simp [State.pixel]

/-- `DispToggle` inverts the one pixel it names (R222). -/
theorem State.pixel_togglePixel (s : State) (p q : Pixel) :
    (s.togglePixel p).pixel q = if q = p then !s.pixel p else s.pixel q := by
  obtain ⟨px, py⟩ := p
  obtain ⟨qx, qy⟩ := q
  by_cases hy : qy = py
  · subst hy
    by_cases hx : qx = px
    · subst hx; simp [State.pixel]
    · have hx' : px.val ≠ qx.val := fun e => hx (Fin.ext e.symm)
      simp [State.pixel, hx, hx'.symm]
  · have hy' : py.val ≠ qy.val := fun e => hy (Fin.ext e.symm)
    simp [State.pixel, hy, Vector.getElem_set_ne _ _ hy']

/-- A run of toggles of distinct pixels inverts exactly those pixels (R143). -/
theorem State.pixel_togglePixels (s : State) (ps : List Pixel) (h : ps.Nodup) (q : Pixel) :
    (s.togglePixels ps).pixel q = (s.pixel q ^^ decide (q ∈ ps)) := by
  induction ps generalizing s with
  | nil => simp [State.togglePixels]
  | cons p rest ih =>
    rw [List.nodup_cons] at h
    rw [State.togglePixels, ih _ h.2, State.pixel_togglePixel]
    by_cases hq : q = p
    · subst hq; simp [h.1]
    · simp [hq]

/-- A run of toggles of distinct pixels sets `CF` when one of them was set before (R142). -/
theorem State.cf_togglePixels (s : State) (ps : List Pixel) (h : ps.Nodup) :
    (s.togglePixels ps).cf = (s.cf || ps.any s.pixel) := by
  induction ps generalizing s with
  | nil => simp [State.togglePixels]
  | cons p rest ih =>
    rw [List.nodup_cons] at h
    rw [State.togglePixels, ih _ h.2, State.togglePixel_cf, List.any_cons]
    have : rest.any (s.togglePixel p).pixel = rest.any s.pixel := by
      rw [Bool.eq_iff_iff, List.any_eq_true, List.any_eq_true]
      refine exists_congr fun q => and_congr_right fun hq => ?_
      rw [State.pixel_togglePixel, if_neg fun e : q = p => h.1 (e ▸ hq)]
    rw [this, Bool.or_assoc]

/-- Two frame buffers with the same pixels are the same. -/
theorem State.fb_eq_of_pixel {s t : State} (h : ∀ q, s.pixel q = t.pixel q) : s.fb = t.fb := by
  apply Vector.ext
  intro y hy
  apply BitVec.eq_of_getLsbD_eq
  intro x hx
  exact h (⟨x, hx⟩, ⟨y, hy⟩)

/-- The pixels of one sprite row (R141, R143). -/
theorem mem_rowPixels {vx vy r : Nat} {b : Byte} {p : Pixel} :
    p ∈ rowPixels vx vy r b ↔
      ∃ c < 8, b.getLsbD (7 - c) = true ∧ p.1.val = (vx + c) % 64 ∧ p.2.val = (vy + r) % 32 := by
  obtain ⟨px, py⟩ := p
  simp only [rowPixels, List.mem_filterMap, List.mem_range]
  refine exists_congr fun c => and_congr_right fun _ => ?_
  by_cases hb : b.getLsbD (7 - c) = true
  · simp only [hb, if_true, true_and, Option.some.injEq, Prod.mk.injEq, Fin.ext_iff, Fin.val_ofNat]
    exact and_congr eq_comm eq_comm
  · simp [hb]

theorem mem_rowsPixels {vx vy r : Nat} {rows : List Byte} {p : Pixel} :
    p ∈ rowsPixels vx vy r rows ↔
      ∃ k, ∃ h : k < rows.length, p ∈ rowPixels vx vy (r + k) rows[k] := by
  induction rows generalizing r with
  | nil => simp [rowsPixels]
  | cons b rest ih =>
    rw [rowsPixels, List.mem_append, ih]
    constructor
    · rintro (h | ⟨k, hk, h⟩)
      · exact ⟨0, by simp, by simpa using h⟩
      · refine ⟨k + 1, by simpa using hk, ?_⟩
        rw [List.getElem_cons_succ, show r + (k + 1) = r + 1 + k by omega]
        exact h
    · rintro ⟨k, hk, h⟩
      cases k with
      | zero => exact .inl (by simpa using h)
      | succ k =>
        rw [List.getElem_cons_succ, show r + (k + 1) = r + 1 + k by omega] at h
        exact .inr ⟨k, by simpa using hk, h⟩

/-- The pixels of a sprite: bit `7 - c` of row `k` toggles column `vx + c`, row `vy + k`, each with wrap-around (R143). -/
theorem mem_spritePixels {vx vy : Byte} {rows : List Byte} {p : Pixel} :
    p ∈ spritePixels vx vy rows ↔
      ∃ k, ∃ h : k < rows.length, ∃ c < 8, rows[k].getLsbD (7 - c) = true ∧
        p.1.val = (vx.toNat + c) % 64 ∧ p.2.val = (vy.toNat + k) % 32 := by
  simp only [spritePixels, mem_rowsPixels, mem_rowPixels, Nat.zero_add]

end Sys2Proof.Machine
end

