-- ==== Sys2Proof/Laws/Decode.lean ====
section
/-! SUPPORT. The fields of a word as numbers, the fields of an encoded word, and the opcode map's rows (30_encoding.md R61,
R62, R64). -/

namespace Sys2Proof

/-! ## Fields as numbers (R61) -/

theorem opFamily_toNat (op : Word) : (opFamily op).toNat = op.toNat / 4096 := by
  have := op.isLt
  simp only [opFamily, BitVec.extractLsb'_toNat, Nat.shiftRight_eq_div_pow]; omega

theorem opNnn_toNat (op : Word) : (opNnn op).toNat = op.toNat % 4096 := by
  simp [opNnn]

theorem opX_val (op : Word) : (opX op).val = op.toNat / 256 % 16 := by
  simp [opX, Nat.shiftRight_eq_div_pow]

theorem opY_val (op : Word) : (opY op).val = op.toNat / 16 % 16 := by
  simp [opY, Nat.shiftRight_eq_div_pow]

theorem opKk_toNat (op : Word) : (opKk op).toNat = op.toNat % 256 := by
  simp [opKk]

theorem opN_toNat (op : Word) : (opN op).toNat = op.toNat % 16 := by
  simp [opN]

/-! ## Formats as numbers (R62) -/

theorem append_toNat {m n : Nat} (a : BitVec m) (b : BitVec n) : (a ++ b).toNat = a.toNat * 2 ^ n + b.toNat := by
  rw [BitVec.toNat_append, Nat.shiftLeft_eq, ← Nat.shiftLeft_eq, Nat.shiftLeft_add_eq_or_of_lt b.isLt]

theorem formatNNN_toNat (f : Nibble) (nnn : Addr) : (formatNNN f nnn).toNat = f.toNat * 4096 + nnn.toNat := by
  rw [formatNNN, append_toNat]; rfl

theorem formatXKK_toNat (f : Nibble) (x : Reg) (kk : Byte) :
    (formatXKK f x kk).toNat = f.toNat * 4096 + x.val * 256 + kk.toNat := by
  have : (regBits x).toNat = x.val := rfl
  rw [formatXKK, append_toNat, append_toNat, this]; omega

theorem formatXYN_toNat (f : Nibble) (x y : Reg) (n : Nibble) :
    (formatXYN f x y n).toNat = f.toNat * 4096 + x.val * 256 + y.val * 16 + n.toNat := by
  have hx : (regBits x).toNat = x.val := rfl
  have hy : (regBits y).toNat = y.val := rfl
  rw [formatXYN, append_toNat, append_toNat, append_toNat, hx, hy]; omega

theorem wordOfBytes_toNat (hi lo : Byte) : (wordOfBytes hi lo).toNat = 256 * hi.toNat + lo.toNat := by
  rw [wordOfBytes, append_toNat]; omega

/-- The two bytes of a word, put together again, are the word (R46). -/
@[simp] theorem wordOfBytes_bytes (op : Word) : wordOfBytes (highByte op) (lowByte op) = op := by
  apply BitVec.eq_of_toNat_eq
  have := op.isLt
  rw [wordOfBytes_toNat]
  simp only [highByte, lowByte, BitVec.extractLsb'_toNat, Nat.shiftRight_eq_div_pow]; omega

/-! ## Fields of an encoded word -/

@[simp] theorem opFamily_formatNNN (f : Nibble) (nnn : Addr) : opFamily (formatNNN f nnn) = f := by
  apply BitVec.eq_of_toNat_eq
  have := nnn.isLt
  rw [opFamily_toNat, formatNNN_toNat]; omega

@[simp] theorem opNnn_formatNNN (f : Nibble) (nnn : Addr) : opNnn (formatNNN f nnn) = nnn := by
  apply BitVec.eq_of_toNat_eq
  have := nnn.isLt
  rw [opNnn_toNat, formatNNN_toNat]; omega

@[simp] theorem opFamily_formatXKK (f : Nibble) (x : Reg) (kk : Byte) : opFamily (formatXKK f x kk) = f := by
  apply BitVec.eq_of_toNat_eq
  have := kk.isLt; have := x.isLt
  rw [opFamily_toNat, formatXKK_toNat]; omega

@[simp] theorem opX_formatXKK (f : Nibble) (x : Reg) (kk : Byte) : opX (formatXKK f x kk) = x := by
  apply Fin.ext
  have := kk.isLt; have := x.isLt
  rw [opX_val, formatXKK_toNat]; omega

@[simp] theorem opKk_formatXKK (f : Nibble) (x : Reg) (kk : Byte) : opKk (formatXKK f x kk) = kk := by
  apply BitVec.eq_of_toNat_eq
  have := kk.isLt; have := x.isLt
  rw [opKk_toNat, formatXKK_toNat]; omega

@[simp] theorem opFamily_formatXYN (f : Nibble) (x y : Reg) (n : Nibble) : opFamily (formatXYN f x y n) = f := by
  apply BitVec.eq_of_toNat_eq
  have := n.isLt; have := x.isLt; have := y.isLt
  rw [opFamily_toNat, formatXYN_toNat]; omega

@[simp] theorem opX_formatXYN (f : Nibble) (x y : Reg) (n : Nibble) : opX (formatXYN f x y n) = x := by
  apply Fin.ext
  have := n.isLt; have := x.isLt; have := y.isLt
  rw [opX_val, formatXYN_toNat]; omega

@[simp] theorem opY_formatXYN (f : Nibble) (x y : Reg) (n : Nibble) : opY (formatXYN f x y n) = y := by
  apply Fin.ext
  have := n.isLt; have := x.isLt; have := y.isLt
  rw [opY_val, formatXYN_toNat]; omega

@[simp] theorem opN_formatXYN (f : Nibble) (x y : Reg) (n : Nibble) : opN (formatXYN f x y n) = n := by
  apply BitVec.eq_of_toNat_eq
  have := n.isLt; have := x.isLt; have := y.isLt
  rw [opN_toNat, formatXYN_toNat]; omega

/-! ## The rows (R64) -/

/-- Some word belongs to both rows. -/
def OpcodeRow.overlaps (r q : OpcodeRow) : Bool := (r.value ^^^ q.value) &&& r.mask &&& q.mask == 0#16

/-- No two rows overlap, but rows 1 and 2 with row 3 (R64). -/
theorem opcodeRows_overlap_only_in_family_0 :
    opcodeRows.Pairwise fun r q => r.overlaps q = true → q.mnemonic = "SYS_nnn" ∧ r.mnemonic ∈ ["CLS", "RET"] := by
  decide

/-- The table has 35 rows (R64). -/
theorem opcodeRows_length : opcodeRows.length = 35 := rfl

end Sys2Proof
end

