-- ==== Sys2Proof/Laws/Memory.lean ====
section
/-! SUPPORT. The laws of memory: a read after a write, what a write leaves alone, and that every operation keeps the canonical
form (20_memory.md R42, R43). -/

namespace Sys2Proof.Machine

theorem Mem.read_erase (m : Mem) (a c : Nat) :
    (m.erase a).read c = if c = a then unlistedByte a else m.read c := by
  induction m with
  | nil => by_cases h : c = a <;> simp [Mem.erase, Mem.read, h]
  | cons e rest ih =>
    obtain ⟨k, b⟩ := e
    by_cases hk : k = a
    · subst hk
      by_cases hc : c = k
      · subst hc; simpa [Mem.erase] using ih
      · simp [Mem.erase, Mem.read, ih, hc, Ne.symm hc]
    · by_cases hc : c = a
      · subst hc; simp [Mem.erase, Mem.read, hk, ih]
      · simp [Mem.erase, Mem.read, hk, ih, hc]

theorem Mem.mem_erase {m : Mem} {a : Nat} {c : Host.Cell} : c ∈ m.erase a ↔ c ∈ m ∧ c.1 ≠ a := by
  induction m with
  | nil => simp [Mem.erase]
  | cons e rest ih =>
    obtain ⟨k, b⟩ := e
    by_cases hk : k = a
    · simp only [Mem.erase, hk, if_true, ih, List.mem_cons]
      constructor
      · exact fun ⟨h, n⟩ => ⟨.inr h, n⟩
      · rintro ⟨rfl | h, n⟩
        · exact absurd rfl n
        · exact ⟨h, n⟩
    · simp only [Mem.erase, hk, if_false, List.mem_cons, ih]
      constructor
      · rintro (rfl | ⟨h, n⟩)
        · exact ⟨.inl rfl, hk⟩
        · exact ⟨.inr h, n⟩
      · rintro ⟨rfl | h, n⟩
        · exact .inl rfl
        · exact .inr ⟨h, n⟩

theorem Mem.read_insert (m : Mem) (a c : Nat) (v : Byte) (h : ∀ e ∈ m, e.1 ≠ a) :
    (m.insert a v).read c = if c = a then v else m.read c := by
  induction m with
  | nil =>
    by_cases hc : c = a
    · simp [Mem.insert, Mem.read, hc]
    · simp [Mem.insert, Mem.read, hc, show ¬ a = c from fun e => hc e.symm]
  | cons e rest ih =>
    obtain ⟨k, b⟩ := e
    have hk : k ≠ a := h (k, b) (by simp)
    have ih := ih fun e he => h e (by simp [he])
    by_cases hlt : a < k <;> by_cases hc : c = a
    · simp [Mem.insert, Mem.read, hlt, hc]
    · simp [Mem.insert, Mem.read, hlt, hc, show ¬ a = c from fun e => hc e.symm]
    · subst hc; simp [Mem.insert, Mem.read, hlt, hk, ih]
    · simp [Mem.insert, Mem.read, hlt, ih, hc]

/-- A write changes the one byte it names and no other (R43). -/
theorem Mem.read_write (m : Mem) (a c : Nat) (v : Byte) (h : a < Config.memSize) :
    (m.write a v).read c = if c = a then v else m.read c := by
  have h' : ¬ Config.memSize ≤ a := Nat.not_le.2 h
  by_cases hv : v = unlistedByte a
  · simp [Mem.write, h', ← hv, Mem.read_erase]
  · rw [Mem.write, if_neg h', if_neg hv, Mem.read_insert _ _ _ _ fun e he => (Mem.mem_erase.1 he).2]
    by_cases hc : c = a <;> simp [hc, Mem.read_erase]

@[simp] theorem Mem.read_write_self (m : Mem) (a : Nat) (v : Byte) (h : a < Config.memSize) :
    (m.write a v).read a = v := by simp [Mem.read_write _ _ _ _ h]

theorem Mem.read_write_ne (m : Mem) (a c : Nat) (v : Byte) (hc : c ≠ a) : (m.write a v).read c = m.read c := by
  by_cases h : a < Config.memSize
  · simp [Mem.read_write _ _ _ _ h, hc]
  · simp [Mem.write, Nat.not_lt.1 h]

theorem Mem.wf_erase {m : Mem} (h : m.wf) (a : Nat) : (m.erase a).wf := by
  refine ⟨?_, fun c hc => h.2 c (Mem.mem_erase.1 hc).1⟩
  have hp := h.1
  clear h
  induction m with
  | nil => simp [Mem.erase]
  | cons e rest ih =>
    obtain ⟨k, b⟩ := e
    rw [List.map_cons, List.pairwise_cons] at hp
    by_cases hk : k = a
    · simpa [Mem.erase, hk] using ih hp.2
    · rw [Mem.erase, if_neg hk, List.map_cons, List.pairwise_cons]
      refine ⟨fun x hx => hp.1 x ?_, ih hp.2⟩
      obtain ⟨c, hc, rfl⟩ := List.mem_map.1 hx
      exact List.mem_map.2 ⟨c, (Mem.mem_erase.1 hc).1, rfl⟩

theorem Mem.mem_insert {m : Mem} {a : Nat} {v : Byte} {c : Host.Cell} :
    c ∈ m.insert a v ↔ c = (a, v) ∨ c ∈ m := by
  induction m with
  | nil => simp [Mem.insert]
  | cons e rest ih =>
    obtain ⟨k, b⟩ := e
    by_cases hlt : a < k
    · simp [Mem.insert, hlt]
    · simp only [Mem.insert, hlt, if_false, List.mem_cons, ih]; tauto

theorem Mem.wf_insert {m : Mem} (h : m.wf) {a : Nat} {v : Byte} (ha : a < Config.memSize) (hv : v ≠ unlistedByte a)
    (hn : ∀ e ∈ m, e.1 ≠ a) : (m.insert a v).wf := by
  refine ⟨?_, fun c hc => ?_⟩
  · have hp := h.1
    clear h
    induction m with
    | nil => simp [Mem.insert]
    | cons e rest ih =>
      obtain ⟨k, b⟩ := e
      have hk : k ≠ a := hn (k, b) (by simp)
      by_cases hlt : a < k
      · rw [Mem.insert, if_pos hlt, List.map_cons, List.pairwise_cons]
        refine ⟨fun x hx => ?_, hp⟩
        rw [List.map_cons, List.pairwise_cons] at hp
        rcases List.mem_cons.1 hx with rfl | hx
        · exact hlt
        · exact hlt.trans (hp.1 x hx)
      · rw [List.map_cons, List.pairwise_cons] at hp
        rw [Mem.insert, if_neg hlt, List.map_cons, List.pairwise_cons]
        refine ⟨fun x hx => ?_, ih (fun e he => hn e (by simp [he])) hp.2⟩
        obtain ⟨c, hc, rfl⟩ := List.mem_map.1 hx
        rcases Mem.mem_insert.1 hc with rfl | hc
        · simp only; omega
        · exact hp.1 _ (List.mem_map.2 ⟨c, hc, rfl⟩)
  · rcases Mem.mem_insert.1 hc with rfl | hc
    · exact ⟨ha, hv⟩
    · exact h.2 c hc

/-- A write keeps the canonical form. -/
theorem Mem.wf_write {m : Mem} (h : m.wf) (a : Nat) (v : Byte) : (m.write a v).wf := by
  by_cases ha : Config.memSize ≤ a
  · simpa only [Mem.write, ha, if_true] using h
  · by_cases hv : v = unlistedByte a
    · simpa only [Mem.write, ha, hv, if_true, if_false] using Mem.wf_erase h a
    · simpa only [Mem.write, ha, hv, if_false] using
        Mem.wf_insert (Mem.wf_erase h a) (Nat.not_le.1 ha) hv fun e he => (Mem.mem_erase.1 he).2

/-- A run of writes keeps the canonical form. -/
theorem Mem.wf_writeBytes {m : Mem} (h : m.wf) (a : Nat) (bs : List Byte) : (m.writeBytes a bs).wf := by
  induction bs generalizing m a with
  | nil => exact h
  | cons b rest ih => exact ih (Mem.wf_write h a b) (a + 1)

/-- Outside the written addresses every byte reads as before (R43). -/
theorem Mem.read_writeBytes_outside (m : Mem) (a c : Nat) (bs : List Byte) (h : c < a ∨ a + bs.length ≤ c) :
    (m.writeBytes a bs).read c = m.read c := by
  induction bs generalizing m a with
  | nil => rfl
  | cons b rest ih =>
    simp only [List.length_cons] at h
    rw [Mem.writeBytes, ih _ _ (by omega), Mem.read_write_ne _ _ _ _ (by omega)]

/-- A written address reads as the byte written there (R43). -/
theorem Mem.read_writeBytes_inside (m : Mem) (a j : Nat) (bs : List Byte) (hj : j < bs.length)
    (h : a + bs.length ≤ Config.memSize) : (m.writeBytes a bs).read (a + j) = bs[j] := by
  induction bs generalizing m a j with
  | nil => simp at hj
  | cons b rest ih =>
    simp only [List.length_cons] at h hj
    cases j with
    | zero =>
      rw [Mem.writeBytes, Mem.read_writeBytes_outside _ _ _ _ (by omega), Nat.add_zero,
        Mem.read_write_self _ _ _ (by omega)]
      rfl
    | succ j =>
      rw [Mem.writeBytes, show a + (j + 1) = (a + 1) + j by omega, ih _ _ _ (by omega) (by omega)]
      rfl

@[simp] theorem Mem.readBytes_length (m : Mem) (a n : Nat) : (m.readBytes a n).length = n := by
  induction n generalizing a with
  | zero => rfl
  | succ n ih => simp [Mem.readBytes, ih]

@[simp] theorem Mem.readBytes_getElem (m : Mem) (a n j : Nat) (h : j < (m.readBytes a n).length) :
    (m.readBytes a n)[j] = m.read (a + j) := by
  induction n generalizing a j with
  | zero => simp [Mem.readBytes] at h
  | succ n ih =>
    cases j with
    | zero => rfl
    | succ j =>
      simp only [Mem.readBytes, List.getElem_cons_succ]
      rw [ih, show a + 1 + j = a + (j + 1) by omega]

/-- Stores keep the canonical form. -/
theorem State.storeBytes_wf {s : State} (h : s.mem.wf) (a : Nat) (bs : List Byte) : (s.storeBytes a bs).mem.wf :=
  Mem.wf_writeBytes h a bs

/-- Placing a word for the fetch keeps the canonical form. -/
theorem State.placeWord_wf {s : State} (h : s.mem.wf) (op : Word) : (s.placeWord op).mem.wf :=
  Mem.wf_writeBytes h _ _

/-- The memory of the state after reset is in canonical form. -/
theorem State.reset_mem_wf : State.reset.mem.wf := by decide

end Sys2Proof.Machine
end

