-- ==== Sys2Proof/Laws/Timers.lean ====
section
/-! SUPPORT. The closed form of a run of `TimerTick`s and what the timer driver's turn does (60_exceptions.md R226). -/

namespace Sys2Proof.Machine

theorem countDown_toNat (b : Byte) (k : Nat) : (countDown b k).toNat = b.toNat - k := by
  have := b.isLt
  simp only [countDown, BitVec.toNat_ofNat]
  omega

theorem countDown_zero (b : Byte) : countDown b 0 = b := by
  apply BitVec.eq_of_toNat_eq; simp [countDown_toNat]

theorem countDown_succ (b : Byte) (k : Nat) :
    countDown b (k + 1) = if countDown b k = 0#8 then countDown b k else countDown b k - 1#8 := by
  have hb := b.isLt
  split
  · rename_i h
    have h' := congrArg BitVec.toNat h
    rw [countDown_toNat] at h'
    apply BitVec.eq_of_toNat_eq
    rw [countDown_toNat, countDown_toNat]
    simp at h'; omega
  · rename_i h
    have h' : (countDown b k).toNat ≠ 0 := fun e => h (BitVec.eq_of_toNat_eq (by simpa using e))
    rw [countDown_toNat] at h'
    apply BitVec.eq_of_toNat_eq
    rw [BitVec.toNat_sub, countDown_toNat, countDown_toNat]
    simp; omega

@[simp] theorem State.timersRun_timerTicks (s : State) (k : Nat) : (s.timerTicks k).timersRun = s.timersRun := by
  cases h : s.timersRun <;> simp_all [State.timerTicks, State.timersRun]

theorem State.timerTicks_zero (s : State) : s.timerTicks 0 = s := by
  cases h : s.timersRun <;> simp [State.timerTicks, h, countDown_zero]

/-- The closed form counts one `TimerTick` more (R226). -/
theorem State.timerTicks_succ (s : State) (k : Nat) : s.timerTicks (k + 1) = (s.timerTicks k).timerTick := by
  cases h : s.timersRun
  · simp [State.timerTicks, State.timerTick, h]
  · have h2 := State.timersRun_timerTicks s k
    rw [State.timerTick, h2, h, if_pos rfl]
    simp [State.timerTicks, h, countDown_succ]

/-- The timer driver's turn leaves whether the timers run as it was. -/
@[simp] theorem State.timersRun_timerEvents (s : State) : s.timerEvents.timersRun = s.timersRun := by
  simp [State.timersRun]

end Sys2Proof.Machine
end

