-- ==== Sys2Proof/Laws/Engine.lean ====
section
/-! SUPPORT. What one tick can do (60_exceptions.md R209, R210), and that an instruction put in place is the one fetched. -/

namespace Sys2Proof.Machine

theorem State.fetchInBounds_iff (s : State) : s.fetchInBounds = true ↔ s.pc.toNat ≤ 0xFFE := by
  simp [State.fetchInBounds, Config.memSize]

/-- The word fetched is the two bytes at `PC`, the first one most significant (R41). -/
theorem fetches_iff (s : State) (op : Word) : Fetches s op ↔ s.fetchInBounds = true ∧ s.fetchWord = op := by
  rw [Fetches, State.fetchInBounds_iff, State.fetchWord, ← BitVec.toNat_inj, wordOfBytes_toNat, eq_comm (b := op.toNat)]

/-- Everything a tick can do: nothing in `HALTED`, a fetch error, an invalid word, or the decoded instruction (R209). -/
theorem tick_cases {s : State} {a : Answer} (h : tick s = a) :
    (s.run = .halted ∧ a = .next s) ∨
    (s.run ≠ .halted ∧ s.fetchInBounds = false ∧ a = .next (s.raise .fetchOutOfBounds)) ∨
    (s.run ≠ .halted ∧ s.fetchInBounds = true ∧ (∃ e, decodeWord s.fetchWord = .error e) ∧
      a = .next ((s.startTick s.fetchWord).raise .invalidOpcode)) ∨
    (s.run ≠ .halted ∧ s.fetchInBounds = true ∧ ∃ i, decodeWord s.fetchWord = .ok i ∧
      a = exec i (s.startTick s.fetchWord)) := by
  subst h
  by_cases h1 : s.run = .halted
  · exact .inl ⟨h1, by rw [tick, if_pos h1]⟩
  · cases h2 : s.fetchInBounds
    · exact .inr (.inl ⟨h1, rfl, by simp [tick, h1, h2]⟩)
    · cases h3 : decodeWord s.fetchWord with
      | error e => exact .inr (.inr (.inl ⟨h1, rfl, ⟨e, rfl⟩, by simp [tick, h1, h2, h3]⟩))
      | ok i => exact .inr (.inr (.inr ⟨h1, rfl, i, rfl, by simp [tick, h1, h2, h3]⟩))

/-- A machine that runs and whose tick changes nothing has ended its run (R262). -/
theorem runEnd_fixedPoint (s : State) (hp : s.present = true) (hr : s.run = .running) (ht : tick s = .next s) :
    runEnd s = some .fixedPoint := by
  simp [runEnd, hp, hr, ht]

/-- Where `runEnd` answers a fixed point, the machine exists and runs, and the tick changes nothing (R262). -/
theorem tick_of_runEnd {s : State} (h : runEnd s = some .fixedPoint) :
    s.present = true ∧ s.run = .running ∧ tick s = .next s := by
  cases hp : s.present
  · simp [runEnd, hp] at h
  · cases hr : s.run <;> simp only [runEnd, hp, hr, if_true] at h
    case awaitKey => cases h
    case halted => cases h
    refine ⟨rfl, rfl, ?_⟩
    split at h
    · rename_i t ht
      split at h
      · rename_i e
        rw [ht, e]
      · cases h
    · cases h
    · cases h

/-- The fetch does not see the timers. -/
@[simp] theorem State.timerEvents_fetchWord (s : State) : s.timerEvents.fetchWord = s.fetchWord := by
  simp [State.fetchWord]

@[simp] theorem State.timerEvents_fetchInBounds (s : State) : s.timerEvents.fetchInBounds = s.fetchInBounds := by
  simp [State.fetchInBounds]

/-- A word placed where the fetch reads is the word fetched (R46, R52). -/
theorem State.fetchWord_placeWord (s : State) (op : Word) (h : s.fetchInBounds = true) :
    (s.placeWord op).fetchWord = op := by
  rw [State.fetchInBounds_iff] at h
  have h0 := Mem.read_writeBytes_inside s.mem s.pc.toNat 0 [highByte op, lowByte op] (by simp) (by simp [Config.memSize]; omega)
  have h1 := Mem.read_writeBytes_inside s.mem s.pc.toNat 1 [highByte op, lowByte op] (by simp) (by simp [Config.memSize]; omega)
  rw [Nat.add_zero] at h0
  rw [State.fetchWord, State.placeWord_mem, State.placeWord_pc, h0, h1]
  exact wordOfBytes_bytes op

end Sys2Proof.Machine
end

