-- ==== Sys2Proof/Laws/Exec.lean ====
section
/-! SUPPORT. What one instruction can do: the guarded meanings, guard by guard, and the kinds of next state (60_exceptions.md
R203, R210). -/

namespace Sys2Proof.Machine

theorem State.dataInBounds_iff (s : State) (m : Nat) : s.dataInBounds m = true ↔ m = 0 ∨ s.i.toNat + m - 1 ≤ 4095 := by
  simp [State.dataInBounds, Config.memSize]

theorem exec_ret_empty {s : State} (h : s.sp = 0) : exec .ret s = .next (s.raise .stackUnderflow) := if_pos h

theorem exec_ret_pops {s : State} (h : s.sp ≠ 0) : exec .ret s = .next (s.pop.setPc s.stackTop) := if_neg h

theorem exec_call_full {s : State} (nnn : Addr) (h : s.sp.val = 16) :
    exec (.call nnn) s = .next (s.raise .stackOverflow) := if_pos h

theorem exec_call_pushes {s : State} (nnn : Addr) (h : s.sp.val ≠ 16) :
    exec (.call nnn) s = .next ((s.push (s.pc + 2#16)).setPc (nnn.zeroExtend 16)) := if_neg h

theorem exec_drw_draws {s : State} (x y : Reg) (n : Nibble) (h : s.dataInBounds n.toNat = true) :
    exec (.drw x y n) s =
      .next ((s.drawSprite (s.drwPixels x y n)).setVF (s.drawSprite (s.drwPixels x y n)).cf).advance := if_pos h

theorem exec_drw_beyond {s : State} (x y : Reg) (n : Nibble) (h : s.dataInBounds n.toNat ≠ true) :
    exec (.drw x y n) s = .next (s.raise .dataOutOfBounds) := if_neg h

theorem exec_ldB_stores {s : State} (x : Reg) (h : s.dataInBounds 3 = true) :
    exec (.ldB x) s = .next (s.storeBytes s.i.toNat (bcdDigits (s.getV x))).advance := if_pos h

theorem exec_ldB_beyond {s : State} (x : Reg) (h : s.dataInBounds 3 ≠ true) :
    exec (.ldB x) s = .next (s.raise .dataOutOfBounds) := if_neg h

theorem exec_stRegs_stores {s : State} (x : Reg) (h : s.dataInBounds (x.val + 1) = true) :
    exec (.stRegs x) s = .next (s.storeBytes s.i.toNat (s.firstRegs (x.val + 1))).advance := if_pos h

theorem exec_stRegs_beyond {s : State} (x : Reg) (h : s.dataInBounds (x.val + 1) ≠ true) :
    exec (.stRegs x) s = .next (s.raise .dataOutOfBounds) := if_neg h

theorem exec_ldRegs_loads {s : State} (x : Reg) (h : s.dataInBounds (x.val + 1) = true) :
    exec (.ldRegs x) s = .next (s.loadRegs (s.mem.readBytes s.i.toNat (x.val + 1))).advance := if_pos h

theorem exec_ldRegs_beyond {s : State} (x : Reg) (h : s.dataInBounds (x.val + 1) ≠ true) :
    exec (.ldRegs x) s = .next (s.raise .dataOutOfBounds) := if_neg h

theorem exec_ldVxK_stalls {s : State} (x : Reg) (h : s.keyEvent = none) :
    exec (.ldVxK x) s = .next (s.countKeyEvent.setRun .awaitKey) := by
  simp [exec, execLdVxK, State.takeKey, h]

theorem exec_ldVxK_loads {s : State} (x : Reg) {k : Key} (h : s.keyEvent = some k) :
    exec (.ldVxK x) s =
      .next ((s.countKeyEvent.setV x (BitVec.ofNat 8 k.val)).setRun .running).advance := by
  simp [exec, execLdVxK, State.takeKey, h]

/-- What the next state of an instruction is, seen from `RUN` and `ERR`: its one fatal error, a stall, a key taken, or a state
with both as they were (R203, R209, R210). -/
theorem exec_outcome {i : Instr} {s t : State} (h : exec i s = .next t) :
    (∃ e, handlerError i = some e ∧ t = s.raise e) ∨
    (∃ x, i = .ldVxK x ∧ s.keyEvent = none ∧ t = s.countKeyEvent.setRun .awaitKey) ∨
    (∃ x k, i = .ldVxK x ∧ s.keyEvent = some k ∧
      t = ((s.countKeyEvent.setV x (BitVec.ofNat 8 k.val)).setRun .running).advance) ∨
    ((∀ x, i ≠ .ldVxK x) ∧ t.run = s.run ∧ t.err = s.err) := by
  cases i
  case ldVxK x =>
    cases hk : s.keyEvent with
    | none =>
      rw [exec_ldVxK_stalls x hk] at h
      injection h with h
      exact .inr (.inl ⟨x, rfl, rfl, h.symm⟩)
    | some k =>
      rw [exec_ldVxK_loads x hk] at h
      injection h with h
      exact .inr (.inr (.inl ⟨x, k, rfl, rfl, h.symm⟩))
  case ret =>
    simp only [exec, execRet] at h
    split at h <;> injection h with h <;> subst h
    · exact .inl ⟨_, rfl, rfl⟩
    · exact .inr (.inr (.inr ⟨by simp, rfl, rfl⟩))
  case call nnn =>
    simp only [exec, execCall] at h
    split at h <;> injection h with h <;> subst h
    · exact .inl ⟨_, rfl, rfl⟩
    · exact .inr (.inr (.inr ⟨by simp, rfl, rfl⟩))
  case drw x y n =>
    simp only [exec, execDrw] at h
    split at h <;> injection h with h <;> subst h
    · exact .inr (.inr (.inr ⟨by simp, by simp, by simp⟩))
    · exact .inl ⟨_, rfl, rfl⟩
  case ldB x =>
    simp only [exec, execLdB] at h
    split at h <;> injection h with h <;> subst h
    · exact .inr (.inr (.inr ⟨by simp, rfl, rfl⟩))
    · exact .inl ⟨_, rfl, rfl⟩
  case stRegs x =>
    simp only [exec, execStRegs] at h
    split at h <;> injection h with h <;> subst h
    · exact .inr (.inr (.inr ⟨by simp, rfl, rfl⟩))
    · exact .inl ⟨_, rfl, rfl⟩
  case ldRegs x =>
    simp only [exec, execLdRegs] at h
    split at h <;> injection h with h <;> subst h
    · exact .inr (.inr (.inr ⟨by simp, rfl, rfl⟩))
    · exact .inl ⟨_, rfl, rfl⟩
  all_goals
    injection h with h
    subst h
    exact .inr (.inr (.inr ⟨by simp, rfl, rfl⟩))

end Sys2Proof.Machine
end

