-- ==== Sys2Proof/Laws/Agents.lean ====
section
/-! SUPPORT. One equation per form of a step, what `Load` leaves, and that no action sees the agenda (60_exceptions.md R220,
R226, R228). -/

namespace Sys2Proof.Machine

/-! ## The forms of a step -/

/-- With nothing on the agenda a machine takes the timer driver's events, then a tick (R210, R226). -/
theorem step_default {s : State} (h : s.agenda = []) (hp : s.present = true) : step s = tick s.timerEvents := by
  simp [step, stepOnce, h, hp]

/-- With nothing on the agenda nothing happens to a machine that does not exist (R228). -/
theorem step_absent {s : State} (h : s.agenda = []) (hp : s.present = false) : step s = .next s := by
  simp [step, stepOnce, h, hp]

/-- A step takes the first action of the agenda (R220). -/
theorem step_agenda {s : State} {a : Action} {rest : List Action} (h : s.agenda = a :: rest) :
    step s = act a (s.withAgenda rest) := by
  simp [step, stepOnce, h]

/-! ## `Load` -/

theorem State.reload_fits (s : State) {image : List Byte} (h : image.length ≤ maxImage) : s.reload image = s.loadImage image :=
  if_pos h

theorem State.reload_too_long (s : State) {image : List Byte} (h : ¬ image.length ≤ maxImage) : s.reload image = s := if_neg h

/-- Nothing of the core survives a `Load`; only what the collaborators and the agents hold does (R250). -/
theorem State.loadImage_eq (s u : State) (image : List Byte) :
    s.loadImage image =
      { u.loadImage image with
        fb := s.fb, randDraws := s.randDraws, keyQueries := s.keyQueries, keyEvents := s.keyEvents,
        timerDraws := s.timerDraws, agenda := s.agenda } := rfl

/-- A `Load` leaves memory in canonical form. -/
theorem State.loadImage_wf (s : State) (image : List Byte) : (s.loadImage image).mem.wf :=
  State.storeBytes_wf State.reset_mem_wf _ _

/-! ## No action sees the agenda (R220) -/

@[simp] theorem State.togglePixels_withAgenda (s : State) (l : List Action) (ps : List Pixel) :
    (s.withAgenda l).togglePixels ps = (s.togglePixels ps).withAgenda l := by
  induction ps generalizing s with
  | nil => rfl
  | cons p rest ih => exact ih (s.togglePixel p)

/-- An instruction does the same whatever is on the agenda, and leaves it. -/
theorem exec_withAgenda {i : Instr} {s t : State} (l : List Action) (h : exec i s = .next t) :
    exec i (s.withAgenda l) = .next (t.withAgenda l) := by
  cases i
  case ret =>
    by_cases hc : s.sp = 0
    · rw [exec_ret_empty hc] at h; injection h with h; subst h; exact exec_ret_empty hc
    · rw [exec_ret_pops hc] at h; injection h with h; subst h; exact exec_ret_pops hc
  case call nnn =>
    by_cases hc : s.sp.val = 16
    · rw [exec_call_full nnn hc] at h; injection h with h; subst h; exact exec_call_full nnn hc
    · rw [exec_call_pushes nnn hc] at h; injection h with h; subst h; exact exec_call_pushes nnn hc
  case drw x y n =>
    by_cases hc : s.dataInBounds n.toNat = true
    · rw [exec_drw_draws x y n hc] at h
      injection h with h; subst h
      have hc' : (s.withAgenda l).dataInBounds n.toNat = true := hc
      rw [exec_drw_draws x y n hc']
      have : (s.withAgenda l).drawSprite ((s.withAgenda l).drwPixels x y n) =
          (s.drawSprite (s.drwPixels x y n)).withAgenda l := State.togglePixels_withAgenda s.clearCf l _
      rw [this]; rfl
    · rw [exec_drw_beyond x y n hc] at h; injection h with h; subst h; exact exec_drw_beyond x y n hc
  case ldB x =>
    by_cases hc : s.dataInBounds 3 = true
    · rw [exec_ldB_stores x hc] at h; injection h with h; subst h; exact exec_ldB_stores x hc
    · rw [exec_ldB_beyond x hc] at h; injection h with h; subst h; exact exec_ldB_beyond x hc
  case stRegs x =>
    by_cases hc : s.dataInBounds (x.val + 1) = true
    · rw [exec_stRegs_stores x hc] at h; injection h with h; subst h; exact exec_stRegs_stores x hc
    · rw [exec_stRegs_beyond x hc] at h; injection h with h; subst h; exact exec_stRegs_beyond x hc
  case ldRegs x =>
    by_cases hc : s.dataInBounds (x.val + 1) = true
    · rw [exec_ldRegs_loads x hc] at h; injection h with h; subst h; exact exec_ldRegs_loads x hc
    · rw [exec_ldRegs_beyond x hc] at h; injection h with h; subst h; exact exec_ldRegs_beyond x hc
  case ldVxK x =>
    cases hk : s.keyEvent with
    | none => rw [exec_ldVxK_stalls x hk] at h; injection h with h; subst h; exact exec_ldVxK_stalls x hk
    | some k => rw [exec_ldVxK_loads x hk] at h; injection h with h; subst h; exact exec_ldVxK_loads x hk
  all_goals
    injection h with h
    subst h
    rfl

/-- A tick does the same whatever is on the agenda, and leaves it. -/
theorem tick_withAgenda {s t : State} (l : List Action) (h : tick s = .next t) :
    tick (s.withAgenda l) = .next (t.withAgenda l) := by
  rcases tick_cases h with ⟨hr, e⟩ | ⟨hr, hb, e⟩ | ⟨hr, hb, ⟨x, hd⟩, e⟩ | ⟨hr, hb, i, hd, e⟩
  · injection e with e; subst e
    exact if_pos hr
  · injection e with e; subst e
    have hb' : (s.withAgenda l).fetchInBounds = false := hb
    simp only [tick, State.withAgenda_run, hr, hb', if_false, Bool.false_eq_true]; rfl
  · injection e with e; subst e
    have hb' : (s.withAgenda l).fetchInBounds = true := hb
    have hd' : decodeWord (s.withAgenda l).fetchWord = .error x := hd
    simp only [tick, State.withAgenda_run, hr, hb', hd', if_false, if_true]; rfl
  · have hb' : (s.withAgenda l).fetchInBounds = true := hb
    have hd' : decodeWord (s.withAgenda l).fetchWord = .ok i := hd
    simp only [tick, State.withAgenda_run, hr, hb', hd', if_false, if_true]
    exact exec_withAgenda l e.symm

/-- An agent's action does the same whatever else is on the agenda, and leaves it. -/
theorem act_withAgenda {a : Action} {s t : State} (l : List Action) (h : act a s = .next t) :
    act a (s.withAgenda l) = .next (t.withAgenda l) := by
  cases a with
  | tick =>
    cases hp : s.present <;> simp only [act, State.withAgenda_present, hp, if_true, Bool.false_eq_true, if_false] at h ⊢
    · injection h with h; subst h; rfl
    · exact tick_withAgenda l h
  | timerTick =>
    cases hp : s.present <;> simp only [act, State.withAgenda_present, hp, if_true, Bool.false_eq_true, if_false] at h ⊢
    · injection h with h; subst h; rfl
    · injection h with h; subst h
      have ht : (s.withAgenda l).timersRun = s.timersRun := rfl
      cases hr : s.timersRun <;> rw [State.timerTick, State.timerTick, ht, hr] <;> rfl
  | load image =>
    simp only [act] at h ⊢
    injection h with h; subst h
    by_cases hf : image.length ≤ maxImage
    · rw [State.reload_fits _ hf, State.reload_fits _ hf]; rfl
    · rw [State.reload_too_long _ hf, State.reload_too_long _ hf]
  | discard => injection h with h; subst h; rfl

end Sys2Proof.Machine
end

