-- ==== Sys2Proof/Laws/PerInstr.lean ====
section
/-! SUPPORT. Per instruction: the encoded word belongs to the instruction's own row of the opcode map (30_encoding.md R64). -/

namespace Sys2Proof

/-- The word of a well-formed instruction has the fixed bits of the row that carries the instruction's mnemonic (R64). -/
def Laws.EncodeMatchesRow.Statement (i : Instr) : Prop :=
  i.wellFormed = true → ∃ r ∈ opcodeRows, r.mnemonic = i.mnemonic ∧ r.covers (encode i) = true

/-! ## Masks as numbers -/

theorem and_F000 (op : Word) : op &&& 0xF000#16 = opFamily op ++ 0x000#12 := by
  apply BitVec.eq_of_getLsbD_eq
  intro j hj
  rw [BitVec.getLsbD_and, BitVec.getLsbD_append, opFamily, BitVec.getLsbD_extractLsb']
  interval_cases j <;> simp

theorem and_F00F (op : Word) : op &&& 0xF00F#16 = opFamily op ++ 0x00#8 ++ opN op := by
  apply BitVec.eq_of_getLsbD_eq
  intro j hj
  rw [BitVec.getLsbD_and, BitVec.getLsbD_append, BitVec.getLsbD_append, opFamily, opN, BitVec.getLsbD_extractLsb',
    BitVec.getLsbD_extractLsb']
  interval_cases j <;> simp

theorem and_F0FF (op : Word) : op &&& 0xF0FF#16 = opFamily op ++ 0x0#4 ++ opKk op := by
  apply BitVec.eq_of_getLsbD_eq
  intro j hj
  rw [BitVec.getLsbD_and, BitVec.getLsbD_append, BitVec.getLsbD_append, opFamily, opKk, BitVec.getLsbD_extractLsb',
    BitVec.getLsbD_extractLsb']
  interval_cases j <;> simp

/-! ## One lemma per constructor -/

theorem Laws.EncodeMatchesRow.cls : Statement (.cls) := fun _ =>
  ⟨⟨"CLS", 0xFFFF#16, 0x00E0#16⟩, by decide, rfl, rfl⟩

theorem Laws.EncodeMatchesRow.ret : Statement (.ret) := fun _ =>
  ⟨⟨"RET", 0xFFFF#16, 0x00EE#16⟩, by decide, rfl, rfl⟩

theorem Laws.EncodeMatchesRow.sys (nnn : Addr) : Statement (.sys nnn) := fun _ =>
  ⟨⟨"SYS_nnn", 0xF000#16, 0x0000#16⟩, by decide, rfl, by simp [OpcodeRow.covers, encode, and_F000]⟩

theorem Laws.EncodeMatchesRow.jp (nnn : Addr) : Statement (.jp nnn) := fun _ =>
  ⟨⟨"JP_nnn", 0xF000#16, 0x1000#16⟩, by decide, rfl, by simp [OpcodeRow.covers, encode, and_F000]⟩

theorem Laws.EncodeMatchesRow.jpV0 (nnn : Addr) : Statement (.jpV0 nnn) := fun _ =>
  ⟨⟨"JP_V0__nnn", 0xF000#16, 0xB000#16⟩, by decide, rfl, by simp [OpcodeRow.covers, encode, and_F000]⟩

theorem Laws.EncodeMatchesRow.call (nnn : Addr) : Statement (.call nnn) := fun _ =>
  ⟨⟨"CALL_nnn", 0xF000#16, 0x2000#16⟩, by decide, rfl, by simp [OpcodeRow.covers, encode, and_F000]⟩

theorem Laws.EncodeMatchesRow.seImm (x : Reg) (kk : Byte) : Statement (.seImm x kk) := fun _ =>
  ⟨⟨"SE_Vx__kk", 0xF000#16, 0x3000#16⟩, by decide, rfl, by simp [OpcodeRow.covers, encode, and_F000]⟩

theorem Laws.EncodeMatchesRow.sneImm (x : Reg) (kk : Byte) : Statement (.sneImm x kk) := fun _ =>
  ⟨⟨"SNE_Vx__kk", 0xF000#16, 0x4000#16⟩, by decide, rfl, by simp [OpcodeRow.covers, encode, and_F000]⟩

theorem Laws.EncodeMatchesRow.seReg (x : Reg) (y : Reg) : Statement (.seReg x y) := fun _ =>
  ⟨⟨"SE_Vx__Vy", 0xF000#16, 0x5000#16⟩, by decide, rfl, by simp [OpcodeRow.covers, encode, and_F000]⟩

theorem Laws.EncodeMatchesRow.sneReg (x : Reg) (y : Reg) : Statement (.sneReg x y) := fun _ =>
  ⟨⟨"SNE_Vx__Vy", 0xF000#16, 0x9000#16⟩, by decide, rfl, by simp [OpcodeRow.covers, encode, and_F000]⟩

theorem Laws.EncodeMatchesRow.ldImm (x : Reg) (kk : Byte) : Statement (.ldImm x kk) := fun _ =>
  ⟨⟨"LD_Vx__kk", 0xF000#16, 0x6000#16⟩, by decide, rfl, by simp [OpcodeRow.covers, encode, and_F000]⟩

theorem Laws.EncodeMatchesRow.ldReg (x : Reg) (y : Reg) : Statement (.ldReg x y) := fun _ =>
  ⟨⟨"LD_Vx__Vy", 0xF00F#16, 0x8000#16⟩, by decide, rfl, by simp [OpcodeRow.covers, encode, and_F00F]⟩

theorem Laws.EncodeMatchesRow.addImm (x : Reg) (kk : Byte) : Statement (.addImm x kk) := fun _ =>
  ⟨⟨"ADD_Vx__kk", 0xF000#16, 0x7000#16⟩, by decide, rfl, by simp [OpcodeRow.covers, encode, and_F000]⟩

theorem Laws.EncodeMatchesRow.orReg (x : Reg) (y : Reg) : Statement (.orReg x y) := fun _ =>
  ⟨⟨"OR_Vx__Vy", 0xF00F#16, 0x8001#16⟩, by decide, rfl, by simp [OpcodeRow.covers, encode, and_F00F]⟩

theorem Laws.EncodeMatchesRow.andReg (x : Reg) (y : Reg) : Statement (.andReg x y) := fun _ =>
  ⟨⟨"AND_Vx__Vy", 0xF00F#16, 0x8002#16⟩, by decide, rfl, by simp [OpcodeRow.covers, encode, and_F00F]⟩

theorem Laws.EncodeMatchesRow.xorReg (x : Reg) (y : Reg) : Statement (.xorReg x y) := fun _ =>
  ⟨⟨"XOR_Vx__Vy", 0xF00F#16, 0x8003#16⟩, by decide, rfl, by simp [OpcodeRow.covers, encode, and_F00F]⟩

theorem Laws.EncodeMatchesRow.addReg (x : Reg) (y : Reg) : Statement (.addReg x y) := fun _ =>
  ⟨⟨"ADD_Vx__Vy", 0xF00F#16, 0x8004#16⟩, by decide, rfl, by simp [OpcodeRow.covers, encode, and_F00F]⟩

theorem Laws.EncodeMatchesRow.subReg (x : Reg) (y : Reg) : Statement (.subReg x y) := fun _ =>
  ⟨⟨"SUB_Vx__Vy", 0xF00F#16, 0x8005#16⟩, by decide, rfl, by simp [OpcodeRow.covers, encode, and_F00F]⟩

theorem Laws.EncodeMatchesRow.subnReg (x : Reg) (y : Reg) : Statement (.subnReg x y) := fun _ =>
  ⟨⟨"SUBN_Vx__Vy", 0xF00F#16, 0x8007#16⟩, by decide, rfl, by simp [OpcodeRow.covers, encode, and_F00F]⟩

theorem Laws.EncodeMatchesRow.shr (x : Reg) : Statement (.shr x) := fun _ =>
  ⟨⟨"SHR_Vx", 0xF00F#16, 0x8006#16⟩, by decide, rfl, by simp [OpcodeRow.covers, encode, and_F00F]⟩

theorem Laws.EncodeMatchesRow.shl (x : Reg) : Statement (.shl x) := fun _ =>
  ⟨⟨"SHL_Vx", 0xF00F#16, 0x800E#16⟩, by decide, rfl, by simp [OpcodeRow.covers, encode, and_F00F]⟩

theorem Laws.EncodeMatchesRow.rnd (x : Reg) (kk : Byte) : Statement (.rnd x kk) := fun _ =>
  ⟨⟨"RND_Vx__kk", 0xF000#16, 0xC000#16⟩, by decide, rfl, by simp [OpcodeRow.covers, encode, and_F000]⟩

theorem Laws.EncodeMatchesRow.drw (x : Reg) (y : Reg) (n : Nibble) : Statement (.drw x y n) := fun _ =>
  ⟨⟨"DRW_Vx__Vy__n", 0xF000#16, 0xD000#16⟩, by decide, rfl, by simp [OpcodeRow.covers, encode, and_F000]⟩

theorem Laws.EncodeMatchesRow.skp (x : Reg) : Statement (.skp x) := fun _ =>
  ⟨⟨"SKP_Vx", 0xF0FF#16, 0xE09E#16⟩, by decide, rfl, by simp [OpcodeRow.covers, encode, and_F0FF]⟩

theorem Laws.EncodeMatchesRow.sknp (x : Reg) : Statement (.sknp x) := fun _ =>
  ⟨⟨"SKNP_Vx", 0xF0FF#16, 0xE0A1#16⟩, by decide, rfl, by simp [OpcodeRow.covers, encode, and_F0FF]⟩

theorem Laws.EncodeMatchesRow.ldVxDT (x : Reg) : Statement (.ldVxDT x) := fun _ =>
  ⟨⟨"LD_Vx__DT", 0xF0FF#16, 0xF007#16⟩, by decide, rfl, by simp [OpcodeRow.covers, encode, and_F0FF]⟩

theorem Laws.EncodeMatchesRow.ldDTVx (x : Reg) : Statement (.ldDTVx x) := fun _ =>
  ⟨⟨"LD_DT__Vx", 0xF0FF#16, 0xF015#16⟩, by decide, rfl, by simp [OpcodeRow.covers, encode, and_F0FF]⟩

theorem Laws.EncodeMatchesRow.ldSTVx (x : Reg) : Statement (.ldSTVx x) := fun _ =>
  ⟨⟨"LD_ST__Vx", 0xF0FF#16, 0xF018#16⟩, by decide, rfl, by simp [OpcodeRow.covers, encode, and_F0FF]⟩

theorem Laws.EncodeMatchesRow.ldVxK (x : Reg) : Statement (.ldVxK x) := fun _ =>
  ⟨⟨"LD_Vx__K", 0xF0FF#16, 0xF00A#16⟩, by decide, rfl, by simp [OpcodeRow.covers, encode, and_F0FF]⟩

theorem Laws.EncodeMatchesRow.addI (x : Reg) : Statement (.addI x) := fun _ =>
  ⟨⟨"ADD_I__Vx", 0xF0FF#16, 0xF01E#16⟩, by decide, rfl, by simp [OpcodeRow.covers, encode, and_F0FF]⟩

theorem Laws.EncodeMatchesRow.ldF (x : Reg) : Statement (.ldF x) := fun _ =>
  ⟨⟨"LD_F__Vx", 0xF0FF#16, 0xF029#16⟩, by decide, rfl, by simp [OpcodeRow.covers, encode, and_F0FF]⟩

theorem Laws.EncodeMatchesRow.ldI (nnn : Addr) : Statement (.ldI nnn) := fun _ =>
  ⟨⟨"LD_I__nnn", 0xF000#16, 0xA000#16⟩, by decide, rfl, by simp [OpcodeRow.covers, encode, and_F000]⟩

theorem Laws.EncodeMatchesRow.ldB (x : Reg) : Statement (.ldB x) := fun _ =>
  ⟨⟨"LD_B__Vx", 0xF0FF#16, 0xF033#16⟩, by decide, rfl, by simp [OpcodeRow.covers, encode, and_F0FF]⟩

theorem Laws.EncodeMatchesRow.stRegs (x : Reg) : Statement (.stRegs x) := fun _ =>
  ⟨⟨"LD__I___Vx", 0xF0FF#16, 0xF055#16⟩, by decide, rfl, by simp [OpcodeRow.covers, encode, and_F0FF]⟩

theorem Laws.EncodeMatchesRow.ldRegs (x : Reg) : Statement (.ldRegs x) := fun _ =>
  ⟨⟨"LD_Vx___I", 0xF0FF#16, 0xF065#16⟩, by decide, rfl, by simp [OpcodeRow.covers, encode, and_F0FF]⟩

end Sys2Proof
end

