-- ==== Sys2Proof/Tests/Slice0.lean ====
section
/-! SUPPORT. The model's own tests: the well-formedness smoke, the decoding of words written out from the encodings, at most two
small theorems per instruction on one step, and a witness for every statement that has hypotheses. Expected results come from
spec/95_test_vectors.md (the vector's id is named), from the rules' examples, or by hand from the rule named. -/

namespace Sys2Proof.Tests

open Sys2Proof.Machine

/-! ## Helpers -/

/-- The answer is a next state. -/
def isNext (a : Answer) : Bool :=
  match a with
  | .next _ => true
  | .fault _ => false
  | .refused _ => false

/-- The next state of an answer (the reset state where there is none). -/
def nextOf (a : Answer) : State :=
  match a with
  | .next t => t
  | .fault _ => State.reset
  | .refused _ => State.reset

theorem eq_next {a : Answer} (h : isNext a = true) : a = .next (nextOf a) := by
  cases a with
  | next t => rfl
  | fault r => cases r
  | refused r => cases h

/-- The reset state with a word placed for the fetch. -/
def ready (w : Nat) : State := State.reset.withFetchWord 16 w

/-- The reset state with two registers preset. -/
def regs (x : Reg) (a : Byte) (y : Reg) (b : Byte) : State := (State.reset.setV x a).setV y b

/-- The reset state with `I` preset and bytes stored there. -/
def dataAt (a : Nat) (bs : List Byte) : State := (State.reset.setI (BitVec.ofNat 16 a)).storeBytes a bs

/-- The reset state with `SP` entries on the stack, each `w`. -/
def pushed (n : Nat) (w : Word) : State :=
  match n with
  | 0 => State.reset
  | n + 1 => (pushed n w).push w

/-- One `exec`, seen through its next state. -/
def run (i : Instr) (s : State) : State := nextOf (exec i s)

/-! ## Well-formedness: an ill-formed term for each check, which the check refuses -/

theorem test_wf_refuses_sys_cls : (Instr.sys 0x0E0#12).wellFormed = false := by decide
theorem test_wf_refuses_sys_ret : (Instr.sys 0x0EE#12).wellFormed = false := by decide
theorem test_wf_accepts_sys : (Instr.sys 0x1E0#12).wellFormed = true := by decide

/-- The refused terms have no word of their own: the words they would take are `CLS` and `RET` (R64). -/
theorem test_wf_why : decodeWord (encode (.sys 0x0E0#12)) = .ok .cls ∧ decodeWord (encode (.sys 0x0EE#12)) = .ok .ret := by
  decide

/-! ## Decoding: one word per constructor, written out from R62 and R64 -/

theorem test_decode_cls : decodeWord 0b0000_0000_1110_0000#16 = .ok (.cls) := by decide
theorem test_decode_ret : decodeWord 0b0000_0000_1110_1110#16 = .ok (.ret) := by decide
theorem test_decode_sys : decodeWord 0b0000_0001_0010_0011#16 = .ok (.sys 0x123) := by decide
theorem test_decode_jp : decodeWord 0b0001_1010_1011_1100#16 = .ok (.jp 0xABC) := by decide
theorem test_decode_jpV0 : decodeWord 0b1011_0010_1111_1111#16 = .ok (.jpV0 0x2FF) := by decide
theorem test_decode_call : decodeWord 0b0010_0010_0000_0100#16 = .ok (.call 0x204) := by decide
theorem test_decode_seImm : decodeWord 0b0011_0011_1111_1111#16 = .ok (.seImm 3 0xFF) := by decide
theorem test_decode_sneImm : decodeWord 0b0100_1010_0001_0010#16 = .ok (.sneImm 0xA 0x12) := by decide
theorem test_decode_seReg : decodeWord 0b0101_0001_0010_1111#16 = .ok (.seReg 1 2) := by decide
theorem test_decode_sneReg : decodeWord 0b1001_0001_0010_0101#16 = .ok (.sneReg 1 2) := by decide
theorem test_decode_ldImm : decodeWord 0b0110_0000_0000_0101#16 = .ok (.ldImm 0 5) := by decide
theorem test_decode_ldReg : decodeWord 0b1000_1010_1111_0000#16 = .ok (.ldReg 0xA 0xF) := by decide
theorem test_decode_addImm : decodeWord 0b0111_0000_0000_0011#16 = .ok (.addImm 0 3) := by decide
theorem test_decode_orReg : decodeWord 0b1000_0001_0010_0001#16 = .ok (.orReg 1 2) := by decide
theorem test_decode_andReg : decodeWord 0b1000_0001_0010_0010#16 = .ok (.andReg 1 2) := by decide
theorem test_decode_xorReg : decodeWord 0b1000_0001_0010_0011#16 = .ok (.xorReg 1 2) := by decide
theorem test_decode_addReg : decodeWord 0b1000_1111_0001_0100#16 = .ok (.addReg 0xF 1) := by decide
theorem test_decode_subReg : decodeWord 0b1000_0001_0010_0101#16 = .ok (.subReg 1 2) := by decide
theorem test_decode_subnReg : decodeWord 0b1000_0010_0001_0111#16 = .ok (.subnReg 2 1) := by decide
theorem test_decode_shr : decodeWord 0b1000_0001_0010_0110#16 = .ok (.shr 1) := by decide
theorem test_decode_shl : decodeWord 0b1000_0001_0010_1110#16 = .ok (.shl 1) := by decide
theorem test_decode_rnd : decodeWord 0b1100_0001_0000_1111#16 = .ok (.rnd 1 0x0F) := by decide
theorem test_decode_drw : decodeWord 0b1101_0001_0010_0101#16 = .ok (.drw 1 2 5) := by decide
theorem test_decode_skp : decodeWord 0b1110_0010_1001_1110#16 = .ok (.skp 2) := by decide
theorem test_decode_sknp : decodeWord 0b1110_0010_1010_0001#16 = .ok (.sknp 2) := by decide
theorem test_decode_ldVxDT : decodeWord 0b1111_0011_0000_0111#16 = .ok (.ldVxDT 3) := by decide
theorem test_decode_ldDTVx : decodeWord 0b1111_0011_0001_0101#16 = .ok (.ldDTVx 3) := by decide
theorem test_decode_ldSTVx : decodeWord 0b1111_0011_0001_1000#16 = .ok (.ldSTVx 3) := by decide
theorem test_decode_ldVxK : decodeWord 0b1111_0101_0000_1010#16 = .ok (.ldVxK 5) := by decide
theorem test_decode_addI : decodeWord 0b1111_0010_0001_1110#16 = .ok (.addI 2) := by decide
theorem test_decode_ldF : decodeWord 0b1111_0100_0010_1001#16 = .ok (.ldF 4) := by decide
theorem test_decode_ldI : decodeWord 0b1010_0011_0000_0000#16 = .ok (.ldI 0x300) := by decide
theorem test_decode_ldB : decodeWord 0b1111_0001_0011_0011#16 = .ok (.ldB 1) := by decide
theorem test_decode_stRegs : decodeWord 0b1111_0010_0101_0101#16 = .ok (.stRegs 2) := by decide
theorem test_decode_ldRegs : decodeWord 0b1111_0010_0110_0101#16 = .ok (.ldRegs 2) := by decide

theorem test_decode_invalid_8 : decodeWord 0x8008#16 = .error (.invalidOpcode 0x8008#16) := by decide
theorem test_decode_invalid_E : decodeWord 0xE29F#16 = .error (.invalidOpcode 0xE29F#16) := by decide
theorem test_decode_invalid_F : decodeWord 0xF000#16 = .error (.invalidOpcode 0xF000#16) := by decide
theorem test_decode_truncated : decodeBytes [0x60#8] = .error .truncated := by decide
theorem test_decode_bytes_rest : decodeBytes [0x60#8, 0x05#8, 0x70#8] = .ok (.ldImm 0 5, [0x70#8]) := by decide
theorem test_decode_table_word : decodeTableWord 16 0x2204 = some (.call 0x204) := by decide

/-! ## System and control flow -/

/-- VA1, from a display with one pixel set. -/
theorem test_cls : (run .cls (State.reset.togglePixel (3, 2))).fb = State.reset.fb ∧
    (run .cls State.reset).pc = 0x202#16 := by decide

/-- VA4: a full stack pops `STACK[15]`. -/
theorem test_ret_full : (run .ret (pushed 16 0x30F#16)).pc = 0x30F#16 ∧ (run .ret (pushed 16 0x30F#16)).sp = 15 := by decide

/-- VA3. -/
theorem test_ret_empty : run .ret State.reset = State.reset.raise .stackUnderflow := by decide

/-- VA8: 0x0FEE is `SYS` and leaves the stack alone. -/
theorem test_sys : run (.sys 0xFEE#12) (pushed 1 0xABC#16) = (pushed 1 0xABC#16).setPc 0x202#16 := by decide

/-- VA10. -/
theorem test_jp_odd : run (.jp 0x201#12) State.reset = State.reset.setPc 0x201#16 := by decide

/-- VA13: the sum is not reduced modulo 4096. -/
theorem test_jpV0_beyond : (run (.jpV0 0xFFF#12) (State.reset.setV 0 0xFF#8)).pc = 0x10FE#16 := by decide

/-- VA14: the register is `V0`, not `V2`. -/
theorem test_jpV0_uses_v0 : (run (.jpV0 0x2FF#12) (State.reset.setV 2 0x55#8)).pc = 0x2FF#16 := by decide

/-- VA17: the sixteenth level succeeds. -/
theorem test_call_sixteenth : (run (.call 0x300#12) (pushed 15 0#16)).stack[15] = 0x202#16 ∧
    (run (.call 0x300#12) (pushed 15 0#16)).sp = 16 := by decide

/-- VA18. -/
theorem test_call_full : run (.call 0x300#12) (pushed 16 0x202#16) = (pushed 16 0x202#16).raise .stackOverflow := by decide

/-- VA20, VA21: boundary 255. -/
theorem test_seImm : (run (.seImm 0 0xFF#8) (State.reset.setV 0 0xFF#8)).pc = 0x204#16 ∧
    (run (.seImm 0 0xFF#8) State.reset).pc = 0x202#16 := by decide

/-- VA32: a taken skip in the last word. -/
theorem test_seImm_last : (run (.seImm 0 0#8) (State.reset.setPc 0xFFE#16)).pc = 0x1002#16 := by decide

/-- VA23, VA24. -/
theorem test_sneImm : (run (.sneImm 0xA 0x12#8) (State.reset.setV 0xA 0x12#8)).pc = 0x202#16 ∧
    (run (.sneImm 0xA 0x12#8) (State.reset.setV 0xA 0x13#8)).pc = 0x204#16 := by decide

/-- VA25, VA26. -/
theorem test_seReg : (run (.seReg 1 2) (regs 1 7#8 2 7#8)).pc = 0x204#16 ∧
    (run (.seReg 1 2) (regs 1 7#8 2 8#8)).pc = 0x202#16 := by decide

/-- VA29, VA30. -/
theorem test_sneReg : (run (.sneReg 1 2) (regs 1 7#8 2 8#8)).pc = 0x204#16 ∧
    (run (.sneReg 1 2) (regs 1 7#8 2 7#8)).pc = 0x202#16 := by decide

/-! ## Loads and arithmetic -/

/-- VB2: an ordinary write of `VF`. -/
theorem test_ldImm : run (.ldImm 0xF 0xAB#8) State.reset = (State.reset.setV 0xF 0xAB#8).setPc 0x202#16 := by decide

/-- VB3. -/
theorem test_ldReg : (run (.ldReg 1 2) (State.reset.setV 2 0xAB#8)).getV 1 = 0xAB#8 := by decide

/-- VB5: wraps, `VF` unchanged. -/
theorem test_addImm : run (.addImm 0 2#8) (State.reset.setV 0 0xFF#8) = (State.reset.setV 0 1#8).setPc 0x202#16 := by decide

/-- VB7: `VF` kept. -/
theorem test_orReg : (run (.orReg 1 2) ((regs 1 0xF0#8 2 0x0F#8).setV 0xF 1#8)).getV 1 = 0xFF#8 ∧
    (run (.orReg 1 2) ((regs 1 0xF0#8 2 0x0F#8).setV 0xF 1#8)).getV 0xF = 1#8 := by decide

/-- VB8. -/
theorem test_andReg : (run (.andReg 1 2) (regs 1 0xFC#8 2 0x3F#8)).getV 1 = 0x3C#8 := by decide

/-- VB9. -/
theorem test_xorReg : (run (.xorReg 1 2) (regs 1 0xFF#8 2 0x0F#8)).getV 1 = 0xF0#8 := by decide

/-- VB16: `x = F`, the flag wins and the sum is lost. -/
theorem test_addReg_flag_wins : (run (.addReg 0xF 1) (regs 0xF 0xF0#8 1 0x20#8)).getV 0xF = 1#8 := by decide

/-- VB14: a sum of exactly 255 has no carry. -/
theorem test_addReg_255 : (run (.addReg 1 2) (regs 1 0x80#8 2 0x7F#8)).getV 1 = 0xFF#8 ∧
    (run (.addReg 1 2) (regs 1 0x80#8 2 0x7F#8)).getV 0xF = 0#8 := by decide

/-- VB19: borrow. -/
theorem test_subReg_borrow : (run (.subReg 1 2) (regs 1 3#8 2 5#8)).getV 1 = 0xFE#8 ∧
    (run (.subReg 1 2) (regs 1 3#8 2 5#8)).getV 0xF = 0#8 := by decide

/-- VB20: equal operands give `VF = 1`. -/
theorem test_subReg_equal : (run (.subReg 1 2) (regs 1 7#8 2 7#8)).getV 0xF = 1#8 := by decide

/-- VB23. -/
theorem test_subnReg : (run (.subnReg 1 2) (regs 1 3#8 2 5#8)).getV 1 = 2#8 ∧
    (run (.subnReg 1 2) (regs 1 3#8 2 5#8)).getV 0xF = 1#8 := by decide

/-- VB26. -/
theorem test_shr : (run (.shr 1) (State.reset.setV 1 5#8)).getV 1 = 2#8 ∧
    (run (.shr 1) (State.reset.setV 1 5#8)).getV 0xF = 1#8 := by decide

/-- VB29: `x = F`. -/
theorem test_shr_flag_wins : (run (.shr 0xF) (State.reset.setV 0xF 3#8)).getV 0xF = 1#8 := by decide

/-- VB30. -/
theorem test_shl : (run (.shl 1) (State.reset.setV 1 0x81#8)).getV 1 = 2#8 ∧
    (run (.shl 1) (State.reset.setV 1 0x81#8)).getV 0xF = 1#8 := by decide

/-! ## Random and draw -/

/-- R140's corner case: a bit of `V[x]` can be 1 only where `kk` has a 1, whatever is drawn. -/
theorem test_rnd_masked : (run (.rnd 1 0x0F#8) State.reset).getV 1 &&& 0xF0#8 = 0#8 := by
  have h : (run (.rnd 1 0x0F#8) State.reset).getV 1 = Config.randByte 0 &&& 0x0F#8 := State.getV_setV_self _ _ _
  rw [h, BitVec.and_assoc]; simp

/-- One byte is drawn (R140). -/
theorem test_rnd_draws_once : (run (.rnd 1 0x0F#8) State.reset).randDraws = 1 := rfl

/-- VC4: bit 0 wraps in x. -/
theorem test_drw_wraps : ((regs 0 62#8 1 31#8).setI 0x300#16 |>.storeBytes 0x300 [0x81#8]).drwPixels 0 1 1 = [(62, 31), (5, 31)] := by
  decide

/-- VC6: one pixel of two collides. -/
theorem test_drw_collides : (run (.drw 0 1 1) ((dataAt 0x300 [0xC0#8]).togglePixel (1, 0))).getV 0xF = 1#8 ∧
    (run (.drw 0 1 1) ((dataAt 0x300 [0xC0#8]).togglePixel (1, 0))).pixel (1, 0) = false := by decide

/-! ## Keys and timers -/

/-- VD5: the high nibble of `Vx` is ignored. -/
theorem test_skp_low_nibble : (run (.skp 2) (State.reset.setV 2 0x1A#8)).pc =
    if Config.keyDown 0 0xA then 0x204#16 else 0x202#16 := rfl

/-- VD3, VD4. -/
theorem test_sknp : (run (.sknp 2) (State.reset.setV 2 0x0A#8)).pc =
    if Config.keyDown 0 0xA then 0x202#16 else 0x204#16 := by
  cases h : Config.keyDown 0 0xA <;> simp [run, nextOf, exec, execSknp, State.keyDown, State.reset, lowNibble, State.getV,
    State.setV, State.skipIf, State.countKeyQuery, State.setPc, Config.programBase, h]

/-- VD8. -/
theorem test_ldVxDT : (run (.ldVxDT 3) (State.reset.setDt 0x3C#8)).getV 3 = 0x3C#8 := by decide

/-- VD9. -/
theorem test_ldDTVx : run (.ldDTVx 3) (State.reset.setV 3 0x3C#8) =
    ((State.reset.setV 3 0x3C#8).setDt 0x3C#8).setPc 0x202#16 := by decide

/-- VD10. -/
theorem test_ldSTVx : (run (.ldSTVx 3) (State.reset.setV 3 2#8)).st = 2#8 := by decide

/-- VD11: no event, the machine stalls. -/
theorem test_ldVxK_stall : State.takeKey State.reset 5 none = State.reset.setRun .awaitKey := by decide

/-- VX13: the largest key code, into `VF`, out of `AWAIT_KEY`. -/
theorem test_ldVxK_key : ((State.reset.setRun .awaitKey).takeKey 0xF (some 0xF)) =
    (State.reset.setV 0xF 0x0F#8).setPc 0x202#16 := by decide

/-! ## Index and memory -/

/-- VE2, VE3: no wrap at 4096, wrap at 2^16. -/
theorem test_addI : (run (.addI 2) ((State.reset.setV 2 1#8).setI 0xFFF#16)).i = 0x1000#16 ∧
    (run (.addI 2) ((State.reset.setV 2 1#8).setI 0xFFFF#16)).i = 0#16 := by decide

/-- VE4: low nibble A. -/
theorem test_ldF : (run (.ldF 4) (State.reset.setV 4 0x1A#8)).i = 0x32#16 := by decide

/-- VE8. -/
theorem test_ldI : (run (.ldI 0xFFF#12) State.reset).i = 0xFFF#16 := by decide

/-- VE12: the last legal `I`. -/
theorem test_ldB : (run (.ldB 1) ((State.reset.setV 1 0x7B#8).setI 0xFFD#16)).mem.readBytes 0xFFD 3 = [1#8, 2#8, 3#8] := by decide

/-- VE13. -/
theorem test_ldB_beyond : run (.ldB 1) (State.reset.setI 0xFFE#16) = (State.reset.setI 0xFFE#16).raise .dataOutOfBounds := by decide

/-- VE14: `V0` to `V2` only, `I` kept. -/
theorem test_stRegs : (run (.stRegs 2) ((((regs 0 0x11#8 1 0x22#8).setV 2 0x33#8).setV 3 0x44#8).setI 0x400#16)).mem.readBytes 0x400 4 =
    [0x11#8, 0x22#8, 0x33#8, 0#8] := by decide

/-- VE16: nothing written. -/
theorem test_stRegs_beyond : run (.stRegs 1) ((regs 0 0x99#8 1 0x98#8).setI 0xFFF#16) =
    ((regs 0 0x99#8 1 0x98#8).setI 0xFFF#16).raise .dataOutOfBounds := by decide

/-- VE17: `V0` to `V2` only. -/
theorem test_ldRegs : run (.ldRegs 2) ((dataAt 0x400 [0x11#8, 0x22#8, 0x33#8, 0x44#8]).setV 3 0x77#8) =
    (((((dataAt 0x400 [0x11#8, 0x22#8, 0x33#8, 0x44#8]).setV 3 0x77#8).setV 0 0x11#8).setV 1 0x22#8).setV 2 0x33#8).setPc 0x202#16 := by
  decide

/-- VE19: font byte 0. -/
theorem test_ldRegs_font : (run (.ldRegs 0) State.reset).getV 0 = 0xF0#8 := by decide

/-! ## Fetch, run state, timers, memory -/

/-- VX1: 0xFFE is the last legal fetch address. -/
theorem test_fetch_last : (nextOf (tick ((State.reset.setPc 0xFFE#16).withFetchWord 16 0x6005))).pc = 0x1000#16 := by decide

/-- VX2: 0xFFF faults, `IR` unchanged. -/
theorem test_fetch_beyond : nextOf (tick (State.reset.setPc 0xFFF#16)) = (State.reset.setPc 0xFFF#16).raise .fetchOutOfBounds := by
  decide

/-- VX5: an odd `PC`. -/
theorem test_fetch_odd : (nextOf (tick ((State.reset.setPc 0x201#16).withFetchWord 16 0x6107))).getV 1 = 7#8 := by decide

/-- VB34: an invalid word halts the machine, with `IR` written. -/
theorem test_invalid_opcode : nextOf (tick (ready 0x8008)) = { ready 0x8008 with ir := 0x8008#16, run := .halted, err := .invalidOpcode } := by
  decide

/-- VX6: a halted machine ignores the tick. -/
theorem test_halted : nextOf (tick (State.reset.raise .invalidOpcode)) = State.reset.raise .invalidOpcode := by decide

/-- P3, ticks 24 and 25: on arrival at the self-jump `IR` is still F265 and the run has not ended; one tick later it has. -/
theorem test_runEnd : runEnd { (State.reset.setPc 0x212#16).withFetchWord 16 0x1212 with ir := 0xF265#16 } = none ∧
    runEnd { (State.reset.setPc 0x212#16).withFetchWord 16 0x1212 with ir := 0x1212#16 } = some .fixedPoint ∧
    runEnd (State.reset.raise .stackOverflow) = some .fatalError ∧ runEnd (State.reset.setRun .awaitKey) = none := by
  decide

/-- VX8, VX10. -/
theorem test_timer_tick : (State.reset.setDt 2#8).timerTick = State.reset.setDt 1#8 ∧
    ((State.reset.setDt 5#8).setRun .awaitKey).timerTick = (State.reset.setDt 5#8).setRun .awaitKey := by decide

/-- A step from reset runs the word placed at the fetch, whatever the timers do before it (S1). -/
theorem test_step_runs_placed : (nextOf (step (ready 0x6005))).v = (State.reset.setV 0 5#8).v := by
  rw [step, stepOnce, ready]; rfl

/-- R220: a `tick`, a `TimerTick`, a `Load` of `LD V1, 0x07` and a `tick` of it, in this order. -/
theorem test_acts_in_order : nextOf (acts [.tick, .timerTick, .load [0x61#8, 0x07#8], .tick] ((ready 0x6005).setDt 2#8)) =
    { State.reset.loadImage [0x61#8, 0x07#8] with v := State.reset.v.set 1 7#8, pc := 0x202#16, ir := 0x6107#16 } := by
  decide

/-- R228, R250: `Load` leaves `HALTED`, makes no display call and starts no count again; an image too long changes nothing. -/
theorem test_load_over : nextOf (step ((((State.reset.togglePixel (5, 0)).countRand.setPc 0x300#16).raise .invalidOpcode).withAgenda [.load []])) =
    { State.reset with fb := (State.reset.togglePixel (5, 0)).fb, randDraws := 1 } := by
  decide

/-- R228, R250: nothing acts on a discarded machine until a `Load` creates one. -/
theorem test_discard : nextOf (acts [.discard, .tick, .timerTick] (ready 0x6005)) = (ready 0x6005).discard ∧
    nextOf (acts [.discard, .load []] State.reset) = State.reset := by
  decide

/-- Writing what an unlisted byte reads as removes the entry (the canonical form). -/
theorem test_memory_canonical : Mem.write (Mem.write [] 0x300 7#8) 0x300 0#8 = [] ∧ Mem.write [] 0x000 0xF0#8 = [] ∧
    Mem.write [] 0x000 0#8 = [(0, 0#8)] := by decide

/-- A halted state is made ready for the fetch, and so is one whose `PC` is beyond memory. -/
theorem test_place_from_halted : (nextOf (tick (((State.reset.setPc 0x1000#16).raise .fetchOutOfBounds).withFetchWord 16 0x6005))).getV 0 = 5#8 := by
  decide

/-! ## Witnesses: for every statement with hypotheses, a state and operands that meet them together, at a boundary for each clause -/

theorem witness_InvalidOpcodeIsFatal : (ready 0xF000).run ≠ .halted ∧ Fetches (ready 0xF000) 0xF000#16 ∧ InvalidWord 0xF000 := by decide
theorem witness_DecodeOfEncode : (Instr.drw 15 15 15).wellFormed = true ∧ (Instr.sys 0xFFF#12).wellFormed = true := by decide
theorem witness_InvalidWordsAreExactly : (0x7FFF#16).toNat / 4096 ∉ [0x8, 0xE, 0xF] := by decide
theorem witness_EncodeOfDecode : decodeWord 0x512F#16 = .ok (.seReg 1 2) ∧ canonicalWord 0x5120#16 = canonicalWord 0x512F#16 := by decide
theorem witness_DecodeMatchesOpcodeMap : (⟨"CLS", 0xFFFF#16, 0x00E0#16⟩ : OpcodeRow) ∈ opcodeRows ∧
    (⟨"SYS_nnn", 0xF000#16, 0x0000#16⟩ : OpcodeRow) ∈ opcodeRows ∧
    (⟨"CLS", 0xFFFF#16, 0x00E0#16⟩ : OpcodeRow).covers 0x00E0#16 = true ∧
    (⟨"SYS_nnn", 0xF000#16, 0x0000#16⟩ : OpcodeRow).covers 0x00E0#16 = true := by decide
theorem witness_Load_too_long : 3584 < (List.replicate 3585 0#8).length := by rw [List.length_replicate]; decide
theorem witness_Load_longest : (List.replicate 3584 0#8).length ≤ 3584 := le_of_eq List.length_replicate
theorem witness_FontIsLoaded : load [0x60#8, 0x05#8] = some (State.reset.storeBytes 0x200 [0x60#8, 0x05#8]) := rfl
theorem witness_TimerTick : State.reset.run = .running ∧ (State.reset.setRun .awaitKey).run = .awaitKey ∧
    (State.reset.raise .stackOverflow).run = .halted := by decide
theorem witness_TimerEvents : (State.reset.setRun .awaitKey).run ≠ .running := by decide
theorem witness_PlacedWordRunsNext : decodeTableWord 16 0xFF65 = some (.ldRegs 15) ∧
    State.reset.run ≠ .halted ∧ (State.reset.setPc 0xFFE#16).pc.toNat ≤ 0xFFE := by decide
theorem witness_Tick_beyond : (State.reset.setPc 0xFFF#16).run ≠ .halted ∧ 4096 - 2 < (State.reset.setPc 0xFFF#16).pc.toNat := by decide
theorem witness_Tick_inside : (State.reset.setPc 0xFFE#16).run ≠ .halted ∧ (State.reset.setPc 0xFFE#16).pc.toNat ≤ 4096 - 2 ∧
    decodeWord 0x6005#16 = .ok (.ldImm 0 5) ∧ decodeWord 0x8008#16 = .error (.invalidOpcode 0x8008#16) := by decide
theorem witness_FetchErrorExactly : ∃ t, (State.reset.setPc 0xFFF#16).run ≠ .halted ∧ tick (State.reset.setPc 0xFFF#16) = .next t :=
  ⟨_, by decide, eq_next (by decide)⟩
theorem witness_StepRunsDecodedInstruction : (ready 0x6005).present = true ∧ (ready 0x6005).agenda = [] ∧
    ((ready 0x6005).withAgenda [.tick]).agenda = .tick :: [] ∧ (ready 0x6005).run ≠ .halted ∧ Fetches (ready 0x6005) 0x6005#16 ∧
    decodeWord 0x6005#16 = .ok (.ldImm 0 5) := by decide
theorem witness_HaltedTickIsIgnored : (State.reset.raise .invalidOpcode).run = .halted ∧
    (State.reset.raise .invalidOpcode).agenda = [] ∧
    step ((State.reset.raise .invalidOpcode).withAgenda [.load []]) = .next (State.reset.loadImage []) := by
  refine ⟨by decide, by decide, rfl⟩
theorem witness_AnyInterleavingIsARun : State.reset.agenda = [] ∧ State.reset.present = true ∧
    State.reset.discard.agenda = [] ∧ State.reset.discard.present = false ∧ (List.replicate 3584 0#8).length ≤ 3584 :=
  ⟨rfl, rfl, rfl, rfl, le_of_eq List.length_replicate⟩
theorem witness_FatalErrorsArePrecise : ∃ t, (ready 0x00EE).run ≠ .halted ∧ tick (ready 0x00EE) = .next t ∧ t.run = .halted :=
  ⟨_, by decide, eq_next (by decide), by decide⟩
theorem witness_FatalErrors_beyond : ∃ t, (State.reset.setPc 0xFFFF#16).run ≠ .halted ∧
    tick (State.reset.setPc 0xFFFF#16) = .next t ∧ t.run = .halted ∧ 0xFFE < (State.reset.setPc 0xFFFF#16).pc.toNat :=
  ⟨_, by decide, eq_next (by decide), by decide, by decide⟩
theorem witness_ErrorPriority_invalid : ∃ t, (ready 0x8008).run ≠ .halted ∧ tick (ready 0x8008) = .next t ∧ t.run = .halted :=
  ⟨_, by decide, eq_next (by decide), by decide⟩

/-- A machine waiting for a key at a `LD V5, K`, with a call outstanding and a byte stored. -/
def waiting : State :=
  { ((ready 0xF50A).push 0x202#16).storeBytes 0x300 [7#8] with ir := 0xF50A#16, run := .awaitKey }

theorem waiting_inv : waiting.Inv where
  memWf := by decide
  errIffHalted := by decide
  pcBound := by decide
  stackBound := by decide
  keyWait _ := ⟨by decide, 5, by decide⟩

theorem witness_AwaitKeyTicksLikeRunning : waiting.run = .awaitKey ∧ waiting.Inv := ⟨by decide, waiting_inv⟩

theorem witness_Stall_at_key_wait : waiting.run ≠ .halted ∧ Fetches waiting 0xF50A#16 ∧ decodeWord 0xF50A#16 = .ok (.ldVxK 5) := by
  decide
theorem witness_Stall_elsewhere : ∃ t, (State.reset.setPc 0xFFF#16).run ≠ .halted ∧
    (∀ op x, Fetches (State.reset.setPc 0xFFF#16) op → decodeWord op ≠ .ok (.ldVxK x)) ∧
    tick (State.reset.setPc 0xFFF#16) = .next t :=
  ⟨_, by decide, fun _ _ h => absurd h.1 (by decide), eq_next (by decide)⟩

/-- A running state that meets the invariant and takes a step. -/
theorem witness_StepKeepsInvariant : ∃ t, ((ready 0x6005).push 0x1000#16).Inv ∧ step ((ready 0x6005).push 0x1000#16) = .next t :=
  ⟨_, { memWf := by decide, errIffHalted := by decide, pcBound := by decide, stackBound := by decide,
        keyWait := fun h => absurd h (by decide) }, by rw [step, stepOnce]; exact eq_next rfl⟩

/-- A machine that has arrived at a `JP V0` to itself by another instruction. -/
def arrivedV0 : State := (ready 0xB1FE).setV 0 2#8

theorem witness_SelfJump : (ready 0x1200).atSelfJump ∧ arrivedV0.atSelfJump :=
  ⟨⟨rfl, rfl, 0x1200#16, .jp 0x200, by decide⟩, ⟨rfl, rfl, 0xB1FE#16, .jpV0 0x1FE, by decide⟩⟩
theorem witness_RunEnd : runEnd (nextOf (tick (ready 0x1200))) = some .fixedPoint ∧
    runEnd (nextOf (tick arrivedV0)) = some .fixedPoint ∧ (State.reset.setRun .awaitKey).run = .awaitKey ∧
    (nextOf (tick arrivedV0)).agenda = [] := by decide
theorem witness_PcAfterTick : ∃ t, (ready 0x3000).run ≠ .halted ∧ Fetches (ready 0x3000) 0x3000#16 ∧
    decodeWord 0x3000#16 = .ok (.seImm 0 0) ∧ tick (ready 0x3000) = .next t ∧ t.run = .running :=
  ⟨_, by decide, by decide, by decide, eq_next (by decide), by decide⟩
theorem witness_PcAfterTick_fatal : ∃ t, (ready 0x00EE).run ≠ .halted ∧ Fetches (ready 0x00EE) 0x00EE#16 ∧
    decodeWord 0x00EE#16 = .ok .ret ∧ tick (ready 0x00EE) = .next t ∧ t.run ≠ .running :=
  ⟨_, by decide, by decide, by decide, eq_next (by decide), by decide⟩

/-- The hypothesis of the statements about who may write what (flags, index, stack, timers, display, memory). -/
theorem witness_exec_next : exec (.addReg 15 1) State.reset = .next (run (.addReg 15 1) State.reset) := rfl
theorem witness_flags : isDestination (.addReg 0 1) 2 = false ∧ ¬((2 : Reg) = regF ∧ writesFlag (.addReg 0 1) = true) ∧
    writesFlag (.drw 0 1 1) = true := by decide
theorem witness_stack_call : (pushed 15 0#16).sp.val < 16 ∧ ((0 : Fin 16).val ≠ (pushed 15 0#16).sp.val) ∧
    exec (.call 0x300#12) (pushed 15 0#16) = .next (run (.call 0x300#12) (pushed 15 0#16)) := ⟨by decide, by decide, rfl⟩
theorem witness_stack_ret : (pushed 1 0#16).sp.val ≠ 0 ∧ exec .ret (pushed 1 0#16) = .next (run .ret (pushed 1 0#16)) :=
  ⟨by decide, rfl⟩
theorem witness_memory_inside : exec (.ldB 1) (State.reset.setI 0xFFD#16) = .next (run (.ldB 1) (State.reset.setI 0xFFD#16)) ∧
    2 < (storedBytes (.ldB 1) (State.reset.setI 0xFFD#16)).length ∧
    (State.reset.setI 0xFFD#16).i.toNat + (storedBytes (.ldB 1) (State.reset.setI 0xFFD#16)).length ≤ 4096 ∧
    0xFFC < (State.reset.setI 0xFFD#16).i.toNat := ⟨rfl, by decide, by decide, by decide⟩
theorem witness_memory_beyond : exec (.ldB 1) (State.reset.setI 0xFFE#16) = .next (run (.ldB 1) (State.reset.setI 0xFFE#16)) ∧
    4096 < (State.reset.setI 0xFFE#16).i.toNat + (storedBytes (.ldB 1) (State.reset.setI 0xFFE#16)).length ∧
    storedBytes (.ldB 1) (State.reset.setI 0xFFE#16) ≠ [] := ⟨rfl, by decide, by decide⟩
theorem witness_memory_none : storedBytes .cls State.reset = [] := by decide

theorem witness_RetPopsIntoPc : State.reset.sp = 0 ∧ (pushed 16 0x30F#16).sp.val = (15 : Fin 16).val + 1 ∧
    (pushed 1 0xABC#16).sp.val = (0 : Fin 16).val + 1 := by decide
theorem witness_SysAndJumps : (0x1E0#12 : Addr) ≠ 0x0E0#12 ∧ (0x1E0#12 : Addr) ≠ 0x0EE#12 := by decide
theorem witness_CallPushes : (pushed 16 0#16).sp.val = 16 ∧ (pushed 15 0#16).sp.val = (15 : Fin 16).val := by decide
theorem witness_RetUndoesCall : (pushed 15 0#16).sp.val < 16 ∧
    exec (.call 0x204#12) (pushed 15 0#16) = .next (run (.call 0x204#12) (pushed 15 0#16)) := ⟨by decide, rfl⟩
theorem witness_x_not_F : (14 : Reg) ≠ regF := by decide

/-- A display state for the draw statements: an 0x81 row at the last byte of memory, one of its two pixels set. -/
def drawing : State := ((dataAt 0xFFF [0x81#8]).setV 0 62#8).togglePixel (5, 0)

theorem witness_DrawToggles_inside : drawing.i.toNat + (1#4).toNat - 1 ≤ 4095 ∧ SpriteTouches drawing 0 1 1 (62, 0) ∧
    (SpriteTouches drawing 0 1 1 (5, 0) ∧ drawing.pixel (5, 0) = true) :=
  ⟨by decide, ⟨0, by decide, 0, by decide, by decide⟩, ⟨0, by decide, 7, by decide, by decide⟩, by decide⟩
theorem witness_DrawToggles_clear : (∀ p, SpriteTouches (drawing.dispClear) 0 1 1 p → drawing.dispClear.pixel p = false) ∧
    SpriteTouches drawing.dispClear 0 1 1 (62, 0) :=
  ⟨fun p _ => State.pixel_dispClear drawing p, ⟨0, by decide, 0, by decide, by decide⟩⟩
theorem witness_DrawToggles_beyond : 0 < (2#4).toNat ∧ 4095 < drawing.i.toNat + (2#4).toNat - 1 := by decide
theorem witness_DrawToggles_empty : (0#4).toNat = 0 := by decide
theorem witness_DrawToggles_untouched : ¬ SpriteTouches drawing 0 1 0 (62, 0) := fun ⟨r, hr, _⟩ => Nat.not_lt_zero r hr
theorem witness_SpriteCalls : (List.replicate 15 0xFF#8).length ≤ 15 := by decide
theorem witness_DrawTwice : drawing.i.toNat + (1#4).toNat - 1 ≤ 4095 ∧
    exec (.drw 0 1 1) drawing = .next (run (.drw 0 1 1) drawing) ∧ (run (.drw 0 1 1) drawing).getV 0 = drawing.getV 0 ∧
    (run (.drw 0 1 1) drawing).getV 1 = drawing.getV 1 ∧
    exec (.drw 0 1 1) (run (.drw 0 1 1) drawing) = .next (run (.drw 0 1 1) (run (.drw 0 1 1) drawing)) ∧
    (SpriteTouches drawing 0 1 1 (62, 0) ∧ drawing.pixel (62, 0) = false) :=
  ⟨by decide, rfl, by decide, by decide, rfl, ⟨0, by decide, 0, by decide, by decide⟩, by decide⟩
theorem witness_KeySkips : ((State.reset.setV 2 0xFF#8).getV 2).toNat % 16 = (15 : Key).val := by decide
theorem witness_Bcd : (State.reset.setI 0xFFD#16).i.toNat + 2 ≤ 4095 ∧ 4095 < (State.reset.setI 0xFFE#16).i.toNat + 2 := by decide
theorem witness_StoreAndLoad : (State.reset.setI 0xFF0#16).i.toNat + (15 : Reg).val ≤ 4095 ∧
    4095 < (State.reset.setI 0xFF1#16).i.toNat + (15 : Reg).val ∧ (0 : Reg) ≤ 0 := by decide
theorem witness_DataErrorExactly : ∃ t, ((ready 0xF133).setI 0xFFE#16).run ≠ .halted ∧
    Fetches ((ready 0xF133).setI 0xFFE#16) 0xF133#16 ∧ decodeWord 0xF133#16 = .ok (.ldB 1) ∧
    tick ((ready 0xF133).setI 0xFFE#16) = .next t :=
  ⟨_, by decide, by decide, by decide, eq_next (by decide)⟩
theorem witness_StoreIsSeenByFetch : ∃ t u : State, (State.reset.setI 0xFF0#16).i.toNat + (15 : Reg).val ≤ 4095 ∧ (14 : Reg) < 15 ∧
    exec (.stRegs 15) (State.reset.setI 0xFF0#16) = .next t ∧ u.mem = t.mem ∧
    u.pc.toNat = (State.reset.setI 0xFF0#16).i.toNat + (14 : Reg).val :=
  ⟨run (.stRegs 15) (State.reset.setI 0xFF0#16), (run (.stRegs 15) (State.reset.setI 0xFF0#16)).setPc 0xFFE#16,
    by decide, by decide, rfl, rfl, by decide⟩

end Sys2Proof.Tests
end

/-! ## What an instruction can do: its guard, its effect, its error -/

namespace Sys2Proof.Machine

/-- The check an instruction makes before it acts (R105, R101, R205); most make none. -/
def execGuard (i : Instr) (s : State) : Prop :=
  match i with
  | .ret => s.sp ≠ 0
  | .call _ => s.sp.val ≠ 16
  | .drw _ _ n => s.dataInBounds n.toNat = true
  | .ldB _ => s.dataInBounds 3 = true
  | .stRegs x | .ldRegs x => s.dataInBounds (x.val + 1) = true
  | _ => True

/-- The state an instruction answers where its guard holds; an instruction without a guard has one answer, that of `exec`. -/
def execEffect (i : Instr) (s : State) : State :=
  match i with
  | .ret => s.pop.setPc s.stackTop
  | .call nnn => (s.push (s.pc + 2#16)).setPc (nnn.zeroExtend 16)
  | .drw x y n => ((s.drawSprite (s.drwPixels x y n)).setVF (s.drawSprite (s.drwPixels x y n)).cf).advance
  | .ldB x => (s.storeBytes s.i.toNat (bcdDigits (s.getV x))).advance
  | .stRegs x => (s.storeBytes s.i.toNat (s.firstRegs (x.val + 1))).advance
  | .ldRegs x => (s.loadRegs (s.mem.readBytes s.i.toNat (x.val + 1))).advance
  | i =>
    match exec i s with
    | .next t => t
    | .fault _ | .refused _ => s

theorem exec_of_guard {i : Instr} {s : State} (hg : execGuard i s) : exec i s = .next (execEffect i s) := by
  cases i
  case ret => exact exec_ret_pops hg
  case call nnn => exact exec_call_pushes nnn hg
  case drw x y n => exact exec_drw_draws x y n hg
  case ldB x => exact exec_ldB_stores x hg
  case stRegs x => exact exec_stRegs_stores x hg
  case ldRegs x => exact exec_ldRegs_loads x hg
  all_goals rfl

theorem exec_of_not_guard {i : Instr} {s : State} (hg : ¬ execGuard i s) :
    ∃ e, handlerError i = some e ∧ exec i s = .next (s.raise e) := by
  cases i
  case ret => exact ⟨_, rfl, exec_ret_empty (not_not.1 hg)⟩
  case call nnn => exact ⟨_, rfl, exec_call_full nnn (not_not.1 hg)⟩
  case drw x y n => exact ⟨_, rfl, exec_drw_beyond x y n hg⟩
  case ldB x => exact ⟨_, rfl, exec_ldB_beyond x hg⟩
  case stRegs x => exact ⟨_, rfl, exec_stRegs_beyond x hg⟩
  case ldRegs x => exact ⟨_, rfl, exec_ldRegs_beyond x hg⟩
  all_goals exact absurd trivial hg

/-- An instruction raises its one fatal error where its guard fails, and has its effect where it holds (R203, R209). -/
theorem exec_cases {i : Instr} {s t : State} (h : exec i s = .next t) :
    (¬ execGuard i s ∧ ∃ e, handlerError i = some e ∧ t = s.raise e) ∨ (execGuard i s ∧ t = execEffect i s) := by
  by_cases hg : execGuard i s
  · rw [exec_of_guard hg] at h
    injection h with h
    exact .inr ⟨hg, h.symm⟩
  · obtain ⟨e, he, hx⟩ := exec_of_not_guard hg
    rw [hx] at h
    injection h with h
    exact .inl ⟨hg, e, he, h.symm⟩

/-- Every error an instruction raises has a code other than `NONE` (R25). -/
theorem handlerError_ne_noError {i : Instr} {e : ErrorCode} (h : handlerError i = some e) : e ≠ .noError := by
  rintro rfl
  cases i <;> cases h

/-! ### `takeKey`: whatever `KeyEvent()` returns, only a register, `PC` and `RUN` change (R155) -/

@[simp] theorem State.takeKey_i (s : State) (x : Reg) (e : Option Key) : (s.takeKey x e).i = s.i := by cases e <;> rfl
@[simp] theorem State.takeKey_stack (s : State) (x : Reg) (e : Option Key) : (s.takeKey x e).stack = s.stack := by
  cases e <;> rfl
@[simp] theorem State.takeKey_sp (s : State) (x : Reg) (e : Option Key) : (s.takeKey x e).sp = s.sp := by cases e <;> rfl
@[simp] theorem State.takeKey_dt (s : State) (x : Reg) (e : Option Key) : (s.takeKey x e).dt = s.dt := by cases e <;> rfl
@[simp] theorem State.takeKey_st (s : State) (x : Reg) (e : Option Key) : (s.takeKey x e).st = s.st := by cases e <;> rfl
@[simp] theorem State.takeKey_ir (s : State) (x : Reg) (e : Option Key) : (s.takeKey x e).ir = s.ir := by cases e <;> rfl
@[simp] theorem State.takeKey_cf (s : State) (x : Reg) (e : Option Key) : (s.takeKey x e).cf = s.cf := by cases e <;> rfl
@[simp] theorem State.takeKey_mem (s : State) (x : Reg) (e : Option Key) : (s.takeKey x e).mem = s.mem := by cases e <;> rfl
@[simp] theorem State.takeKey_fb (s : State) (x : Reg) (e : Option Key) : (s.takeKey x e).fb = s.fb := by cases e <;> rfl

@[simp] theorem execEffect_ldVxK (x : Reg) (s : State) :
    execEffect (.ldVxK x) s = s.countKeyEvent.takeKey x s.keyEvent := rfl

@[simp] theorem execEffect_drw (x y : Reg) (n : Nibble) (s : State) :
    execEffect (.drw x y n) s =
      ((s.drawSprite (s.drwPixels x y n)).setVF (s.drawSprite (s.drwPixels x y n)).cf).advance := rfl

theorem State.getV_takeKey_ne (s : State) {x r : Reg} (e : Option Key) (h : r ≠ x) :
    (s.takeKey x e).getV r = s.getV r := by
  cases e with
  | none => rfl
  | some k => exact State.getV_setV_ne s _ h

theorem flagByte_eq (f : Bool) : flagByte f = 0#8 ∨ flagByte f = 1#8 := by
  cases f
  · exact .inl rfl
  · exact .inr rfl

/-! ## Who may write what -/

/-- Settles O30: a fatal error leaves `I`, and so does every effect but those of the three. -/
theorem onlyThreeInstructionsWriteIndex : Obligations.OnlyThreeInstructionsWriteIndex := by
  intro i s t h
  obtain ⟨-, e, -, rfl⟩ | ⟨-, rfl⟩ := exec_cases h
  · cases i <;> trivial
  · cases i
    case drw | ldVxK => simp
    all_goals trivial

/-- Settles O32: neither a fatal error nor an effect writes `IR`, and the two loads alone write their timers. -/
theorem onlyTheirLoadsWriteTimers : Obligations.OnlyTheirLoadsWriteTimers := by
  intro i s t h
  obtain ⟨-, e, -, rfl⟩ | ⟨-, rfl⟩ := exec_cases h
  · cases i <;> trivial
  · cases i
    case drw | ldVxK => simp
    all_goals trivial

/-- Settles O33: a fatal error makes no display call, and of the effects only those of `CLS` and `DRW` do. -/
theorem onlyClsAndDrwReachDisplay : Obligations.OnlyClsAndDrwReachDisplay := by
  intro i s t h
  obtain ⟨-, e, -, rfl⟩ | ⟨-, rfl⟩ := exec_cases h
  · cases i <;> trivial
  · cases i
    case ldVxK => simp
    all_goals trivial

/-- Settles O31: `CALL` and `RET` by their two outcomes each, the others by having no stack operation. -/
theorem onlyCallAndRetTouchStack : Obligations.OnlyCallAndRetTouchStack := by
  intro i s t h
  obtain ⟨hg, e, -, rfl⟩ | ⟨hg, rfl⟩ := exec_cases h
  · cases i
    case call => exact ⟨fun hlt => absurd hlt.ne hg, fun _ _ => rfl⟩
    case ret => exact ⟨fun h0 => absurd (Fin.val_ne_iff.1 h0) hg, rfl⟩
    all_goals trivial
  · cases i
    case call nnn =>
      exact ⟨fun hlt => Nat.min_eq_left hlt, fun k hk =>
        (State.push_stack_getElem s _ k k.isLt).trans (if_neg hk.symm)⟩
    case ret => exact ⟨fun h0 => Nat.sub_add_cancel (Nat.pos_of_ne_zero h0), rfl⟩
    case drw | ldVxK => simp
    all_goals trivial

/-- Of the effects, only those of the six flag writers reach `VF` beside their destination (R13, R14). -/
theorem execEffect_getV {i : Instr} {r : Reg} (s : State) (hd : isDestination i r = false)
    (hf : ¬(r = regF ∧ writesFlag i = true)) : (execEffect i s).getV r = s.getV r := by
  cases i
  case ldImm | ldReg | addImm | orReg | andReg | xorReg | rnd | ldVxDT =>
    exact (State.advance_getV _ _).trans (State.getV_setV_ne _ _ (beq_eq_false_iff_ne.1 hd))
  case addReg | subReg | subnReg | shr | shl =>
    have hr : r ≠ regF := fun e => hf ⟨e, rfl⟩
    refine (State.advance_getV _ _).trans ((State.getV_setResult s _ _ _ _).trans ?_)
    rw [if_neg hr, if_neg (beq_eq_false_iff_ne.1 hd)]
  case drw =>
    have hr : r ≠ regF := fun e => hf ⟨e, rfl⟩
    simp [State.getV_setVF, hr]
  case ldVxK => exact State.getV_takeKey_ne _ _ (beq_eq_false_iff_ne.1 hd)
  case ldRegs x =>
    have hx : ¬ r.val < (s.mem.readBytes s.i.toNat (x.val + 1)).length := by
      have : ¬ r.val ≤ x.val := of_decide_eq_false hd
      rw [Mem.readBytes_length]; omega
    exact (State.getV_loadRegs s _ r).trans (dif_neg hx)
  all_goals rfl

/-- A flag writer leaves `VF` at 0 or 1, whatever its destination is (R13, R14). -/
theorem execEffect_flag {i : Instr} (s : State) (hw : writesFlag i = true) :
    (execEffect i s).getV regF = 0#8 ∨ (execEffect i s).getV regF = 1#8 := by
  suffices ∃ f, (execEffect i s).getV regF = flagByte f by
    obtain ⟨f, hf⟩ := this
    exact hf ▸ flagByte_eq f
  cases i
  case addReg | subReg | subnReg | shr | shl =>
    exact ⟨_, (State.getV_setResult s _ _ _ regF).trans (if_pos rfl)⟩
  case drw => exact ⟨_, (State.getV_setVF _ _ regF).trans (if_pos rfl)⟩
  all_goals cases hw

/-- Of the flag writers, only `DRW` has an error to raise (R205, R209). -/
theorem handlerError_of_writesFlag {i : Instr} {e : ErrorCode} (hw : writesFlag i = true) (he : handlerError i = some e) :
    e = .dataOutOfBounds := by
  cases i
  case drw => cases he; rfl
  case addReg | subReg | subnReg | shr | shl => cases he
  all_goals cases hw

/-- Settles O29: by `execEffect_getV` and `execEffect_flag`; an error leaves every register. -/
theorem onlySixInstructionsWriteFlags : Obligations.OnlySixInstructionsWriteFlags := by
  intro i s t h
  obtain ⟨-, e, he, rfl⟩ | ⟨-, rfl⟩ := exec_cases h
  · exact ⟨fun _ _ _ => rfl, fun hw => .inr (.inr (handlerError_of_writesFlag hw he ▸ rfl))⟩
  · exact ⟨fun r hd hf => execEffect_getV s hd hf, fun hw => (execEffect_flag s hw).imp_right .inl⟩

/-! ## The new `PC` -/

/-- Where the fetch reads the word of an instruction, the tick is that instruction's `exec` (R210). -/
theorem tick_eq_exec {s : State} {op : Word} {i : Instr} (hr : s.run ≠ .halted) (hf : Fetches s op)
    (hd : decodeWord op = .ok i) : tick s = exec i (s.startTick op) := by
  obtain ⟨hb, rfl⟩ := (fetches_iff s op).1 hf
  simp [tick, hr, hb, hd]

/-- A stall and a fatal error leave `PC` (R203, R155). -/
theorem exec_pc_of_not_running {i : Instr} {s t : State} (h : exec i s = .next t) (hs : s.run = .running)
    (ht : t.run ≠ .running) : t.pc = s.pc := by
  obtain ⟨e, -, rfl⟩ | ⟨x, -, -, rfl⟩ | ⟨x, k, -, -, rfl⟩ | ⟨-, hrun, -⟩ := exec_outcome h
  · rfl
  · rfl
  · exact absurd rfl ht
  · exact absurd (hrun.trans hs) ht

@[simp] theorem State.startTick_keyDown (s : State) (op : Word) (k : Key) : (s.startTick op).keyDown k = s.keyDown k := rfl

theorem State.skipIf_pc_toNat (s : State) (c : Bool) :
    (s.skipIf c).pc.toNat = if c = true then (s.pc.toNat + 4) % 65536 else (s.pc.toNat + 2) % 65536 := by
  cases c <;> rfl

theorem zeroExtend_addr_toNat (nnn : Addr) : (nnn.zeroExtend 16).toNat = nnn.toNat :=
  BitVec.toNat_setWidth_of_le (by decide)

/-- Settles O28: the table of R17, effect by effect. -/
theorem pcAfterTick : Obligations.PcAfterTick := by
  intro s t op i hr hf hd ht
  rw [tick_eq_exec hr hf hd] at ht
  refine ⟨exec_pc_of_not_running (s := s.startTick op) ht rfl, fun hrun => ?_⟩
  obtain ⟨-, e, -, rfl⟩ | ⟨-, rfl⟩ := exec_cases ht
  · cases hrun
  cases i
  case jp nnn | call nnn => exact zeroExtend_addr_toNat nnn
  case jpV0 nnn =>
    refine (BitVec.toNat_add _ _).trans ?_
    rw [zeroExtend_addr_toNat]
    simp
  case seImm | sneImm | seReg | sneReg | skp | sknp =>
    refine (State.skipIf_pc_toNat _ _).trans (if_congr ?_ rfl rfl)
    simp
  case drw => simp
  case ldVxK x =>
    rw [execEffect_ldVxK] at hrun ⊢
    cases hk : (s.startTick op).keyEvent with
    | none => rw [hk] at hrun; cases hrun
    | some k => rfl
  all_goals rfl

/-! ## The invariant -/

/-- The invariant speaks of memory, `PC`, the stack, `IR`, `RUN` and `ERR` alone. -/
theorem State.Inv.congr {s t : State} (h : s.Inv) (hmem : t.mem = s.mem) (hpc : t.pc = s.pc) (hstack : t.stack = s.stack)
    (hsp : t.sp = s.sp) (hir : t.ir = s.ir) (hrun : t.run = s.run) (herr : t.err = s.err) : t.Inv where
  memWf := hmem ▸ h.memWf
  errIffHalted := by rw [herr, hrun]; exact h.errIffHalted
  pcBound := hpc ▸ h.pcBound
  stackBound := by rw [hstack, hsp]; exact h.stackBound
  keyWait := by rw [hrun, hir, Fetches, hpc, hmem]; exact h.keyWait

theorem State.Inv.withAgenda {s : State} (h : s.Inv) (l : List Action) : (s.withAgenda l).Inv :=
  h.congr rfl rfl rfl rfl rfl rfl rfl

theorem State.Inv.discard {s : State} (h : s.Inv) : s.discard.Inv := h.congr rfl rfl rfl rfl rfl rfl rfl

theorem State.Inv.timerTick {s : State} (h : s.Inv) : s.timerTick.Inv :=
  h.congr (by simp) (by simp) (by simp) (by simp) (by simp) (by simp) (by simp)

theorem State.Inv.timerEvents {s : State} (h : s.Inv) : s.timerEvents.Inv :=
  h.congr (by simp) (by simp) (by simp) (by simp) (by simp) (by simp) (by simp)

/-- A loaded machine runs from 0x200 with an empty stack, whatever it replaces (R28, R250). -/
theorem State.Inv.loadImage (s : State) (image : List Byte) : (s.loadImage image).Inv where
  memWf := State.loadImage_wf s image
  errIffHalted := by simp
  pcBound := by simp
  stackBound := by simp
  keyWait := by simp

theorem State.Inv.reload {s : State} (h : s.Inv) (image : List Byte) : (s.reload image).Inv := by
  by_cases hf : image.length ≤ maxImage
  · rw [State.reload_fits s hf]; exact State.Inv.loadImage s image
  · rwa [State.reload_too_long s hf]

/-- A fatal error sets `RUN` and `ERR` together (R203). -/
theorem State.Inv.raise {s : State} (h : s.Inv) {e : ErrorCode} (he : e ≠ .noError) : (s.raise e).Inv where
  memWf := h.memWf
  errIffHalted := iff_of_true he rfl
  pcBound := h.pcBound
  stackBound := h.stackBound
  keyWait hw := by cases hw

/-- The state an instruction's rule works on meets the invariant, since a machine that is not halted has no error (R210, R25). -/
theorem State.Inv.startTick {s : State} (h : s.Inv) (hr : s.run ≠ .halted) (op : Word) : (s.startTick op).Inv where
  memWf := h.memWf
  errIffHalted := iff_of_false (fun he => hr (h.errIffHalted.1 he)) (by simp)
  pcBound := h.pcBound
  stackBound := h.stackBound
  keyWait hw := by cases hw

/-- Only stores change memory, and they keep the canonical form (R43). -/
theorem execEffect_mem_wf (i : Instr) {s : State} (h : s.mem.wf) : (execEffect i s).mem.wf := by
  cases i
  case ldB x => exact State.storeBytes_wf h _ _
  case stRegs x => exact State.storeBytes_wf h _ _
  case drw | ldVxK => simpa using h
  all_goals exact h

/-- The return address of a call from inside memory is at most 0x1000 (R105). -/
theorem State.push_stackBound {s : State} {w : Word} (h : ∀ k : Fin 16, k.val < s.sp.val → s.stack[k].toNat ≤ 0x1000)
    (hw : w.toNat ≤ 0x1000) (k : Fin 16) (hk : k.val < (s.push w).sp.val) : (s.push w).stack[k].toNat ≤ 0x1000 := by
  refine (congrArg BitVec.toNat (State.push_stack_getElem s w k k.isLt)).trans_le ?_
  rw [State.push_sp_val] at hk
  split
  · exact hw
  · exact h k (by omega)

theorem State.Inv.stackTop_le {s : State} (h : s.Inv) (h0 : s.sp ≠ 0) : s.stackTop.toNat ≤ 0x1000 :=
  h.stackBound ⟨s.sp.val - 1, by have := s.sp.isLt; omega⟩ (Nat.sub_one_lt (Fin.val_ne_iff.2 h0))

theorem exec_mem_wf {i : Instr} {s t : State} (hx : exec i s = .next t) (h : s.mem.wf) : t.mem.wf := by
  obtain ⟨-, e, -, rfl⟩ | ⟨-, rfl⟩ := exec_cases hx
  · exact h
  · exact execEffect_mem_wf i h

/-- Only a call adds a live entry, and the address it pushes is two behind a fetched `PC` (R105). -/
theorem exec_stackBound {i : Instr} {s t : State} (hx : exec i s = .next t) (hpc : s.pc.toNat ≤ 0xFFE)
    (h : ∀ k : Fin 16, k.val < s.sp.val → s.stack[k].toNat ≤ 0x1000) :
    ∀ k : Fin 16, k.val < t.sp.val → t.stack[k].toNat ≤ 0x1000 := by
  obtain ⟨-, e, -, rfl⟩ | ⟨-, rfl⟩ := exec_cases hx
  · exact h
  cases i
  case call nnn =>
    have hret : (s.pc + 2#16).toNat = (s.pc.toNat + 2) % 65536 := BitVec.toNat_add _ _
    exact State.push_stackBound h (by omega)
  case ret => exact fun k hk => h k (hk.trans_le (Nat.sub_le _ _))
  case drw | ldVxK => simpa using h
  all_goals exact h

/-- A running machine without an error leaves the instruction with an error exactly when it is halted (R25, R203). -/
theorem exec_errIffHalted {i : Instr} {s t : State} (hx : exec i s = .next t) (hr : s.run = .running)
    (he : s.err = .noError) : t.err ≠ .noError ↔ t.run = .halted := by
  obtain ⟨e, herr, rfl⟩ | ⟨x, -, -, rfl⟩ | ⟨x, k, -, -, rfl⟩ | ⟨-, hrun, herr⟩ := exec_outcome hx
  · exact iff_of_true (handlerError_ne_noError herr) rfl
  · simp [he]
  · simp [he]
  · simp [hrun, herr, hr, he]

/-- A running machine comes to wait by a stalled `LD Vx, K` alone, which leaves what the next fetch reads (R155, R211). -/
theorem exec_awaitKey {i : Instr} {s t : State} (hx : exec i s = .next t) (hr : s.run = .running)
    (ht : t.run = .awaitKey) : (∃ x, i = .ldVxK x) ∧ t.pc = s.pc ∧ t.mem = s.mem ∧ t.ir = s.ir := by
  obtain ⟨e, -, rfl⟩ | ⟨x, hi, -, rfl⟩ | ⟨x, k, -, -, rfl⟩ | ⟨-, hrun, -⟩ := exec_outcome hx
  · cases ht
  · exact ⟨⟨x, hi⟩, rfl, rfl, rfl⟩
  · cases ht
  · rw [hrun, hr] at ht; cases ht

/-- From a fetched `PC` the farthest jump is `JP V0` to 0xFFF + 0xFF (R18). -/
theorem tick_pcBound {s t : State} {op : Word} {i : Instr} (h : s.Inv) (hr : s.run ≠ .halted) (hf : Fetches s op)
    (hd : decodeWord op = .ok i) (ht : tick s = .next t) : t.pc.toNat ≤ 0x10FE := by
  have hle := hf.1
  obtain ⟨hstop, hgo⟩ := pcAfterTick s t op i hr hf hd ht
  by_cases hrun : t.run = .running
  · have hpc := hgo hrun
    cases i <;> dsimp only at hpc
    case jp nnn | call nnn => have := nnn.isLt; omega
    case jpV0 nnn => have := nnn.isLt; have := (s.getV 0).isLt; omega
    case ret =>
      have h0 : s.sp ≠ 0 := by
        intro h0
        rw [tick_eq_exec hr hf hd, exec_ret_empty (s := s.startTick op) h0] at ht
        cases ht
        cases hrun
      have := h.stackTop_le h0
      omega
    case seImm | sneImm | seReg | sneReg | skp | sknp => split at hpc <;> omega
    all_goals omega
  · rw [hstop hrun]; exact h.pcBound

/-- A tick keeps the invariant, in each of the four ways it can go (R209). -/
theorem State.Inv.tick {s t : State} (h : s.Inv) (ht : tick s = .next t) : t.Inv := by
  obtain ⟨-, e⟩ | ⟨-, -, e⟩ | ⟨hr, -, -, e⟩ | ⟨hr, hb, i, hd, hx⟩ := tick_cases ht
  · cases e; exact h
  · cases e; exact h.raise (by simp)
  · cases e; exact (h.startTick hr _).raise (by simp)
  · have hf : Fetches s s.fetchWord := (fetches_iff s _).2 ⟨hb, rfl⟩
    have hs := h.startTick hr s.fetchWord
    have he : s.err = .noError := not_not.1 fun he => hr (h.errIffHalted.1 he)
    exact
      { memWf := exec_mem_wf hx.symm hs.memWf
        errIffHalted := exec_errIffHalted hx.symm rfl he
        pcBound := tick_pcBound h hr hf hd ht
        stackBound := exec_stackBound hx.symm hf.1 hs.stackBound
        keyWait := fun hw => by
          obtain ⟨⟨x, rfl⟩, hpc, hmem, hir⟩ := exec_awaitKey hx.symm rfl hw
          rw [hir, Fetches, hpc, hmem]
          exact ⟨hf, x, hd⟩ }

/-- Every agent's action keeps the invariant (R220). -/
theorem State.Inv.act {s t : State} (h : s.Inv) {a : Action} (ha : act a s = .next t) : t.Inv := by
  cases a with
  | tick =>
    rw [Machine.act] at ha
    split at ha
    · exact h.tick ha
    · cases ha; exact h
  | timerTick =>
    rw [Machine.act] at ha
    split at ha
    · cases ha; exact h.timerTick
    · cases ha; exact h
  | load image => cases ha; exact h.reload image
  | discard => cases ha; exact h.discard

/-- Settles O24: a step is an agent's action, or the timer driver's events and a tick. -/
theorem stepKeepsInvariant : Obligations.StepKeepsInvariant := by
  intro s t h ht
  cases hl : s.agenda with
  | cons a rest =>
    rw [step_agenda hl] at ht
    exact (h.withAgenda rest).act ht
  | nil =>
    cases hp : s.present with
    | true =>
      rw [step_default hl hp] at ht
      exact h.timerEvents.tick ht
    | false =>
      rw [step_absent hl hp] at ht
      cases ht; exact h

/-- Settles O25: `State.reset` is the state after `Load` of the empty image. -/
theorem invariantHoldsAtReset : Obligations.InvariantHoldsAtReset := by
  refine ⟨State.Inv.loadImage State.reset [], fun image t ht => ⟨?_, fun s => State.Inv.loadImage s image⟩⟩
  rw [load] at ht
  split at ht
  · cases ht; exact State.Inv.loadImage State.reset image
  · cases ht

/-! ## `Load` -/

theorem load_fits {image : List Byte} (h : image.length ≤ 3584) : load image = some (State.reset.loadImage image) := if_pos h

theorem load_too_long {image : List Byte} (h : 3584 < image.length) : load image = none := if_neg (Nat.not_le.2 h)

/-- After a `Load` a byte of memory is the image's, the font's or zero (R28, R250). -/
theorem State.loadImage_read (s : State) {image : List Byte} (hl : image.length ≤ 3584) (a : Nat) :
    (s.loadImage image).mem.read a =
      if h : 0x200 ≤ a ∧ a - 0x200 < image.length then image[a - 0x200] else unlistedByte a := by
  rw [State.loadImage_mem]
  split
  case isTrue h =>
    obtain ⟨j, rfl⟩ := Nat.exists_eq_add_of_le h.1
    simp only [Nat.add_sub_cancel_left] at h ⊢
    exact Mem.read_writeBytes_inside [] 0x200 j image h.2 (by rw [Config.memSize]; omega)
  case isFalse h => exact Mem.read_writeBytes_outside [] 0x200 a image (by omega)

/-- Settles O9: the machine `Load` creates is `loadImage`, over every state. -/
theorem loadBuildsTheResetState : Obligations.LoadBuildsTheResetState := by
  refine fun image => ⟨load_too_long, fun hl => ⟨_, load_fits hl, ?_⟩, fun s => ⟨fun hl => ?_, fun t ht => ?_⟩⟩
  · refine ⟨fun r => ?_, rfl, rfl, rfl, fun k => ?_, rfl, rfl, rfl, rfl, rfl, rfl, fun a _ => ?_⟩
    · simp [State.getV]
    · simp
    · exact State.loadImage_read State.reset hl a
  · exact State.reload_too_long s (Nat.not_le.2 hl)
  · by_cases hl : image.length ≤ 3584
    · rw [load_fits hl] at ht
      cases ht
      exact State.reload_fits s hl
    · rw [load_too_long (Nat.not_le.1 hl)] at ht
      cases ht

end Sys2Proof.Machine

/-! ## Memory: the fetch, the placed word and the stores -/

namespace Sys2Proof.Machine

/-- A fetch from beyond memory is a fatal error (R41, R204). -/
theorem tick_beyond {s : State} (hr : s.run ≠ .halted) (hb : 0xFFE < s.pc.toNat) :
    tick s = .next (s.raise .fetchOutOfBounds) := by
  have hf : ¬ s.fetchInBounds = true := fun h => Nat.not_le.2 hb ((State.fetchInBounds_iff s).1 h)
  rw [tick, if_neg hr, if_neg hf]

/-- A fetched word that matches no row is a fatal error, with the word in `IR` (R200, R203). -/
theorem tick_invalid {s : State} {op : Word} {e : Reject} (hr : s.run ≠ .halted) (hf : Fetches s op)
    (hd : decodeWord op = .error e) : tick s = .next ((s.startTick op).raise .invalidOpcode) := by
  obtain ⟨hb, rfl⟩ := (fetches_iff s op).1 hf
  simp [tick, hr, hb, hd]

/-- Settles O15: the fetched word is `fetchWord`, and the tick goes by what it decodes to. -/
theorem tickFetchesBigEndian : Obligations.TickFetchesBigEndian := by
  refine fun s hr => ⟨tick_beyond hr, fun hle => ?_⟩
  have hf : Fetches s s.fetchWord := (fetches_iff s _).2 ⟨(State.fetchInBounds_iff s).2 hle, rfl⟩
  exact ⟨s.fetchWord, hf.2, fun i hd => tick_eq_exec hr hf hd, fun e hd => ⟨_, tick_invalid hr hf hd, rfl⟩⟩

/-! ### A word placed for the fetch (R41, R46; assumption 17) -/

@[simp] theorem State.readyToFetch_present (s : State) : s.readyToFetch.present = true := by
  simp only [State.readyToFetch]; split <;> split <;> rfl

@[simp] theorem State.readyToFetch_agenda (s : State) : s.readyToFetch.agenda = [] := by
  simp only [State.readyToFetch]; split <;> split <;> rfl

theorem State.readyToFetch_run_ne_halted (s : State) : s.readyToFetch.run ≠ .halted := by
  by_cases hr : s.run = .halted
  · simp only [State.readyToFetch, hr, if_true]; split <;> simp
  · simp only [State.readyToFetch, hr, if_false]; split <;> exact hr

/-- A `PC` beyond memory is moved to `PROGRAM_BASE`, so the fetch is always in memory. -/
@[simp] theorem State.readyToFetch_fetchInBounds (s : State) : s.readyToFetch.fetchInBounds = true := by
  simp only [State.readyToFetch]
  split
  all_goals
    split
    · assumption
    · rfl

/-- A state that could fetch is changed in `present` and the agenda alone. -/
theorem State.readyToFetch_of_fetchable {s : State} (hr : s.run ≠ .halted) (hb : s.pc.toNat ≤ 0xFFE) :
    s.readyToFetch = { s with present := true, agenda := [] } := by
  simp only [State.readyToFetch, hr, if_false]
  exact if_pos ((State.fetchInBounds_iff _).2 hb)

theorem tableWord_16 (w : Nat) : tableWord 16 w = BitVec.ofNat 16 w :=
  BitVec.eq_of_toNat_eq (by simp [tableWord])

/-- A 16-bit table word decodes as the word itself (R60). -/
theorem decodeWord_of_decodeTableWord {w : Nat} {i : Instr} (h : decodeTableWord 16 w = some i) :
    decodeWord (BitVec.ofNat 16 w) = .ok i := by
  rw [decodeTableWord, tableWord_16, decodeBytes, wordOfBytes_bytes] at h
  cases hd : decodeWord (BitVec.ofNat 16 w) with
  | ok j => rw [hd] at h; cases h; rfl
  | error e => rw [hd] at h; cases h

theorem State.withFetchWord_16 (s : State) (w : Nat) :
    s.withFetchWord 16 w = s.readyToFetch.placeWord (BitVec.ofNat 16 w) := by
  rw [← tableWord_16]; rfl

theorem State.fetches_withFetchWord (s : State) (w : Nat) : Fetches (s.withFetchWord 16 w) (BitVec.ofNat 16 w) := by
  rw [State.withFetchWord_16]
  exact (fetches_iff _ _).2 ⟨s.readyToFetch_fetchInBounds, State.fetchWord_placeWord _ _ s.readyToFetch_fetchInBounds⟩

/-- The fetch reads the same word after the timer driver's turn (R226). -/
theorem Fetches.timerEvents {s : State} {op : Word} (h : Fetches s op) : Fetches s.timerEvents op := by
  simpa [Fetches] using h

/-- With an empty agenda, a step is the timer driver's turn and the fetched instruction (R210, R226). -/
theorem step_eq_exec {s : State} {op : Word} {i : Instr} (hl : s.agenda = []) (hp : s.present = true)
    (hr : s.run ≠ .halted) (hf : Fetches s op) (hd : decodeWord op = .ok i) :
    step s = exec i (s.timerEvents.startTick op) := by
  rw [step_default hl hp]
  exact tick_eq_exec (by rwa [State.timerEvents_run]) hf.timerEvents hd

/-- Settles O14: the state is made fit to fetch, and the two bytes at its `PC` are the word's. -/
theorem placedWordRunsNext : Obligations.PlacedWordRunsNext := by
  refine fun s w => ⟨s.fetches_withFetchWord w, fun i hd => ?_, fun hr hb => ?_⟩
  · have hf := s.fetches_withFetchWord w
    rw [State.withFetchWord_16] at hf ⊢
    exact step_eq_exec s.readyToFetch_agenda s.readyToFetch_present s.readyToFetch_run_ne_halted hf
      (decodeWord_of_decodeTableWord hd)
  · rw [State.withFetchWord_16, State.readyToFetch_of_fetchable hr hb]
    refine ⟨rfl, fun a h0 h1 => Mem.read_writeBytes_outside _ _ _ _ ?_⟩
    simp only [List.length_cons, List.length_nil]
    omega

/-! ### Stores (R43, R45, R167) -/

/-- An instruction's effect on memory is the run of writes of its stored bytes, at `I` onward (R163, R164). -/
theorem execEffect_mem (i : Instr) (s : State) :
    (execEffect i s).mem = s.mem.writeBytes s.i.toNat (storedBytes i s) := by
  cases i
  case drw | ldVxK => simp [storedBytes, Mem.writeBytes]
  all_goals rfl

/-- The guard of an instruction that stores is that every stored byte has its address in memory (R45). -/
theorem execGuard_iff_of_stores {i : Instr} {s : State} (h : storedBytes i s ≠ []) :
    execGuard i s ↔ s.i.toNat + (storedBytes i s).length ≤ 4096 := by
  cases i
  case ldB x =>
    refine (State.dataInBounds_iff s 3).trans ?_
    simp only [storedBytes, bcdDigits, List.length_cons, List.length_nil]
    omega
  case stRegs x =>
    refine (State.dataInBounds_iff s (x.val + 1)).trans ?_
    have := x.isLt
    simp only [storedBytes, State.firstRegs_length]
    omega
  all_goals exact absurd rfl h

/-- Memory after an instruction: its stored bytes are written where they all fit, and else nothing is. -/
theorem exec_mem {i : Instr} {s t : State} (hx : exec i s = .next t) :
    t.mem = if s.i.toNat + (storedBytes i s).length ≤ 4096 then s.mem.writeBytes s.i.toNat (storedBytes i s)
      else s.mem := by
  by_cases hs : storedBytes i s = []
  · have ht : t.mem = s.mem := by
      obtain ⟨-, e, -, rfl⟩ | ⟨-, rfl⟩ := exec_cases hx
      · rfl
      · rw [execEffect_mem, hs, Mem.writeBytes]
    rw [ht, hs, Mem.writeBytes, ite_self]
  · obtain ⟨hg, e, -, rfl⟩ | ⟨hg, rfl⟩ := exec_cases hx
    · exact (if_neg (mt (execGuard_iff_of_stores hs).2 hg)).symm
    · exact (execEffect_mem i s).trans (if_pos ((execGuard_iff_of_stores hs).1 hg)).symm

/-- Settles O34: by `exec_mem` and what a run of writes leaves to read. -/
theorem onlyTwoInstructionsWriteMemory : Obligations.OnlyTwoInstructionsWriteMemory := by
  intro i s t hx
  rw [exec_mem hx]
  refine ⟨fun a ha => ?_, fun j hj hin => ?_, fun hout _ => if_neg (Nat.not_le.2 hout), fun hs => ?_⟩
  · split
    · exact Mem.read_writeBytes_outside _ _ _ _ ha
    · rfl
  · rw [if_pos hin]
    exact Mem.read_writeBytes_inside _ _ _ _ hj hin
  · rw [hs, Mem.writeBytes, ite_self]

/-- After `LD [I], Vx` inside memory the byte at `I + r` is `V[r]`, for each register up to `Vx` (R164). -/
theorem exec_stRegs_read {x r : Reg} {s t : State} (hx : exec (.stRegs x) s = .next t) (hb : s.i.toNat + x.val ≤ 4095)
    (hr : r ≤ x) : t.mem.read (s.i.toNat + r.val) = s.getV r := by
  have hrx : r.val ≤ x.val := hr
  have hlen : (storedBytes (.stRegs x) s).length = x.val + 1 :=
    (State.firstRegs_length s _).trans (Nat.min_eq_left x.isLt)
  obtain ⟨-, hin, -, -⟩ := onlyTwoInstructionsWriteMemory (.stRegs x) s t hx
  exact (hin r.val (by omega) (by omega)).trans (State.firstRegs_getElem s _ _ _ r.isLt)

/-- Settles O60: the two bytes at `PC` are those of two stored registers, the lower one first. -/
theorem storeIsSeenByFetch : Obligations.StoreIsSeenByFetch := by
  intro x k s t u hb hk hx hmem hpc op
  have hkx : k.val < x.val := hk
  have hsucc : (k + 1).val = k.val + 1 := Fin.val_add_one_of_lt (hk.trans_le (Fin.le_last x))
  have hhi : t.mem.read (s.i.toNat + k.val) = s.getV k := exec_stRegs_read hx hb hk.le
  have hlo : t.mem.read (s.i.toNat + k.val + 1) = s.getV (k + 1) := by
    rw [Nat.add_assoc, ← hsucc]
    exact exec_stRegs_read hx hb (Fin.le_def.2 (hsucc.trans_le hkx))
  rw [Fetches, hmem, hpc, hhi, hlo]
  exact and_iff_right (by omega)

end Sys2Proof.Machine

/-! ## Encoding: what a word decodes to, and the word of an instruction -/

namespace Sys2Proof

open Machine

/-- The word of a well-formed instruction decodes to it: each format gives its fields back, and the one operand that two
other words take away from `SYS` is not well-formed (R62, R64). -/
theorem decodeWord_encode {i : Instr} (h : i.wellFormed = true) : decodeWord (encode i) = .ok i := by
  cases i
  case cls | ret => rfl
  case sys nnn =>
    obtain ⟨hcls, hret⟩ : nnn ≠ 0x0E0#12 ∧ nnn ≠ 0x0EE#12 := by simpa [Instr.wellFormed] using h
    have hn : opNnn (formatNNN 0x0#4 nnn) = nnn := opNnn_formatNNN _ _
    have hcls' : formatNNN 0x0#4 nnn ≠ 0x00E0#16 := fun e => hcls (by rw [← hn, e]; rfl)
    have hret' : formatNNN 0x0#4 nnn ≠ 0x00EE#16 := fun e => hret (by rw [← hn, e]; rfl)
    simp [encode, decodeWord, decodeFamily0, hcls', hret']
  all_goals simp [encode, decodeWord, decodeFamily8, decodeFamilyE, decodeFamilyF]

/-- Settles O6: by `decodeWord_encode`, and the two bytes of a word are the word (R46). -/
theorem decodeOfEncode : Obligations.DecodeOfEncode := by
  intro i h
  refine ⟨decodeWord_encode h, fun rest => ?_⟩
  simp [encodeBytes, decodeBytes, decodeWord_encode h]

/-! ### A word from its fields (R61, R62) -/

theorem eq_ofNat_of_toNat_eq {w k : Nat} {b : BitVec w} (h : b.toNat = k) : b = BitVec.ofNat w k := by
  rw [← h, BitVec.ofNat_toNat, BitVec.setWidth_eq]

theorem formatNNN_fields {op : Word} {f : Nat} (hf : (opFamily op).toNat = f) :
    formatNNN (BitVec.ofNat 4 f) (opNnn op) = op := by
  apply BitVec.eq_of_toNat_eq
  rw [← eq_ofNat_of_toNat_eq hf, formatNNN_toNat, opFamily_toNat, opNnn_toNat]; omega

theorem formatXKK_fields {op : Word} {f k : Nat} (hf : (opFamily op).toNat = f) (hk : (opKk op).toNat = k) :
    formatXKK (BitVec.ofNat 4 f) (opX op) (BitVec.ofNat 8 k) = op := by
  apply BitVec.eq_of_toNat_eq
  rw [← eq_ofNat_of_toNat_eq hf, ← eq_ofNat_of_toNat_eq hk, formatXKK_toNat, opFamily_toNat, opX_val, opKk_toNat]; omega

theorem formatXYN_fields {op : Word} {f k : Nat} (hf : (opFamily op).toNat = f) (hk : (opN op).toNat = k) :
    formatXYN (BitVec.ofNat 4 f) (opX op) (opY op) (BitVec.ofNat 4 k) = op := by
  apply BitVec.eq_of_toNat_eq
  rw [← eq_ofNat_of_toNat_eq hf, ← eq_ofNat_of_toNat_eq hk, formatXYN_toNat, opFamily_toNat, opX_val, opY_val, opN_toNat]
  omega

/-- Settles O2: the fields as numbers. -/
theorem fieldsAreBitSlices : Obligations.FieldsAreBitSlices := fun op =>
  ⟨opFamily_toNat op, opNnn_toNat op, opX_val op, opY_val op, opKk_toNat op, opN_toNat op⟩

/-- Settles O8: each word decodes by computation. -/
theorem specWordsDecode : Obligations.SpecWordsDecode := by
  refine ⟨?_, ?_, ?_, ?_⟩ <;> decide

/-! ### The words that decode to nothing (R66, R67) -/

/-- `InvalidWord` is a condition on the family and the secondary field. -/
theorem invalidWord_iff {op : Word} : InvalidWord op.toNat ↔
    ((opFamily op).toNat = 0x8 ∧ (opN op).toNat ∈ [0x8, 0x9, 0xA, 0xB, 0xC, 0xD, 0xF]) ∨
    ((opFamily op).toNat = 0xE ∧ (opKk op).toNat ∉ [0x9E, 0xA1]) ∨
    ((opFamily op).toNat = 0xF ∧ (opKk op).toNat ∉ [0x07, 0x0A, 0x15, 0x18, 0x1E, 0x29, 0x33, 0x55, 0x65]) := by
  rw [opFamily_toNat, opN_toNat, opKk_toNat]

theorem decodeFamily8_error_iff {op : Word} {e : Reject} : decodeFamily8 op = .error e ↔
    (opN op).toNat ∈ [0x8, 0x9, 0xA, 0xB, 0xC, 0xD, 0xF] ∧ e = .invalidOpcode op := by
  have hlt := (opN op).isLt
  unfold decodeFamily8
  interval_cases (opN op).toNat <;> simp [eq_comm]

theorem decodeFamilyE_error_iff {op : Word} {e : Reject} : decodeFamilyE op = .error e ↔
    (opKk op).toNat ∉ [0x9E, 0xA1] ∧ e = .invalidOpcode op := by
  unfold decodeFamilyE
  split
  case h_3 => exact ⟨fun h => ⟨by simp_all, (Except.error.inj h).symm⟩, fun h => h.2 ▸ rfl⟩
  all_goals simp [*]

theorem decodeFamilyF_error_iff {op : Word} {e : Reject} : decodeFamilyF op = .error e ↔
    (opKk op).toNat ∉ [0x07, 0x0A, 0x15, 0x18, 0x1E, 0x29, 0x33, 0x55, 0x65] ∧ e = .invalidOpcode op := by
  unfold decodeFamilyF
  split
  case h_10 => exact ⟨fun h => ⟨by simp_all, (Except.error.inj h).symm⟩, fun h => h.2 ▸ rfl⟩
  all_goals simp [*]

theorem decodeWord_error_iff {op : Word} {e : Reject} :
    decodeWord op = .error e ↔ InvalidWord op.toNat ∧ e = .invalidOpcode op := by
  have hlt := (opFamily op).isLt
  rw [invalidWord_iff]
  unfold decodeWord
  split
  case h_9 hf => simpa [hf] using decodeFamily8_error_iff
  case h_15 hf => simpa [hf] using decodeFamilyE_error_iff
  case h_16 =>
    have hf : (opFamily op).toNat = 0xF := by grind
    simpa [hf] using decodeFamilyF_error_iff
  all_goals simp [*]

theorem exists_decodeWord_error_iff {op : Word} : (∃ e, decodeWord op = .error e) ↔ InvalidWord op.toNat := by
  simp only [decodeWord_error_iff, exists_and_left, exists_eq, and_true]

/-! ### The word without its ignored bits (R65) -/

theorem and_FFF0 (op : Word) : op &&& 0xFFF0#16 = formatXYN (opFamily op) (opX op) (opY op) 0x0#4 := by
  apply BitVec.eq_of_getLsbD_eq
  intro j hj
  simp only [formatXYN, regBits, opFamily, opX, opY, BitVec.ofFin_toFin, BitVec.getLsbD_and, BitVec.getLsbD_append,
    BitVec.getLsbD_extractLsb']
  interval_cases j <;> simp

theorem and_FF0F (op : Word) : op &&& 0xFF0F#16 = formatXYN (opFamily op) (opX op) 0 (opN op) := by
  apply BitVec.eq_of_getLsbD_eq
  intro j hj
  simp only [formatXYN, regBits, opFamily, opX, opN, BitVec.ofFin_toFin, BitVec.getLsbD_and, BitVec.getLsbD_append,
    BitVec.getLsbD_extractLsb']
  interval_cases j <;> simp

theorem canonicalWord_of_family_5_9 {op : Word} {f : Nat} (hf : (opFamily op).toNat = f) (h : f = 0x5 ∨ f = 0x9) :
    canonicalWord op = formatXYN (BitVec.ofNat 4 f) (opX op) (opY op) 0x0#4 := by
  rw [← eq_ofNat_of_toNat_eq hf, ← and_FFF0, canonicalWord, hf]
  obtain rfl | rfl := h <;> rfl

theorem canonicalWord_of_shift {op : Word} {k : Nat} (hf : (opFamily op).toNat = 0x8) (hk : (opN op).toNat = k)
    (h : k = 0x6 ∨ k = 0xE) : canonicalWord op = formatXYN 0x8#4 (opX op) 0 (BitVec.ofNat 4 k) := by
  have hs : opN op = 0x6#4 ∨ opN op = 0xE#4 :=
    h.imp (fun e => eq_ofNat_of_toNat_eq (hk.trans e)) fun e => eq_ofNat_of_toNat_eq (hk.trans e)
  rw [← eq_ofNat_of_toNat_eq hk, ← eq_ofNat_of_toNat_eq hf, ← and_FF0F, canonicalWord, hf]
  exact if_pos hs

theorem canonicalWord_of_not_shift {op : Word} (hf : (opFamily op).toNat = 0x8) (h6 : (opN op).toNat ≠ 0x6)
    (hE : (opN op).toNat ≠ 0xE) : canonicalWord op = op := by
  have hs : ¬ (opN op = 0x6#4 ∨ opN op = 0xE#4) :=
    not_or.2 ⟨fun e => h6 (congrArg BitVec.toNat e), fun e => hE (congrArg BitVec.toNat e)⟩
  rw [canonicalWord, hf]
  exact if_neg hs

theorem canonicalWord_of_family {op : Word} (h : (opFamily op).toNat ∉ [0x5, 0x8, 0x9]) : canonicalWord op = op := by
  rw [canonicalWord]
  split
  case h_4 => rfl
  all_goals simp_all

/-- A word that decodes to nothing has no ignored bits. -/
theorem canonicalWord_of_error {op : Word} {e : Reject} (h : decodeWord op = .error e) : canonicalWord op = op := by
  obtain ⟨hf, hn⟩ | ⟨hf, -⟩ | ⟨hf, -⟩ := invalidWord_iff.1 (decodeWord_error_iff.1 h).1
  · exact canonicalWord_of_not_shift hf (fun e => by simp [e] at hn) fun e => by simp [e] at hn
  all_goals exact canonicalWord_of_family (by simp [hf])

/-! ### What a decoded instruction says of its word -/

theorem decodeFamily0_spec {op : Word} (hf : (opFamily op).toNat = 0x0) :
    (decodeFamily0 op).wellFormed = true ∧ encode (decodeFamily0 op) = op := by
  have hw : formatNNN 0x0#4 (opNnn op) = op := formatNNN_fields hf
  unfold decodeFamily0
  split_ifs with hcls hret
  · exact ⟨rfl, hcls.symm⟩
  · exact ⟨rfl, hret.symm⟩
  · have hcls' : opNnn op ≠ 0x0E0#12 := fun e => hcls (by rw [← hw, e]; rfl)
    have hret' : opNnn op ≠ 0x0EE#12 := fun e => hret (by rw [← hw, e]; rfl)
    exact ⟨by simp [Instr.wellFormed, hcls', hret'], hw⟩

theorem decodeFamily8_ok {op : Word} {i : Instr} (hf : (opFamily op).toNat = 0x8) (h : decodeFamily8 op = .ok i) :
    i.wellFormed = true ∧ encode i = canonicalWord op := by
  unfold decodeFamily8 at h
  split at h
  case h_10 => cases h
  case h_7 hn => cases h; exact ⟨rfl, (canonicalWord_of_shift hf hn (.inl rfl)).symm⟩
  case h_9 hn => cases h; exact ⟨rfl, (canonicalWord_of_shift hf hn (.inr rfl)).symm⟩
  all_goals
    next hn =>
    cases h
    rw [canonicalWord_of_not_shift hf (by rw [hn]; decide) (by rw [hn]; decide)]
    exact ⟨rfl, formatXYN_fields hf hn⟩

theorem decodeFamilyE_ok {op : Word} {i : Instr} (hf : (opFamily op).toNat = 0xE) (h : decodeFamilyE op = .ok i) :
    i.wellFormed = true ∧ encode i = op := by
  unfold decodeFamilyE at h
  split at h
  case h_3 => cases h
  all_goals
    next hk =>
    cases h
    exact ⟨rfl, formatXKK_fields hf hk⟩

theorem decodeFamilyF_ok {op : Word} {i : Instr} (hf : (opFamily op).toNat = 0xF) (h : decodeFamilyF op = .ok i) :
    i.wellFormed = true ∧ encode i = op := by
  unfold decodeFamilyF at h
  split at h
  case h_10 => cases h
  all_goals
    next hk =>
    cases h
    exact ⟨rfl, formatXKK_fields hf hk⟩

/-- What a word decodes to is well-formed, and its encoding is the word without the ignored bits (R62, R64, R65). -/
theorem decodeWord_ok {op : Word} {i : Instr} (h : decodeWord op = .ok i) :
    i.wellFormed = true ∧ encode i = canonicalWord op := by
  have hlt := (opFamily op).isLt
  rw [decodeWord] at h
  split at h
  case h_1 hf =>
    cases h
    rw [canonicalWord_of_family (by simp [hf])]
    exact decodeFamily0_spec hf
  case h_9 hf => exact decodeFamily8_ok hf h
  case h_15 hf =>
    rw [canonicalWord_of_family (by simp [hf])]
    exact decodeFamilyE_ok hf h
  case h_16 =>
    have hf : (opFamily op).toNat = 0xF := by grind
    rw [canonicalWord_of_family (by simp [hf])]
    exact decodeFamilyF_ok hf h
  case h_6 hf => cases h; exact ⟨rfl, (canonicalWord_of_family_5_9 hf (.inl rfl)).symm⟩
  case h_10 hf => cases h; exact ⟨rfl, (canonicalWord_of_family_5_9 hf (.inr rfl)).symm⟩
  case h_14 hf =>
    cases h
    rw [canonicalWord_of_family (by simp [hf])]
    exact ⟨rfl, by simpa [encode] using formatXYN_fields hf rfl⟩
  case h_2 hf | h_3 hf | h_11 hf | h_12 hf =>
    cases h
    rw [canonicalWord_of_family (by simp [hf])]
    exact ⟨rfl, formatNNN_fields hf⟩
  all_goals
    next hf =>
    cases h
    rw [canonicalWord_of_family (by simp [hf])]
    exact ⟨rfl, by simpa [encode] using formatXKK_fields hf rfl⟩

/-- Settles O5: `decodeWord_ok` and `decodeWord_error_iff`. -/
theorem decodeIsTotal : Obligations.DecodeIsTotal := by
  intro op
  cases hd : decodeWord op with
  | ok i => exact .inl ⟨i, rfl, (decodeWord_ok hd).1⟩
  | error e => exact .inr (congrArg _ (decodeWord_error_iff.1 hd).2)

/-- Settles O7: two words with one encoding decode alike, and a word that decodes to nothing is no encoding. -/
theorem encodeOfDecode : Obligations.EncodeOfDecode := by
  intro op i hd
  obtain ⟨hi, he⟩ := decodeWord_ok hd
  refine ⟨he, fun op' hc => ?_⟩
  rw [← he] at hc
  cases hd' : decodeWord op' with
  | ok j =>
    obtain ⟨hj, hej⟩ := decodeWord_ok hd'
    rw [← decodeWord_encode hj, hej, hc, decodeWord_encode hi]
  | error e => rw [← hd', ← canonicalWord_of_error hd', hc, decodeWord_encode hi]

/-! ### The invalid words, listed (R66) -/

/-- The numbers with quotient `f` by `b * c` whose remainder by `b` is one of `sel`: the words of a family, by the value of
their lowest field. -/
def familyWords (f b c : Nat) (sel : List Nat) : List Nat :=
  (sel ×ˢ List.range c).map fun p => p.1 + b * (p.2 + c * f)

theorem familyWords_length (f b c : Nat) (sel : List Nat) : (familyWords f b c sel).length = sel.length * c := by
  rw [familyWords, List.length_map, List.length_product, List.length_range]

theorem mem_familyWords {f b c n : Nat} {sel : List Nat} (hc : 0 < c) (hs : ∀ k ∈ sel, k < b) :
    n ∈ familyWords f b c sel ↔ n / (b * c) = f ∧ n % b ∈ sel := by
  simp only [familyWords, List.mem_map, List.mem_product, List.mem_range, Prod.exists, ← Nat.div_div_eq_div_mul]
  constructor
  · rintro ⟨k, m, ⟨hk, hm⟩, rfl⟩
    obtain ⟨hq, hr⟩ := (Nat.div_mod_unique (Nat.zero_lt_of_lt (hs k hk))).2 ⟨rfl, hs k hk⟩
    rw [hq, hr]
    exact ⟨((Nat.div_mod_unique hc).2 ⟨rfl, hm⟩).1, hk⟩
  · rintro ⟨rfl, hk⟩
    exact ⟨n % b, n / b % c, ⟨hk, Nat.mod_lt _ hc⟩, by rw [Nat.mod_add_div, Nat.mod_add_div]⟩

theorem familyWords_nodup {f b c : Nat} {sel : List Nat} (hs : ∀ k ∈ sel, k < b) (hn : sel.Nodup) :
    (familyWords f b c sel).Nodup := by
  refine (hn.product List.nodup_range).map_on ?_
  rintro ⟨k, m⟩ hk ⟨k', m'⟩ hk' h
  have hkb := hs k (List.mem_product.1 hk).1
  have hkb' := hs k' (List.mem_product.1 hk').1
  obtain ⟨hq, hr⟩ := (Nat.div_mod_unique (Nat.zero_lt_of_lt hkb)).2 ⟨h, hkb⟩
  obtain ⟨hq', hr'⟩ := (Nat.div_mod_unique (Nat.zero_lt_of_lt hkb)).2 ⟨rfl, hkb'⟩
  exact Prod.ext (hr.symm.trans hr') (Nat.add_right_cancel (hq.symm.trans hq'))

/-- The bytes that are none of `l`. -/
def bytesExcept (l : List Nat) : List Nat := (List.range 256).filter (· ∉ l)

theorem mem_bytesExcept {k : Nat} {l : List Nat} : k ∈ bytesExcept l ↔ k < 256 ∧ k ∉ l := by
  simp [bytesExcept]

theorem bytesExcept_length {l : List Nat} (hn : l.Nodup) (hl : ∀ k ∈ l, k < 256) :
    (bytesExcept l).length = 256 - l.length := by
  have hperm : ((List.range 256).filter (· ∈ l)).Perm l :=
    (List.perm_ext_iff_of_nodup (List.nodup_range.filter _) hn).2 fun k => by simpa using hl k
  have hsum := List.length_eq_length_filter_add (l := List.range 256) (· ∈ l)
  rw [hperm.length_eq, List.length_range] at hsum
  simp only [bytesExcept, decide_not]
  omega

theorem mem_familyWords_bytesExcept {f n : Nat} {l : List Nat} :
    n ∈ familyWords f 256 16 (bytesExcept l) ↔ n / 4096 = f ∧ n % 256 ∉ l := by
  rw [mem_familyWords (by decide) fun _ hk => (mem_bytesExcept.1 hk).1, mem_bytesExcept,
    and_iff_right (Nat.mod_lt n (by decide))]

theorem familyWords_bytesExcept_nodup {f : Nat} {l : List Nat} : (familyWords f 256 16 (bytesExcept l)).Nodup :=
  familyWords_nodup (fun _ hk => (mem_bytesExcept.1 hk).1) (List.nodup_range.filter _)

/-- The invalid words of family 8. -/
def invalidWords8 : List Nat := familyWords 0x8 16 256 [0x8, 0x9, 0xA, 0xB, 0xC, 0xD, 0xF]

/-- The invalid words of family 0xE. -/
def invalidWordsE : List Nat := familyWords 0xE 256 16 (bytesExcept [0x9E, 0xA1])

/-- The invalid words of family 0xF. -/
def invalidWordsF : List Nat :=
  familyWords 0xF 256 16 (bytesExcept [0x07, 0x0A, 0x15, 0x18, 0x1E, 0x29, 0x33, 0x55, 0x65])

theorem mem_invalidWords8 {n : Nat} :
    n ∈ invalidWords8 ↔ n / 4096 = 0x8 ∧ n % 16 ∈ [0x8, 0x9, 0xA, 0xB, 0xC, 0xD, 0xF] :=
  mem_familyWords (by decide) (by decide)

theorem mem_invalidWordsE {n : Nat} : n ∈ invalidWordsE ↔ n / 4096 = 0xE ∧ n % 256 ∉ [0x9E, 0xA1] :=
  mem_familyWords_bytesExcept

theorem mem_invalidWordsF {n : Nat} :
    n ∈ invalidWordsF ↔ n / 4096 = 0xF ∧ n % 256 ∉ [0x07, 0x0A, 0x15, 0x18, 0x1E, 0x29, 0x33, 0x55, 0x65] :=
  mem_familyWords_bytesExcept

theorem invalidWordsE_length : invalidWordsE.length = 254 * 16 :=
  (familyWords_length ..).trans (congrArg (· * 16) (bytesExcept_length (by decide) (by decide)))

theorem invalidWordsF_length : invalidWordsF.length = 247 * 16 :=
  (familyWords_length ..).trans (congrArg (· * 16) (bytesExcept_length (by decide) (by decide)))

theorem invalidWords_nodup : (invalidWords8 ++ invalidWordsE ++ invalidWordsF).Nodup := by
  refine List.nodup_append'.2 ⟨List.nodup_append'.2
    ⟨familyWords_nodup (by decide) (by decide), familyWords_bytesExcept_nodup, fun n h8 hE => ?_⟩,
    familyWords_bytesExcept_nodup, fun n h hF => ?_⟩
  · exact absurd ((mem_invalidWords8.1 h8).1.symm.trans (mem_invalidWordsE.1 hE).1) (by decide)
  · obtain h8 | hE := List.mem_append.1 h
    · exact absurd ((mem_invalidWords8.1 h8).1.symm.trans (mem_invalidWordsF.1 hF).1) (by decide)
    · exact absurd ((mem_invalidWordsE.1 hE).1.symm.trans (mem_invalidWordsF.1 hF).1) (by decide)

theorem mem_invalidWords {n : Nat} :
    n ∈ invalidWords8 ++ invalidWordsE ++ invalidWordsF ↔ n < 65536 ∧ InvalidWord n := by
  have hlt : InvalidWord n → n < 65536 := by rintro (h | h | h) <;> omega
  rw [List.mem_append, List.mem_append, mem_invalidWords8, mem_invalidWordsE, mem_invalidWordsF, or_assoc]
  exact (and_iff_right_of_imp hlt).symm

/-- Settles O3: `decodeWord_error_iff`, and the three lists above. -/
theorem invalidWordsAreExactly : Obligations.InvalidWordsAreExactly := by
  refine ⟨fun op => exists_decodeWord_error_iff, fun op hf => ?_,
    invalidWords8, invalidWordsE, invalidWordsF, familyWords_length .., invalidWordsE_length, invalidWordsF_length,
    fun n hn => (mem_invalidWords8.1 hn).1, fun n hn => (mem_invalidWordsE.1 hn).1,
    fun n hn => (mem_invalidWordsF.1 hn).1, invalidWords_nodup, fun n => mem_invalidWords⟩
  cases hd : decodeWord op with
  | ok i => exact ⟨i, rfl⟩
  | error e => obtain ⟨h, -⟩ | ⟨h, -⟩ | ⟨h, -⟩ := (decodeWord_error_iff.1 hd).1 <;> simp [h] at hf

/-! ### The rows of the opcode map (R64) -/

@[simp] theorem opFamily_and (a b : Word) : opFamily (a &&& b) = opFamily a &&& opFamily b := BitVec.extractLsb'_and ..

@[simp] theorem opN_and (a b : Word) : opN (a &&& b) = opN a &&& opN b := BitVec.extractLsb'_and ..

@[simp] theorem opKk_and (a b : Word) : opKk (a &&& b) = opKk a &&& opKk b := BitVec.extractLsb'_and ..

theorem OpcodeRow.covers_iff {r : OpcodeRow} {op : Word} : r.covers op = true ↔ op &&& r.mask = r.value := beq_iff_eq

/-- Each row fixes the family, and in the families 8, 0xE and 0xF the secondary field as well. -/
theorem opcodeRows_mask : ∀ r ∈ opcodeRows, opFamily r.mask = 0xF#4 ∧
    (opFamily r.value = 0x8#4 → opN r.mask = 0xF#4) ∧
    (opFamily r.value = 0xE#4 ∨ opFamily r.value = 0xF#4 → opKk r.mask = 0xFF#8) := by decide

/-- No row fixes a bit that R65 ignores. -/
theorem opcodeRows_ignored : ∀ r ∈ opcodeRows,
    (opFamily r.value = 0x5#4 ∨ opFamily r.value = 0x9#4 → 0xFFF0#16 &&& r.mask = r.mask) ∧
    (opFamily r.value = 0x8#4 → 0xFF0F#16 &&& r.mask = r.mask) := by decide

theorem opcodeRows_value_valid : ∀ r ∈ opcodeRows, ¬ InvalidWord r.value.toNat := by decide

theorem opcodeRows_cls_ret : ∀ r ∈ opcodeRows, r.mnemonic ∈ ["CLS", "RET"] →
    r.mask = 0xFFFF#16 ∧ (r.value = 0x00E0#16 ∨ r.value = 0x00EE#16) := by decide

theorem opFamily_of_covers {r : OpcodeRow} {op : Word} (hr : r ∈ opcodeRows) (hc : r.covers op = true) :
    opFamily r.value = opFamily op := by
  rw [← OpcodeRow.covers_iff.1 hc, opFamily_and, (opcodeRows_mask r hr).1]
  exact BitVec.and_allOnes

/-- No row covers an invalid word: the row's own value has the word's family and secondary field. -/
theorem not_invalidWord_of_covers {r : OpcodeRow} {op : Word} (hr : r ∈ opcodeRows) (hc : r.covers op = true) :
    ¬ InvalidWord op.toNat := by
  obtain ⟨-, hn, hk⟩ := opcodeRows_mask r hr
  have hf := opFamily_of_covers hr hc
  have hN (h : (opFamily op).toNat = 0x8) : opN r.value = opN op := by
    rw [← OpcodeRow.covers_iff.1 hc, opN_and, hn (hf.trans (eq_ofNat_of_toNat_eq h))]
    exact BitVec.and_allOnes
  have hK (h : opFamily op = 0xE#4 ∨ opFamily op = 0xF#4) : opKk r.value = opKk op := by
    rw [← OpcodeRow.covers_iff.1 hc, opKk_and, hk (hf ▸ h)]
    exact BitVec.and_allOnes
  have hv := opcodeRows_value_valid r hr
  rw [invalidWord_iff, hf] at hv
  rw [invalidWord_iff]
  rintro (⟨h, hs⟩ | ⟨h, hs⟩ | ⟨h, hs⟩)
  · exact hv (.inl ⟨h, by rwa [hN h]⟩)
  · exact hv (.inr (.inl ⟨h, by rwa [hK (.inl (eq_ofNat_of_toNat_eq h))]⟩))
  · exact hv (.inr (.inr ⟨h, by rwa [hK (.inr (eq_ofNat_of_toNat_eq h))]⟩))

theorem opFamily_canonicalWord (op : Word) : opFamily (canonicalWord op) = opFamily op := by
  rw [canonicalWord]
  split
  case h_1 | h_2 => exact (opFamily_and _ _).trans BitVec.and_allOnes
  case h_3 =>
    split
    · exact (opFamily_and _ _).trans BitVec.and_allOnes
    · rfl
  case h_4 => rfl

theorem canonicalWord_and_mask {r : OpcodeRow} {op : Word} (hr : r ∈ opcodeRows) (hf : opFamily r.value = opFamily op) :
    canonicalWord op &&& r.mask = op &&& r.mask := by
  obtain ⟨h59, h8⟩ := opcodeRows_ignored r hr
  rw [canonicalWord]
  split
  case h_1 h => rw [BitVec.and_assoc, h59 (.inl (hf.trans (eq_ofNat_of_toNat_eq h)))]
  case h_2 h => rw [BitVec.and_assoc, h59 (.inr (hf.trans (eq_ofNat_of_toNat_eq h)))]
  case h_3 h =>
    split
    · rw [BitVec.and_assoc, h8 (hf.trans (eq_ofNat_of_toNat_eq h))]
    · rfl
  case h_4 => rfl

theorem covers_of_covers_canonicalWord {r : OpcodeRow} {op : Word} (hr : r ∈ opcodeRows)
    (hc : r.covers (canonicalWord op) = true) : r.covers op = true := by
  have hf : opFamily r.value = opFamily op := (opFamily_of_covers hr hc).trans (opFamily_canonicalWord op)
  rw [OpcodeRow.covers_iff, canonicalWord_and_mask hr hf] at hc
  exact OpcodeRow.covers_iff.2 hc

/-- The rows' laws of the 35 constructors, together. -/
theorem encodeMatchesRow (i : Instr) : Laws.EncodeMatchesRow.Statement i :=
  match i with
  | .cls => Laws.EncodeMatchesRow.cls
  | .ret => Laws.EncodeMatchesRow.ret
  | .sys nnn => Laws.EncodeMatchesRow.sys nnn
  | .jp nnn => Laws.EncodeMatchesRow.jp nnn
  | .jpV0 nnn => Laws.EncodeMatchesRow.jpV0 nnn
  | .call nnn => Laws.EncodeMatchesRow.call nnn
  | .seImm x kk => Laws.EncodeMatchesRow.seImm x kk
  | .sneImm x kk => Laws.EncodeMatchesRow.sneImm x kk
  | .seReg x y => Laws.EncodeMatchesRow.seReg x y
  | .sneReg x y => Laws.EncodeMatchesRow.sneReg x y
  | .ldImm x kk => Laws.EncodeMatchesRow.ldImm x kk
  | .ldReg x y => Laws.EncodeMatchesRow.ldReg x y
  | .addImm x kk => Laws.EncodeMatchesRow.addImm x kk
  | .orReg x y => Laws.EncodeMatchesRow.orReg x y
  | .andReg x y => Laws.EncodeMatchesRow.andReg x y
  | .xorReg x y => Laws.EncodeMatchesRow.xorReg x y
  | .addReg x y => Laws.EncodeMatchesRow.addReg x y
  | .subReg x y => Laws.EncodeMatchesRow.subReg x y
  | .subnReg x y => Laws.EncodeMatchesRow.subnReg x y
  | .shr x => Laws.EncodeMatchesRow.shr x
  | .shl x => Laws.EncodeMatchesRow.shl x
  | .rnd x kk => Laws.EncodeMatchesRow.rnd x kk
  | .drw x y n => Laws.EncodeMatchesRow.drw x y n
  | .skp x => Laws.EncodeMatchesRow.skp x
  | .sknp x => Laws.EncodeMatchesRow.sknp x
  | .ldVxDT x => Laws.EncodeMatchesRow.ldVxDT x
  | .ldDTVx x => Laws.EncodeMatchesRow.ldDTVx x
  | .ldSTVx x => Laws.EncodeMatchesRow.ldSTVx x
  | .ldVxK x => Laws.EncodeMatchesRow.ldVxK x
  | .addI x => Laws.EncodeMatchesRow.addI x
  | .ldF x => Laws.EncodeMatchesRow.ldF x
  | .ldI nnn => Laws.EncodeMatchesRow.ldI nnn
  | .ldB x => Laws.EncodeMatchesRow.ldB x
  | .stRegs x => Laws.EncodeMatchesRow.stRegs x
  | .ldRegs x => Laws.EncodeMatchesRow.ldRegs x

/-- Every word that decodes is covered by the row of its instruction. -/
theorem exists_row_of_decodeWord_ok {op : Word} {i : Instr} (hd : decodeWord op = .ok i) :
    ∃ r ∈ opcodeRows, r.mnemonic = i.mnemonic ∧ r.covers op = true := by
  obtain ⟨hi, he⟩ := decodeWord_ok hd
  obtain ⟨r, hr, hm, hc⟩ := encodeMatchesRow i hi
  exact ⟨r, hr, hm, covers_of_covers_canonicalWord hr (he ▸ hc)⟩

theorem OpcodeRow.overlaps_of_covers {r q : OpcodeRow} {op : Word} (hr : r.covers op = true) (hq : q.covers op = true) :
    r.overlaps q = true := by
  rw [OpcodeRow.overlaps, beq_iff_eq, ← OpcodeRow.covers_iff.1 hr, ← OpcodeRow.covers_iff.1 hq]
  apply BitVec.eq_of_getLsbD_eq
  intro j _
  simp only [BitVec.getLsbD_and, BitVec.getLsbD_xor, BitVec.getLsbD_zero]
  have hbit : ∀ a m k : Bool, ((((a && m) ^^ (a && k)) && m) && k) = false := by decide
  exact hbit _ _ _

/-- The rows cover a common word only where they are one row or the word is that of `CLS` or `RET`. -/
def OpcodeRow.AlmostDisjoint (r q : OpcodeRow) : Prop :=
  ∀ op, r.covers op = true → q.covers op = true → r = q ∨ op = 0x00E0#16 ∨ op = 0x00EE#16

theorem opcodeRows_almostDisjoint : ∀ r ∈ opcodeRows, ∀ q ∈ opcodeRows, r.AlmostDisjoint q := by
  have : Std.Symm OpcodeRow.AlmostDisjoint := ⟨fun _ _ h op hq hr => (h op hr hq).imp_left Eq.symm⟩
  refine fun _ hr _ hq => List.Pairwise.forall_of_forall (fun _ _ _ _ _ => .inl rfl) ?_ hr hq
  refine opcodeRows_overlap_only_in_family_0.imp_of_mem fun {r q} hr _ h op hrc hqc => .inr ?_
  obtain ⟨hm, hv⟩ := opcodeRows_cls_ret r hr (h (OpcodeRow.overlaps_of_covers hrc hqc)).2
  have hop : op = r.value := by
    rw [← OpcodeRow.covers_iff.1 hrc, hm]
    exact BitVec.and_allOnes.symm
  rwa [hop]

/-- Settles O1: an invalid word is covered by no row, and a word that decodes by its instruction's row; another row that
comes first covers the words of `CLS` and `RET` only, where both are computed. -/
theorem decodeMatchesOpcodeMap : Obligations.DecodeMatchesOpcodeMap := by
  refine fun op => ⟨?_, fun r hr q hq => opcodeRows_almostDisjoint r hr q hq op⟩
  cases hd : decodeWord op with
  | error e =>
    have hi := (decodeWord_error_iff.1 hd).1
    rw [List.find?_eq_none.2 fun r hr hc => not_invalidWord_of_covers hr hc hi]
    rfl
  | ok i =>
    obtain ⟨r, hr, hm, hc⟩ := exists_row_of_decodeWord_ok hd
    cases hq : opcodeRows.find? fun r => r.covers op with
    | none => exact absurd hc (List.find?_eq_none.1 hq r hr)
    | some q =>
      have hqc : q.covers op = true := List.find?_some (p := fun q : OpcodeRow => q.covers op) hq
      obtain rfl | rfl | rfl := opcodeRows_almostDisjoint r hr q (List.mem_of_find?_eq_some hq) op hc hqc
      · exact congrArg some hm.symm
      · cases hd; cases hq; rfl
      · cases hd; cases hq; rfl

end Sys2Proof

/-! ## System and control flow -/

namespace Sys2Proof

open Machine

/-! ### Which numbers spell an instruction (R62, R64) -/

theorem spells_of_toNat {op : Word} {n : Nat} {i : Instr} (hn : op.toNat = n) (hd : decodeWord op = .ok i) :
    Spells n i := by
  rwa [Spells, ← eq_ofNat_of_toNat_eq hn]

theorem spells_formatNNN {f : Nibble} {nnn : Addr} {i : Instr} (hd : decodeWord (formatNNN f nnn) = .ok i) :
    Spells (f.toNat * 0x1000 + nnn.toNat) i :=
  spells_of_toNat (formatNNN_toNat f nnn) hd

theorem spells_formatXKK {f : Nibble} {x : Reg} {kk : Byte} {i : Instr}
    (hd : decodeWord (formatXKK f x kk) = .ok i) : Spells (f.toNat * 0x1000 + 0x100 * x.val + kk.toNat) i :=
  spells_of_toNat (by rw [formatXKK_toNat, Nat.mul_comm x.val]) hd

theorem spells_formatXYN {f : Nibble} {x y : Reg} {n : Nibble} {i : Instr}
    (hd : decodeWord (formatXYN f x y n) = .ok i) :
    Spells (f.toNat * 0x1000 + 0x100 * x.val + 0x10 * y.val + n.toNat) i :=
  spells_of_toNat (by rw [formatXYN_toNat, Nat.mul_comm x.val, Nat.mul_comm y.val]) hd

/-- Any low nibble spells the same `SE Vx, Vy` (R65, R108). -/
theorem decodeWord_seReg (x y : Reg) (n : Nibble) : decodeWord (formatXYN 0x5#4 x y n) = .ok (.seReg x y) := by
  simp [decodeWord]

/-- Any low nibble spells the same `SNE Vx, Vy` (R65, R109). -/
theorem decodeWord_sneReg (x y : Reg) (n : Nibble) : decodeWord (formatXYN 0x9#4 x y n) = .ok (.sneReg x y) := by
  simp [decodeWord]

end Sys2Proof

namespace Sys2Proof.Machine

/-! ### Writes of `PC` and stack accesses, as the statements see them -/

theorem PcFrame.setPc (s : State) (w : Word) : PcFrame s (s.setPc w) := ⟨rfl, fun _ => rfl⟩

theorem State.advance_pc_toNat (s : State) : s.advance.pc.toNat = (s.pc.toNat + 2) % 65536 := BitVec.toNat_add _ _

/-- The target of `JP V0` needs no reduction: the sum of its 12 and 8 bits fits in 16 (R104). -/
theorem jpV0_target_toNat (nnn : Addr) (b : Byte) :
    (nnn.zeroExtend 16 + b.zeroExtend 16).toNat = nnn.toNat + b.toNat := by
  have hb : (b.zeroExtend 16).toNat = b.toNat := BitVec.toNat_setWidth_of_le (by decide)
  rw [BitVec.toNat_add, zeroExtend_addr_toNat, hb]
  omega

/-- The newest entry, by its index (R19). -/
theorem State.stackTop_eq_getElem {s : State} {k : Fin 16} (h : s.sp.val = k.val + 1) : s.stackTop = s.stack[k] := by
  simp [State.stackTop, h]

/-- A pop right after a push that fits leaves the pushed word as a dead entry, and nothing else (R20, R101). -/
theorem State.pop_push {s : State} (w : Word) (h : s.sp.val < Config.stackDepth) :
    (s.push w).pop = { s with stack := (s.push w).stack } := by
  have hsp : (s.push w).pop.sp = s.sp := Fin.ext (by rw [State.pop_sp_val, State.push_sp_val]; omega)
  exact congrArg (fun p => { s with stack := (s.push w).stack, sp := p }) hsp

/-- An instruction that skips on `c` adds 4 to `PC` where its condition `p` holds and 2 where it does not (R17). -/
theorem exec_skips {i : Instr} {s : State} {c : Bool} {p : Prop} [Decidable p] (hx : exec i s = .next (s.skipIf c))
    (hc : c = true ↔ p) :
    ∃ t, exec i s = .next t ∧ t.pc.toNat = (s.pc.toNat + if p then 4 else 2) % 65536 ∧ PcFrame s t := by
  refine ⟨_, hx, ?_, PcFrame.setPc s _⟩
  rw [State.skipIf_pc_toNat, if_congr hc rfl rfl]
  split <;> rfl

/-- The same for an instruction that skips where `p` fails (R17). -/
theorem exec_skips_not {i : Instr} {s : State} {c : Bool} {p : Prop} [Decidable p]
    (hx : exec i s = .next (s.skipIf c)) (hc : c = true ↔ ¬ p) :
    ∃ t, exec i s = .next t ∧ t.pc.toNat = (s.pc.toNat + if p then 2 else 4) % 65536 ∧ PcFrame s t := by
  simpa only [ite_not] using exec_skips hx hc

theorem beq_iff_toNat_eq {a b : Byte} : (a == b) = true ↔ a.toNat = b.toNat := beq_iff_eq.trans BitVec.toNat_inj.symm

theorem bne_iff_toNat_ne {a b : Byte} : (a != b) = true ↔ ¬ a.toNat = b.toNat :=
  bne_iff_ne.trans (not_congr BitVec.toNat_inj.symm)

/-! ### The instructions (R100 to R109) -/

/-- Settles O39: `CALL` pushes, and `RET` pops what was pushed (`State.stackTop_push`, `State.pop_push`). -/
theorem retUndoesCall : Obligations.RetUndoesCall := by
  intro nnn s t hlt ht
  rw [exec_call_pushes nnn hlt.ne] at ht
  cases ht
  have hne : (s.push (s.pc + 2#16)).sp ≠ 0 :=
    Fin.val_ne_iff.1 (by rw [State.push_sp_val, Nat.min_eq_left hlt]; exact Nat.succ_ne_zero _)
  have hret : exec .ret ((s.push (s.pc + 2#16)).setPc (nnn.zeroExtend 16)) =
      .next ((s.push (s.pc + 2#16)).pop.setPc (s.push (s.pc + 2#16)).stackTop) := exec_ret_pops hne
  rw [State.stackTop_push s _ hlt, State.pop_push _ hlt] at hret
  refine ⟨_, hret, s.advance_pc_toNat, rfl, fun k hk => ?_, rfl⟩
  exact (State.push_stack_getElem s _ k k.isLt).trans (if_neg hk.ne')

/-- Settles O35: the display is cleared, and `PC` advances. -/
theorem clsClearsDisplay : Obligations.ClsClearsDisplay :=
  ⟨rfl, fun s => ⟨s.dispClear.advance, rfl, State.pixel_dispClear s, s.dispClear.advance_pc_toNat, rfl, fun _ => rfl⟩⟩

/-- Settles O36: the two outcomes of `RET`, by whether the stack is empty. -/
theorem retPopsIntoPc : Obligations.RetPopsIntoPc := by
  refine ⟨rfl, rfl, fun s => ⟨exec_ret_empty, fun k hk => ?_⟩⟩
  have h0 : s.sp ≠ 0 := Fin.val_ne_iff.1 (hk ▸ Nat.succ_ne_zero _)
  exact ⟨_, exec_ret_pops h0, State.stackTop_eq_getElem hk, Nat.sub_eq_of_eq_add hk, rfl, fun _ => rfl⟩

/-- Settles O37: each word is in format `NNN`, and each instruction writes `PC` alone. -/
theorem sysAndJumpsSetPc : Obligations.SysAndJumpsSetPc := by
  refine fun nnn s => ⟨fun hcls hret => ?_, spells_formatNNN (f := 0x1#4) (decodeWord_encode (i := .jp nnn) rfl),
    spells_formatNNN (f := 0xB#4) (decodeWord_encode (i := .jpV0 nnn) rfl),
    ⟨_, rfl, s.advance_pc_toNat, PcFrame.setPc s _⟩, ⟨_, rfl, zeroExtend_addr_toNat nnn, PcFrame.setPc s _⟩,
    ⟨_, rfl, jpV0_target_toNat nnn _, PcFrame.setPc s _⟩⟩
  have hw : (Instr.sys nnn).wellFormed = true := by simp [Instr.wellFormed, hcls, hret]
  exact spells_of_toNat (by simp [encode, formatNNN_toNat]) (decodeWord_encode hw)

/-- Settles O38: the two outcomes of `CALL`, by whether the stack is full. -/
theorem callPushesReturnAddress : Obligations.CallPushesReturnAddress := by
  refine ⟨rfl, fun nnn s => ⟨spells_formatNNN (f := 0x2#4) (decodeWord_encode (i := .call nnn) rfl),
    exec_call_full nnn, fun k hk => ?_⟩⟩
  have hlt : s.sp.val < 16 := hk ▸ k.isLt
  have hentry (j : Fin 16) : (s.push (s.pc + 2#16)).stack[j] = if s.sp.val = j.val then s.pc + 2#16 else s.stack[j] :=
    State.push_stack_getElem s _ j j.isLt
  refine ⟨_, exec_call_pushes nnn hlt.ne, ?_, ?_, zeroExtend_addr_toNat nnn, fun j hj => ?_, rfl, fun _ => rfl⟩
  · exact (congrArg BitVec.toNat ((hentry k).trans (if_pos hk))).trans s.advance_pc_toNat
  · exact (Nat.min_eq_left hlt).trans (congrArg (· + 1) hk)
  · exact (hentry j).trans (if_neg fun e => hj (Fin.ext (e.symm.trans hk)))

/-- Settles O40: by `exec_skips` and its converse form. -/
theorem skipsCompareImmediate : Obligations.SkipsCompareImmediate := fun x kk _ =>
  ⟨spells_formatXKK (f := 0x3#4) (decodeWord_encode (i := .seImm x kk) rfl),
    spells_formatXKK (f := 0x4#4) (decodeWord_encode (i := .sneImm x kk) rfl),
    exec_skips rfl beq_iff_toNat_eq, exec_skips_not rfl bne_iff_toNat_ne⟩

/-- Settles O41: as O40, with the low nibble of the words free. -/
theorem skipsCompareRegisters : Obligations.SkipsCompareRegisters := fun x y n _ =>
  ⟨spells_formatXYN (f := 0x5#4) (decodeWord_seReg x y n), spells_formatXYN (f := 0x9#4) (decodeWord_sneReg x y n),
    exec_skips rfl beq_iff_toNat_eq, exec_skips_not rfl bne_iff_toNat_ne⟩

end Sys2Proof.Machine

/-! ## Loads and arithmetic -/

namespace Sys2Proof

open Machine

/-! ### Which numbers spell an instruction of family 8 (R62, R64) -/

/-- A word in format `XYN` whose last nibble is a selector, as the sum of its constant `w` and its two operands. -/
theorem spells_formatXYN_selector {f n : Nibble} {x y : Reg} {i : Instr} {w : Nat}
    (hw : w = f.toNat * 0x1000 + n.toNat) (hd : decodeWord (formatXYN f x y n) = .ok i) :
    Spells (w + 0x100 * x.val + 0x10 * y.val) i :=
  spells_of_toNat (by rw [formatXYN_toNat]; omega) hd

/-- Any `y` spells the same `SHR Vx` (R65, R129). -/
theorem decodeWord_shr (x y : Reg) : decodeWord (formatXYN 0x8#4 x y 0x6#4) = .ok (.shr x) := by
  simp [decodeWord, decodeFamily8]

/-- Any `y` spells the same `SHL Vx` (R65, R130). -/
theorem decodeWord_shl (x y : Reg) : decodeWord (formatXYN 0x8#4 x y 0xE#4) = .ok (.shl x) := by
  simp [decodeWord, decodeFamily8]

end Sys2Proof

namespace Sys2Proof.Machine

/-! ### Writes of a result, with and without a flag -/

theorem RegFrame.setV_advance (s : State) (x : Reg) (b : Byte) : RegFrame (· = x) s (s.setV x b).advance :=
  ⟨fun _ hr => State.getV_setV_ne s b hr, rfl, fun _ => rfl⟩

theorem State.getV_setResult_regF (s : State) (x : Reg) (b : Byte) (f : Bool) :
    (s.setResult x b f).getV regF = flagByte f := by
  rw [State.getV_setResult, if_pos rfl]

theorem State.getV_setResult_self (s : State) {x : Reg} (b : Byte) (f : Bool) (hx : x ≠ regF) :
    (s.setResult x b f).getV x = b := by
  rw [State.getV_setResult, if_neg hx, if_pos rfl]

theorem RegFrame.setResult_advance (s : State) (x : Reg) (b : Byte) (f : Bool) :
    RegFrame (fun r => r = x ∨ r = regF) s (s.setResult x b f).advance where
  regs r hr := by
    obtain ⟨hx, hf⟩ := not_or.1 hr
    exact (State.getV_setResult s x b f r).trans ((if_neg hf).trans (if_neg hx))
  rest := rfl
  bytes _ := rfl

/-- An instruction that writes `b` to `Vx` and no flag: what holds of `b` holds of `Vx` after it. -/
theorem exec_writes_reg {i : Instr} {s : State} {x : Reg} {b : Byte} {P : Byte → Prop}
    (hx : exec i s = .next (s.setV x b).advance) (hb : P b) :
    ∃ t, exec i s = .next t ∧ P (t.getV x) ∧ t.pc.toNat = (s.pc.toNat + 2) % 65536 ∧ RegFrame (· = x) s t :=
  ⟨_, hx, (State.getV_setV_self s x b).symm ▸ hb, (s.setV x b).advance_pc_toNat, RegFrame.setV_advance s x b⟩

/-- An instruction that writes `b` to `Vx` and then a flag of value `k` to `VF`: with `x = 15` the flag stays (R14). -/
theorem exec_writes_result {i : Instr} {s : State} {x : Reg} {b : Byte} {f : Bool} {k : Nat} {P : Byte → Prop}
    (hx : exec i s = .next (s.setResult x b f).advance) (hb : P b) (hf : (flagByte f).toNat = k) :
    ∃ t, exec i s = .next t ∧ (x ≠ regF → P (t.getV x)) ∧ (t.getV regF).toNat = k ∧
      t.pc.toNat = (s.pc.toNat + 2) % 65536 ∧ RegFrame (fun r => r = x ∨ r = regF) s t :=
  ⟨_, hx, fun hne => (State.getV_setResult_self s b f hne).symm ▸ hb,
    (congrArg BitVec.toNat (State.getV_setResult_regF s x b f)).trans hf, (s.setResult x b f).advance_pc_toNat,
    RegFrame.setResult_advance s x b f⟩

/-! ### Flags and results as numbers (R131) -/

theorem flagByte_toNat (f : Bool) : (flagByte f).toNat = f.toNat := by
  cases f
  · rfl
  · rfl

theorem flagByte_decide_toNat (p : Prop) [Decidable p] : (flagByte (decide p)).toNat = if p then 1 else 0 := by
  by_cases h : p
  · rw [decide_eq_true h, if_pos h]; rfl
  · rw [decide_eq_false h, if_neg h]; rfl

theorem flagByte_carryFlag_toNat (a b : Byte) :
    (flagByte (carryFlag a b)).toNat = if 255 < a.toNat + b.toNat then 1 else 0 :=
  flagByte_decide_toNat _

theorem flagByte_noBorrowFlag_toNat (a b : Byte) :
    (flagByte (noBorrowFlag a b)).toNat = if b.toNat ≤ a.toNat then 1 else 0 :=
  flagByte_decide_toNat _

theorem flagByte_lowBitFlag_toNat (a : Byte) : (flagByte (lowBitFlag a)).toNat = a.toNat % 2 := by
  have hbit : (lowBitFlag a).toNat = a.toNat / 2 ^ 0 % 2 := Nat.toNat_testBit _ _
  rw [flagByte_toNat, hbit]; omega

theorem flagByte_highBitFlag_toNat (a : Byte) : (flagByte (highBitFlag a)).toNat = a.toNat / 128 := by
  have hbit : (highBitFlag a).toNat = a.toNat / 2 ^ 7 % 2 := Nat.toNat_testBit _ _
  rw [flagByte_toNat, hbit]; omega

/-- The difference of two bytes is that of their numbers modulo 256, below 0 too (R127, R128). -/
theorem sub_toNat_int (a b : Byte) : ((a - b).toNat : Int) = (a.toNat - b.toNat : Int) % 256 := by
  rw [BitVec.toNat_sub]; omega

theorem shiftRight_one_toNat (a : Byte) : (a >>> 1).toNat = a.toNat / 2 := by
  rw [BitVec.toNat_ushiftRight, Nat.shiftRight_one]

theorem shiftLeft_one_toNat (a : Byte) : (a <<< 1).toNat = a.toNat * 2 % 256 := by
  rw [BitVec.toNat_shiftLeft, Nat.shiftLeft_eq]

/-! ### The instructions (R120 to R130) -/

/-- Settles O42: both write one register, by `exec_writes_reg`. -/
theorem loadsAssignRegister : Obligations.LoadsAssignRegister := fun x y kk _ =>
  ⟨spells_formatXKK (f := 0x6#4) (decodeWord_encode (i := .ldImm x kk) rfl),
    spells_formatXYN_selector (n := 0x0#4) rfl (decodeWord_encode (i := .ldReg x y) rfl),
    exec_writes_reg (P := (· = _)) rfl rfl, exec_writes_reg (P := (· = _)) rfl rfl⟩

/-- Settles O43: the sum of bit vectors is the sum modulo 256, and no flag is written. -/
theorem addImmediateWraps : Obligations.AddImmediateWraps := fun x kk _ =>
  ⟨spells_formatXKK (f := 0x7#4) (decodeWord_encode (i := .addImm x kk) rfl),
    exec_writes_reg (P := (·.toNat = _)) rfl (BitVec.toNat_add _ _)⟩

/-- Settles O44: bit by bit by the library's rule for each operator. -/
theorem logicIsBitwise : Obligations.LogicIsBitwise := fun x y s =>
  ⟨spells_formatXYN_selector (n := 0x1#4) rfl (decodeWord_encode (i := .orReg x y) rfl),
    spells_formatXYN_selector (n := 0x2#4) rfl (decodeWord_encode (i := .andReg x y) rfl),
    spells_formatXYN_selector (n := 0x3#4) rfl (decodeWord_encode (i := .xorReg x y) rfl),
    exec_writes_reg (P := fun v => ∀ b < 8, v.getLsbD b = ((s.getV x).getLsbD b || (s.getV y).getLsbD b)) rfl
      fun _ _ => BitVec.getLsbD_or,
    exec_writes_reg (P := fun v => ∀ b < 8, v.getLsbD b = ((s.getV x).getLsbD b && (s.getV y).getLsbD b)) rfl
      fun _ _ => BitVec.getLsbD_and,
    exec_writes_reg (P := fun v => ∀ b < 8, v.getLsbD b = ((s.getV x).getLsbD b != (s.getV y).getLsbD b)) rfl
      fun _ _ => BitVec.getLsbD_xor⟩

/-- Settles O45: by `exec_writes_result`, with the carry as its flag. -/
theorem addSetsCarry : Obligations.AddSetsCarry := fun x y _ =>
  ⟨spells_formatXYN_selector (n := 0x4#4) rfl (decodeWord_encode (i := .addReg x y) rfl),
    exec_writes_result (P := (·.toNat = _)) rfl (BitVec.toNat_add _ _) (flagByte_carryFlag_toNat _ _)⟩

/-- Settles O46: as O45, with the no-borrow flag; `SUBN` has its operands exchanged. -/
theorem subtractsSetNoBorrow : Obligations.SubtractsSetNoBorrow := fun x y _ =>
  ⟨spells_formatXYN_selector (n := 0x5#4) rfl (decodeWord_encode (i := .subReg x y) rfl),
    spells_formatXYN_selector (n := 0x7#4) rfl (decodeWord_encode (i := .subnReg x y) rfl),
    exec_writes_result (P := fun v => (v.toNat : Int) = _) rfl (sub_toNat_int _ _) (flagByte_noBorrowFlag_toNat _ _),
    exec_writes_result (P := fun v => (v.toNat : Int) = _) rfl (sub_toNat_int _ _) (flagByte_noBorrowFlag_toNat _ _)⟩

/-- Settles O47: as O45, with the bit shifted out as the flag and `y` free in the words. -/
theorem shiftsSetBitShiftedOut : Obligations.ShiftsSetBitShiftedOut := fun x y _ =>
  ⟨spells_formatXYN_selector rfl (decodeWord_shr x y), spells_formatXYN_selector rfl (decodeWord_shl x y),
    exec_writes_result (P := (·.toNat = _)) rfl (shiftRight_one_toNat _) (flagByte_lowBitFlag_toNat _),
    exec_writes_result (P := (·.toNat = _)) rfl (shiftLeft_one_toNat _) (flagByte_highBitFlag_toNat _)⟩

end Sys2Proof.Machine

/-! ## Random and draw -/

namespace Sys2Proof.Machine

/-! ### The pixels of a sprite (R141, R143) -/

/-- A sprite row as its set columns, in order, each placed with wrap-around (R143). -/
theorem rowPixels_eq_map (vx vy r : Nat) (b : Byte) :
    rowPixels vx vy r b = ((List.range 8).filter fun c => b.getLsbD (7 - c)).map
      fun c => (Fin.ofNat Config.displayW (vx + c), Fin.ofNat Config.displayH (vy + r)) := by
  rw [← List.filterMap_eq_map, List.filterMap_filter]
  rfl

/-- A row is 8 pixels wide and the display 64, so no column of a row wraps onto another. -/
theorem rowPixels_nodup (vx vy r : Nat) (b : Byte) : (rowPixels vx vy r b).Nodup := by
  rw [rowPixels_eq_map]
  refine List.Nodup.map_on (fun c hc d hd hcd => ?_) (List.nodup_range.filter _)
  have hc8 : c < 8 := List.mem_range.1 (List.mem_of_mem_filter hc)
  have hd8 : d < 8 := List.mem_range.1 (List.mem_of_mem_filter hd)
  have hmod : (vx + c) % 64 = (vx + d) % 64 := congrArg (fun p : Pixel => p.1.val) hcd
  omega

/-- Counting a row's bits from the left or from the right gives the same number. -/
theorem rowPixels_length (vx vy r : Nat) (b : Byte) :
    (rowPixels vx vy r b).length = ((List.range 8).filter fun c => b.getLsbD c).length := by
  have hrev : (List.range 8).map (7 - ·) = (List.range 8).reverse := by decide
  calc (rowPixels vx vy r b).length
      = (List.range 8).countP fun c => b.getLsbD (7 - c) := by
        rw [rowPixels_eq_map, List.length_map, List.countP_eq_length_filter]
    _ = ((List.range 8).map (7 - ·)).countP fun c => b.getLsbD c := List.countP_map.symm
    _ = ((List.range 8).filter fun c => b.getLsbD c).length := by
        rw [hrev, List.countP_reverse, List.countP_eq_length_filter]

theorem rowsPixels_length (vx vy r : Nat) (rows : List Byte) :
    (rowsPixels vx vy r rows).length = (rows.map fun b => ((List.range 8).filter fun c => b.getLsbD c).length).sum := by
  induction rows generalizing r with
  | nil => rfl
  | cons b rest ih => rw [rowsPixels, List.length_append, rowPixels_length, ih, List.map_cons, List.sum_cons]

/-- The display is 32 rows high, so no row of a sprite of at most 32 wraps onto another. -/
theorem rowsPixels_nodup (vx vy r : Nat) {rows : List Byte} (h : rows.length ≤ 32) : (rowsPixels vx vy r rows).Nodup := by
  induction rows generalizing r with
  | nil => exact List.nodup_nil
  | cons b rest ih =>
    rw [List.length_cons] at h
    refine List.nodup_append.2 ⟨rowPixels_nodup vx vy r b, ih (r + 1) (by omega), ?_⟩
    rintro p hp _ hq rfl
    obtain ⟨k, hk, hq⟩ := mem_rowsPixels.1 hq
    obtain ⟨-, -, -, -, hrow⟩ := mem_rowPixels.1 hp
    obtain ⟨-, -, -, -, hrow'⟩ := mem_rowPixels.1 hq
    omega

/-- Settles O50: row by row, by `rowsPixels_nodup` and `rowsPixels_length`. -/
theorem spriteCallsAreDistinct : Obligations.SpriteCallsAreDistinct := fun vx vy rows h =>
  ⟨rowsPixels_nodup vx.toNat vy.toNat 0 (by omega), rowsPixels_length vx.toNat vy.toNat 0 rows⟩

/-- The `DispToggle` calls of a `DRW` address the pixels its sprite touches (R141, R143). -/
theorem State.mem_drwPixels {s : State} {x y : Reg} {n : Nibble} {p : Pixel} :
    p ∈ s.drwPixels x y n ↔ SpriteTouches s x y n p := by
  rw [State.drwPixels, mem_spritePixels, SpriteTouches]
  simp

theorem State.drwPixels_nodup (s : State) (x y : Reg) (n : Nibble) : (s.drwPixels x y n).Nodup :=
  rowsPixels_nodup _ _ 0 (by rw [Mem.readBytes_length]; omega)

/-! ### What `DRW` does where its sprite is in memory (R142, R143) -/

/-- `DRW` inverts each pixel it toggles and keeps the others. -/
theorem execEffect_drw_pixel (s : State) (x y : Reg) (n : Nibble) (p : Pixel) :
    (execEffect (.drw x y n) s).pixel p = (s.pixel p ^^ decide (p ∈ s.drwPixels x y n)) :=
  State.pixel_togglePixels s.clearCf _ (s.drwPixels_nodup x y n) p

theorem execEffect_drw_pixel_touched {s : State} {x y : Reg} {n : Nibble} {p : Pixel} (h : SpriteTouches s x y n p) :
    (execEffect (.drw x y n) s).pixel p = !s.pixel p := by
  rw [execEffect_drw_pixel, decide_eq_true (State.mem_drwPixels.2 h), Bool.xor_true]

theorem execEffect_drw_pixel_untouched {s : State} {x y : Reg} {n : Nibble} {p : Pixel}
    (h : ¬ SpriteTouches s x y n p) : (execEffect (.drw x y n) s).pixel p = s.pixel p := by
  rw [execEffect_drw_pixel, decide_eq_false (mt State.mem_drwPixels.1 h), Bool.xor_false]

theorem execEffect_drw_cf (s : State) (x y : Reg) (n : Nibble) :
    (execEffect (.drw x y n) s).cf = (s.drwPixels x y n).any s.pixel :=
  State.cf_togglePixels s.clearCf _ (s.drwPixels_nodup x y n)

/-- `VF <- CF` comes last (R143). -/
theorem execEffect_drw_regF (s : State) (x y : Reg) (n : Nibble) :
    (execEffect (.drw x y n) s).getV regF = flagByte (execEffect (.drw x y n) s).cf :=
  State.getV_setV_self _ _ _

theorem execEffect_drw_collision {s : State} {x y : Reg} {n : Nibble}
    (h : ∃ p, SpriteTouches s x y n p ∧ s.pixel p = true) :
    (execEffect (.drw x y n) s).getV regF = 1#8 ∧ (execEffect (.drw x y n) s).cf = true := by
  obtain ⟨p, hp, hset⟩ := h
  have hcf : (execEffect (.drw x y n) s).cf = true :=
    (execEffect_drw_cf s x y n).trans (List.any_eq_true.2 ⟨p, State.mem_drwPixels.2 hp, hset⟩)
  exact ⟨by rw [execEffect_drw_regF, hcf]; rfl, hcf⟩

theorem execEffect_drw_no_collision {s : State} {x y : Reg} {n : Nibble}
    (h : ∀ p, SpriteTouches s x y n p → s.pixel p = false) :
    (execEffect (.drw x y n) s).getV regF = 0#8 ∧ (execEffect (.drw x y n) s).cf = false := by
  have hcf : (execEffect (.drw x y n) s).cf = false :=
    (execEffect_drw_cf s x y n).trans
      (List.any_eq_false.2 fun p hp => Bool.eq_false_iff.1 (h p (State.mem_drwPixels.1 hp)))
  exact ⟨by rw [execEffect_drw_regF, hcf]; rfl, hcf⟩

theorem execEffect_drw_frame (s : State) (x y : Reg) (n : Nibble) :
    execEffect (.drw x y n) s =
      { s with
        v := (execEffect (.drw x y n) s).v
        pc := (execEffect (.drw x y n) s).pc
        cf := (execEffect (.drw x y n) s).cf
        fb := (execEffect (.drw x y n) s).fb } := by
  rw [execEffect_drw, State.drawSprite_frame]
  rfl

/-! ### The instructions (R140, R143) -/

/-- Settles O48: the masked byte is written to one register, and one draw is counted. -/
theorem randomIsMasked : Obligations.RandomIsMasked := fun x kk s =>
  ⟨spells_formatXKK (f := 0xC#4) (decodeWord_encode (i := .rnd x kk) rfl),
    (s.countRand.setV x (s.randByte &&& kk)).advance, rfl,
    fun _ _ => (congrArg (BitVec.getLsbD · _) (State.getV_setV_self s.countRand x _)).trans BitVec.getLsbD_and,
    State.advance_pc_toNat _, fun _ hr => State.getV_setV_ne s.countRand _ hr, rfl, fun _ => rfl⟩

/-- Settles O49: the two outcomes of `DRW`, by its bounds check. -/
theorem drawTogglesSprite : Obligations.DrawTogglesSprite := by
  refine fun x y n s => ⟨spells_formatXYN (f := 0xD#4) (decodeWord_encode (i := .drw x y n) rfl),
    fun hin => ⟨_, exec_of_guard (i := .drw x y n) ((s.dataInBounds_iff _).2 hin),
      fun _ => execEffect_drw_pixel_touched, fun _ => execEffect_drw_pixel_untouched,
      execEffect_drw_collision, execEffect_drw_no_collision, ?_, fun r hr => execEffect_getV s rfl fun h => hr h.1,
      execEffect_drw_frame s x y n, fun a => by rw [execEffect_drw_frame]⟩,
    fun h0 hout => exec_drw_beyond x y n fun hin => ?_⟩
  · simp
  · have := (s.dataInBounds_iff _).1 hin
    omega

/-- A second draw at the same coordinates toggles the same pixels: `DRW` leaves memory and `I`. -/
theorem drwPixels_execEffect_drw {s : State} {x y : Reg} {n : Nibble}
    (hx : (execEffect (.drw x y n) s).getV x = s.getV x) (hy : (execEffect (.drw x y n) s).getV y = s.getV y) :
    (execEffect (.drw x y n) s).drwPixels x y n = s.drwPixels x y n := by
  rw [State.drwPixels, hx, hy, execEffect_drw_frame]
  rfl

/-- Settles O51: each pixel of the sprite is inverted twice, and the second draw finds the complement of what the first did. -/
theorem drawTwiceRestoresDisplay : Obligations.DrawTwiceRestoresDisplay := by
  intro x y n s t u hin ht hx hy hu
  have hi : t.i = s.i := onlyThreeInstructionsWriteIndex (.drw x y n) s t ht
  rw [exec_of_guard (i := .drw x y n) ((s.dataInBounds_iff _).2 hin)] at ht
  cases ht
  rw [exec_of_guard (i := .drw x y n) ((State.dataInBounds_iff _ _).2 (hi ▸ hin))] at hu
  cases hu
  have hps := drwPixels_execEffect_drw hx hy
  have htouch (p : Pixel) : SpriteTouches (execEffect (.drw x y n) s) x y n p ↔ SpriteTouches s x y n p := by
    rw [← State.mem_drwPixels, hps, State.mem_drwPixels]
  refine ⟨State.fb_eq_of_pixel fun p => ?_, ?_, fun hall => ?_, fun hall => (execEffect_drw_no_collision hall).1⟩
  · rw [execEffect_drw_pixel, hps, execEffect_drw_pixel, Bool.xor_assoc, Bool.xor_self, Bool.xor_false]
  · rintro ⟨p, hp, hclear⟩
    exact (execEffect_drw_collision ⟨p, (htouch p).2 hp, by rw [execEffect_drw_pixel_touched hp, hclear]; rfl⟩).1
  · refine (execEffect_drw_no_collision fun p hp => ?_).1
    have hp := (htouch p).1 hp
    rw [execEffect_drw_pixel_touched hp, hall p hp]; rfl

end Sys2Proof.Machine

/-! ## Keys and timers -/

namespace Sys2Proof

open Machine

/-! ### Which numbers spell an instruction of families 0xE and 0xF (R62, R64) -/

/-- A word in format `XKK` whose last byte is a selector, as the sum of its constant `w` and its operand. -/
theorem spells_formatXKK_selector {f : Nibble} {x : Reg} {kk : Byte} {i : Instr} {w : Nat}
    (hw : w = f.toNat * 0x1000 + kk.toNat) (hd : decodeWord (formatXKK f x kk) = .ok i) :
    Spells (w + 0x100 * x.val) i :=
  spells_of_toNat (by rw [formatXKK_toNat]; omega) hd

end Sys2Proof

namespace Sys2Proof.Machine

/-! ### What a tick comes to, by the `RUN` of the state it answers (R210) -/

theorem tickOutcome_eq_commit_iff {s t : State} (hr : s.run ≠ .halted) (ht : tick s = .next t) :
    tickOutcome s = .commit ↔ t.run = .running := by
  rw [tickOutcome, if_neg hr, ht]
  cases h : t.run <;> simp [h]

theorem tickOutcome_eq_stall_iff {s t : State} (hr : s.run ≠ .halted) (ht : tick s = .next t) :
    tickOutcome s = .stall ↔ t.run = .awaitKey := by
  rw [tickOutcome, if_neg hr, ht]
  cases h : t.run <;> simp [h]

/-- A tick that ends in `AWAIT_KEY` has fetched a `LD Vx, K` (R155, R210). -/
theorem fetches_ldVxK_of_tick_awaitKey {s t : State} (hr : s.run ≠ .halted) (ht : tick s = .next t)
    (hw : t.run = .awaitKey) : ∃ op x, Fetches s op ∧ decodeWord op = .ok (.ldVxK x) := by
  obtain ⟨hh, -⟩ | ⟨-, -, e⟩ | ⟨-, -, -, e⟩ | ⟨-, hb, i, hd, hx⟩ := tick_cases ht
  · exact absurd hh hr
  · cases e; cases hw
  · cases e; cases hw
  · obtain ⟨⟨x, rfl⟩, -⟩ := exec_awaitKey hx.symm rfl hw
    exact ⟨_, x, (fetches_iff s _).2 ⟨hb, rfl⟩, hd⟩

/-! ### The instructions (R150 to R155) -/

/-- Settles O21: the tick is `exec` of the `LD Vx, K`, which stalls or loads. -/
theorem stallChangesOnlyRunAndIr : Obligations.StallChangesOnlyRunAndIr := by
  refine ⟨fun s op x hr hf hd => ?_, fun s t hr hno ht hw => ?_⟩
  · have htick := tick_eq_exec hr hf hd
    cases hk : Config.keyEvent s.keyEvents with
    | none =>
      have ht := htick.trans (exec_ldVxK_stalls x hk)
      exact ⟨_, ht, rfl, rfl, (tickOutcome_eq_stall_iff hr ht).2 rfl⟩
    | some k =>
      have ht := htick.trans (exec_ldVxK_loads x hk)
      exact ⟨_, ht, rfl, rfl, (tickOutcome_eq_commit_iff hr ht).2 rfl⟩
  · obtain ⟨op, x, hf, hd⟩ := fetches_ldVxK_of_tick_awaitKey hr ht hw
    exact hno op x hf hd

/-- A key skip is a skip after its one `KeyDown` call is counted (R150, R151). -/
theorem exec_keySkips {i : Instr} {s : State} {c : Bool} {p : Prop} [Decidable p]
    (hx : exec i s = .next (s.countKeyQuery.skipIf c)) (hc : c = true ↔ p) :
    ∃ t, exec i s = .next t ∧ t.pc.toNat = (s.pc.toNat + if p then 4 else 2) % 65536 ∧
      t = { s with pc := t.pc, keyQueries := s.keyQueries + 1 } ∧ ∀ a, t.mem.read a = s.mem.read a := by
  refine ⟨_, hx, ?_, rfl, fun _ => rfl⟩
  rw [State.skipIf_pc_toNat, if_congr hc rfl rfl]
  split <;> rfl

/-- The same for a key skip on the negated answer (R151). -/
theorem exec_keySkips_not {i : Instr} {s : State} {c : Bool} {p : Prop} [Decidable p]
    (hx : exec i s = .next (s.countKeyQuery.skipIf c)) (hc : c = true ↔ ¬ p) :
    ∃ t, exec i s = .next t ∧ t.pc.toNat = (s.pc.toNat + if p then 2 else 4) % 65536 ∧
      t = { s with pc := t.pc, keyQueries := s.keyQueries + 1 } ∧ ∀ a, t.mem.read a = s.mem.read a := by
  simpa only [ite_not] using exec_keySkips hx hc

/-- Settles O52: by `exec_keySkips` and its converse form. -/
theorem keySkipsFollowKeyState : Obligations.KeySkipsFollowKeyState := by
  intro x k s hk
  obtain rfl : lowNibble (s.getV x) = k := Fin.ext hk
  exact ⟨spells_formatXKK_selector (f := 0xE#4) (kk := 0x9E#8) rfl (decodeWord_encode (i := .skp x) rfl),
    spells_formatXKK_selector (f := 0xE#4) (kk := 0xA1#8) rfl (decodeWord_encode (i := .sknp x) rfl),
    exec_keySkips rfl Iff.rfl, exec_keySkips_not rfl Bool.not_iff_not⟩

/-- Settles O53: one register write by `exec_writes_reg`, and two timer writes. -/
theorem timerLoadsCopy : Obligations.TimerLoadsCopy := fun x s =>
  ⟨spells_formatXKK_selector (f := 0xF#4) (kk := 0x07#8) rfl (decodeWord_encode (i := .ldVxDT x) rfl),
    spells_formatXKK_selector (f := 0xF#4) (kk := 0x15#8) rfl (decodeWord_encode (i := .ldDTVx x) rfl),
    spells_formatXKK_selector (f := 0xF#4) (kk := 0x18#8) rfl (decodeWord_encode (i := .ldSTVx x) rfl),
    exec_writes_reg (P := (· = s.dt)) rfl rfl,
    ⟨_, rfl, rfl, State.advance_pc_toNat (s.setDt (s.getV x)), rfl, fun _ => rfl⟩,
    ⟨_, rfl, rfl, State.advance_pc_toNat (s.setSt (s.getV x)), rfl, fun _ => rfl⟩⟩

/-- Settles O54: by whether `KeyEvent()` has an event; its code fits a byte. -/
theorem keyWaitStallsOrLoads : Obligations.KeyWaitStallsOrLoads := by
  refine fun x s =>
    ⟨spells_formatXKK_selector (f := 0xF#4) (kk := 0x0A#8) rfl (decodeWord_encode (i := .ldVxK x) rfl), ?_⟩
  cases hk : Config.keyEvent s.keyEvents with
  | none => exact ⟨_, exec_ldVxK_stalls x hk, rfl⟩
  | some k =>
    have hcode : (BitVec.ofNat 8 k.val).toNat = k.val := Nat.mod_eq_of_lt (by omega)
    refine ⟨_, exec_ldVxK_loads x hk, ?_, rfl, State.advance_pc_toNat _,
      fun r hr => State.getV_setV_ne s.countKeyEvent _ hr, rfl, fun _ => rfl⟩
    exact (congrArg BitVec.toNat (State.getV_setV_self s.countKeyEvent x _)).trans hcode

end Sys2Proof.Machine

/-! ## Index and memory -/

namespace Sys2Proof.Machine

/-! ### The shapes of the memory instructions' answers (R45, R163 to R165) -/

/-- An access of `m + 1` bytes at `I` is in memory where its last byte is (R45). -/
theorem State.dataInBounds_succ_iff (s : State) (m : Nat) : s.dataInBounds (m + 1) = true ↔ s.i.toNat + m ≤ 4095 :=
  (s.dataInBounds_iff (m + 1)).trans (or_iff_right m.succ_ne_zero)

/-- An instruction that stores `bs` at `I` inside memory: what each byte reads as afterwards, and the frame (R43, R167). -/
theorem exec_stores {i : Instr} {s : State} {bs : List Byte}
    (hx : exec i s = .next (s.storeBytes s.i.toNat bs).advance) (hin : s.i.toNat + bs.length ≤ 4096) :
    ∃ t, exec i s = .next t ∧ (∀ j (h : j < bs.length), t.mem.read (s.i.toNat + j) = bs[j]) ∧
      (∀ a, a < s.i.toNat ∨ s.i.toNat + bs.length ≤ a → t.mem.read a = s.mem.read a) ∧
      t.pc.toNat = (s.pc.toNat + 2) % 65536 ∧ t = { s with pc := t.pc, mem := t.mem } :=
  ⟨_, hx, fun j hj => Mem.read_writeBytes_inside s.mem _ j bs hj hin,
    fun a ha => Mem.read_writeBytes_outside s.mem _ a bs ha, State.advance_pc_toNat (s.storeBytes _ bs), rfl⟩

/-- A number that is no larger than a byte fits one, as each decimal digit of the byte does (R163). -/
theorem ofNat_toNat_of_le {n : Nat} {b : Byte} (h : n ≤ b.toNat) : (BitVec.ofNat 8 n).toNat = n :=
  Nat.mod_eq_of_lt (h.trans_lt b.isLt)

/-- A register load from memory writes `Vr` with the byte at `I + r`, for each register up to `Vx` (R165). -/
theorem State.getV_loadRegs_readBytes (s : State) {x r : Reg} (hr : r ≤ x) :
    (s.loadRegs (s.mem.readBytes s.i.toNat (x.val + 1))).getV r = s.mem.read (s.i.toNat + r.val) := by
  have hlen : r.val < (s.mem.readBytes s.i.toNat (x.val + 1)).length := by
    rw [Mem.readBytes_length]; exact Nat.lt_succ_of_le hr
  rw [State.getV_loadRegs, dif_pos hlen, Mem.readBytes_getElem]

/-! ### The font in memory (R161) -/

/-- Memories that agree on the bytes of a window read as the same list there (R42). -/
theorem Mem.readBytes_congr {m m' : Mem} {a n : Nat} (h : ∀ j < n, m.read (a + j) = m'.read (a + j)) :
    m.readBytes a n = m'.readBytes a n := by
  refine List.ext_getElem (by simp) fun j hj _ => ?_
  rw [Mem.readBytes_length] at hj
  simpa using h j hj

/-- Below `PROGRAM_BASE` a `Load` leaves the reset contents, whatever its image (R28, R250). -/
theorem State.loadImage_read_below (s : State) (image : List Byte) {a : Nat} (ha : a < Config.programBase) :
    (s.loadImage image).mem.read a = Mem.read [] a :=
  Mem.read_writeBytes_outside [] _ a image (.inl ha)

/-- Every glyph ends before the program starts (R3, R161). -/
theorem glyph_end_le_programBase (d : Fin 16) : Config.fontBase + 5 * d.val + 5 ≤ 0x200 := by
  have : Config.fontBase + 80 ≤ 0x200 := by decide
  omega

/-- The one machine that a first `Load` can create (R250, R251). -/
theorem eq_loadImage_of_load {image : List Byte} {t : State} (h : load image = some t) :
    t = State.reset.loadImage image :=
  (Option.some_inj.1 (Option.ite_none_right_eq_some.1 h).2).symm

/-- A `Load` leaves each glyph as the reset contents have it (R161). -/
theorem State.loadImage_readBytes_glyph (s : State) (image : List Byte) (d : Fin 16) :
    (s.loadImage image).mem.readBytes (Config.fontBase + 5 * d.val) 5 =
      Mem.readBytes [] (Config.fontBase + 5 * d.val) 5 := by
  refine Mem.readBytes_congr fun j hj => s.loadImage_read_below image ?_
  exact (Nat.add_lt_add_left hj _).trans_le (glyph_end_le_programBase d)

/-! ### Writes of `I` (R160, R162, R166) -/

/-- The sum of `ADD I, Vx` on 16 bits (R160). -/
theorem add_zeroExtend_toNat (w : Word) (b : Byte) : (w + b.zeroExtend 16).toNat = (w.toNat + b.toNat) % 65536 := by
  have hb : (b.zeroExtend 16).toNat = b.toNat := BitVec.toNat_setWidth_of_le (by decide)
  rw [BitVec.toNat_add, hb]

/-- The address of a glyph fits in 16 bits, the font being in memory (R161, R162). -/
theorem glyphAddress_toNat (d : Fin 16) : (glyphAddress d).toNat = Config.fontBase + 5 * d.val := by
  have hfits : Config.fontBase + 5 * d.val < 65536 := by have := glyph_end_le_programBase d; omega
  exact Nat.mod_eq_of_lt hfits

/-- An instruction that writes `w` to `I`, and nothing else but `PC`. -/
theorem exec_writes_index {i : Instr} {s : State} {w : Word} {k : Nat} (hx : exec i s = .next (s.setI w).advance)
    (hw : w.toNat = k) :
    ∃ t, exec i s = .next t ∧ t.i.toNat = k ∧ t.pc.toNat = (s.pc.toNat + 2) % 65536 ∧
      t = { s with pc := t.pc, i := t.i } ∧ ∀ a, t.mem.read a = s.mem.read a :=
  ⟨_, hx, hw, State.advance_pc_toNat (s.setI w), rfl, fun _ => rfl⟩

/-! ### The instructions (R160 to R166) and the font -/

/-- Settles O56: the store is `exec_stores` of the three digits, and the guard is `State.dataInBounds_succ_iff`. -/
theorem bcdStoresDigits : Obligations.BcdStoresDigits := by
  refine fun x s =>
    ⟨spells_formatXKK_selector (f := 0xF#4) (kk := 0x33#8) rfl (decodeWord_encode (i := .ldB x) rfl),
      fun hin => ?_, fun hout => exec_ldB_beyond x (mt (s.dataInBounds_succ_iff 2).1 (Nat.not_le.2 hout))⟩
  obtain ⟨t, hx, hread, houtside, hpc, hframe⟩ :=
    exec_stores (exec_ldB_stores x ((s.dataInBounds_succ_iff 2).2 hin)) (Nat.succ_le_succ hin)
  exact ⟨t, hx,
    (congrArg BitVec.toNat (hread 0 (by decide : 0 < 3))).trans (ofNat_toNat_of_le (Nat.div_le_self ..)),
    (congrArg BitVec.toNat (hread 1 (by decide : 1 < 3))).trans
      (ofNat_toNat_of_le ((Nat.mod_le ..).trans (Nat.div_le_self ..))),
    (congrArg BitVec.toNat (hread 2 (by decide : 2 < 3))).trans (ofNat_toNat_of_le (Nat.mod_le ..)),
    houtside, hpc, hframe⟩

/-- Settles O57: the store is `exec_stores` of the first `x + 1` registers, which are as many as there are addresses. -/
theorem storeCopiesRegisters : Obligations.StoreCopiesRegisters := by
  refine fun x s =>
    ⟨spells_formatXKK_selector (f := 0xF#4) (kk := 0x55#8) rfl (decodeWord_encode (i := .stRegs x) rfl),
      fun hin => ?_, fun hout => exec_stRegs_beyond x (mt (s.dataInBounds_succ_iff x.val).1 (Nat.not_le.2 hout))⟩
  have hlen : (s.firstRegs (x.val + 1)).length = x.val + 1 :=
    (s.firstRegs_length _).trans (Nat.min_eq_left x.isLt)
  obtain ⟨t, hx, -, houtside, hpc, hframe⟩ :=
    exec_stores (exec_stRegs_stores x ((s.dataInBounds_succ_iff x.val).2 hin)) (by omega)
  exact ⟨t, hx, fun _ hk => exec_stRegs_read hx hin hk, fun a ha => houtside a (by omega), hpc, hframe⟩

/-- Settles O58: registers up to `Vx` by `State.getV_loadRegs_readBytes`; the others are no destination. -/
theorem loadCopiesMemory : Obligations.LoadCopiesMemory := by
  refine fun x s =>
    ⟨spells_formatXKK_selector (f := 0xF#4) (kk := 0x65#8) rfl (decodeWord_encode (i := .ldRegs x) rfl),
      fun hin => ?_, fun hout => exec_ldRegs_beyond x (mt (s.dataInBounds_succ_iff x.val).1 (Nat.not_le.2 hout))⟩
  refine ⟨_, exec_ldRegs_loads x ((s.dataInBounds_succ_iff x.val).2 hin),
    fun _ hk => s.getV_loadRegs_readBytes hk, State.advance_pc_toNat (s.loadRegs _), fun r hr => ?_, rfl, fun _ => rfl⟩
  exact execEffect_getV (i := .ldRegs x) s (decide_eq_false hr) fun h => Bool.false_ne_true h.2

/-- Settles O10: the glyphs stand below the image, so they read as the reset contents, which are the table's. -/
theorem fontIsLoaded : Obligations.FontIsLoaded := by
  intro image t ht d
  rw [eq_loadImage_of_load ht, State.loadImage_readBytes_glyph]
  revert d
  decide

/-- Settles O55: each writes `I` alone, by `exec_writes_index`. -/
theorem indexWritersSetIndex : Obligations.IndexWritersSetIndex := fun x nnn s =>
  ⟨spells_formatXKK_selector (f := 0xF#4) (kk := 0x1E#8) rfl (decodeWord_encode (i := .addI x) rfl),
    spells_formatXKK_selector (f := 0xF#4) (kk := 0x29#8) rfl (decodeWord_encode (i := .ldF x) rfl),
    spells_formatNNN (f := 0xA#4) (decodeWord_encode (i := .ldI nnn) rfl),
    exec_writes_index rfl (add_zeroExtend_toNat s.i (s.getV x)),
    exec_writes_index rfl (glyphAddress_toNat (lowNibble (s.getV x))),
    exec_writes_index rfl (zeroExtend_addr_toNat nnn)⟩

end Sys2Proof.Machine

/-! ## Ticks, errors and the agents' actions -/

namespace Sys2Proof.Machine

/-! ### Every rule answers (R203, R206; assumption 10) -/

/-- An instruction has its effect, or raises its error, which is a next state as well (R203). -/
theorem exec_total (i : Instr) (s : State) : ∃ t, exec i s = .next t := by
  by_cases hg : execGuard i s
  · exact ⟨_, exec_of_guard hg⟩
  · obtain ⟨e, -, hx⟩ := exec_of_not_guard hg
    exact ⟨_, hx⟩

theorem tick_total (s : State) : ∃ t, tick s = .next t := by
  obtain ⟨-, h⟩ | ⟨-, -, h⟩ | ⟨-, -, -, h⟩ | ⟨-, -, i, -, h⟩ := tick_cases (s := s) rfl
  · exact ⟨_, h⟩
  · exact ⟨_, h⟩
  · exact ⟨_, h⟩
  · rw [h]
    exact exec_total i _

theorem act_tick_of_present {s : State} (hp : s.present = true) : act .tick s = tick s := if_pos hp

theorem act_timerTick_of_present {s : State} (hp : s.present = true) : act .timerTick s = .next s.timerTick := if_pos hp

theorem act_tick_of_absent {s : State} (hp : s.present = false) : act .tick s = .next s := if_neg (Bool.eq_false_iff.1 hp)

theorem act_timerTick_of_absent {s : State} (hp : s.present = false) : act .timerTick s = .next s :=
  if_neg (Bool.eq_false_iff.1 hp)

theorem act_total (a : Action) (s : State) : ∃ t, act a s = .next t := by
  cases a with
  | tick =>
    cases hp : s.present with
    | true => rw [act_tick_of_present hp]; exact tick_total s
    | false => exact ⟨s, act_tick_of_absent hp⟩
  | timerTick =>
    cases hp : s.present with
    | true => exact ⟨_, act_timerTick_of_present hp⟩
    | false => exact ⟨s, act_timerTick_of_absent hp⟩
  | load image => exact ⟨_, rfl⟩
  | discard => exact ⟨_, rfl⟩

/-- Settles O19: by `act_total`, `tick_total` and `exec_total`, one for each form of a step. -/
theorem everyStepAnswers : Obligations.EveryStepAnswers := by
  refine ⟨fun s => ?_, exec_total⟩
  cases hl : s.agenda with
  | cons a rest => rw [step_agenda hl]; exact act_total a _
  | nil =>
    cases hp : s.present with
    | true => rw [step_default hl hp]; exact tick_total _
    | false => exact ⟨s, step_absent hl hp⟩

/-! ### The ticks that raise an error (R200 to R209) -/

/-- An instruction whose guard holds does not halt the machine (R203). -/
theorem execEffect_run_ne_halted (i : Instr) {s : State} (hr : s.run ≠ .halted) : (execEffect i s).run ≠ .halted := by
  cases i
  case drw => simpa using hr
  case ldVxK x => rw [execEffect_ldVxK]; cases s.keyEvent <;> simp [State.takeKey]
  all_goals exact hr

/-- A machine that is not halted is halted by the one error of the instruction, and by nothing else (R203, R209). -/
theorem exec_halted_with_iff {i : Instr} {s t : State} {e : ErrorCode} (hx : exec i s = .next t) (hr : s.run ≠ .halted) :
    (t.run = .halted ∧ t.err = e) ↔ ¬ execGuard i s ∧ handlerError i = some e := by
  obtain ⟨hg, e', he', rfl⟩ | ⟨hg, rfl⟩ := exec_cases hx
  · rw [he', Option.some_inj]
    exact and_congr_left' (iff_of_true rfl hg)
  · exact iff_of_false (fun h => execEffect_run_ne_halted i hr h.1) fun h => h.1 hg

/-- A tick that ends halted has failed to fetch, has fetched an invalid word, or has raised the one error of the decoded
instruction, in this order; each time `raise` makes its state (R203, R209). -/
theorem tick_halted_cases {s t : State} (hr : s.run ≠ .halted) (ht : tick s = .next t) (hh : t.run = .halted) :
    (0xFFE < s.pc.toNat ∧ t = s.raise .fetchOutOfBounds) ∨
    (∃ op, Fetches s op ∧ (∃ r, decodeWord op = .error r) ∧ t = (s.startTick op).raise .invalidOpcode) ∨
    (∃ op i e, Fetches s op ∧ decodeWord op = .ok i ∧ handlerError i = some e ∧ t = (s.startTick op).raise e) := by
  obtain ⟨hh', -⟩ | ⟨-, hb, e⟩ | ⟨-, hb, hd, e⟩ | ⟨-, hb, i, hd, hx⟩ := tick_cases ht
  · exact absurd hh' hr
  · cases e
    exact .inl ⟨Nat.not_le.1 (mt (State.fetchInBounds_iff s).2 (Bool.eq_false_iff.1 hb)), rfl⟩
  · cases e
    exact .inr (.inl ⟨_, (fetches_iff s _).2 ⟨hb, rfl⟩, hd, rfl⟩)
  · obtain ⟨-, e, he, rfl⟩ | ⟨-, rfl⟩ := exec_cases hx.symm
    · exact .inr (.inr ⟨_, i, e, (fetches_iff s _).2 ⟨hb, rfl⟩, hd, he, rfl⟩)
    · exact absurd hh (execEffect_run_ne_halted i (by simp))

/-- A decoded instruction raises no `FetchOutOfBounds` (R204). -/
theorem handlerError_ne_fetchOutOfBounds {i : Instr} {e : ErrorCode} (h : handlerError i = some e) :
    e ≠ .fetchOutOfBounds := by
  rintro rfl
  cases i <;> cases h

/-- Settles O4: the word decodes to nothing, so the tick is `tick_invalid`. -/
theorem invalidOpcodeIsFatal : Obligations.InvalidOpcodeIsFatal := fun _ _ hr hf hinv =>
  ⟨tick_invalid hr hf (decodeWord_error_iff.2 ⟨hinv, rfl⟩), rfl⟩

/-- Settles O16: of the three errors a tick can raise, the fetch's own is raised beyond memory only. -/
theorem fetchErrorExactly : Obligations.FetchErrorExactly := by
  refine ⟨rfl, fun s t hr ht => ⟨fun ⟨hh, he⟩ => ?_, fun hb => ?_⟩⟩
  · obtain ⟨hb, -⟩ | ⟨op, -, -, rfl⟩ | ⟨op, i, e, -, -, herr, rfl⟩ := tick_halted_cases hr ht hh
    · exact hb
    · cases he
    · exact absurd he (handlerError_ne_fetchOutOfBounds herr)
  · rw [tick_beyond hr hb] at ht
    cases ht
    exact ⟨rfl, rfl⟩

/-- Settles O20: in each of `tick_halted_cases` the state is made by `raise`, which writes `RUN` and `ERR` alone. -/
theorem fatalErrorsArePrecise : Obligations.FatalErrorsArePrecise := by
  intro s t hr ht hh
  obtain ⟨hb, rfl⟩ | ⟨op, hf, -, rfl⟩ | ⟨op, i, e, hf, -, herr, rfl⟩ := tick_halted_cases hr ht hh
  · exact ⟨by simp, rfl, fun hle => absurd hle (Nat.not_le.2 hb), fun _ => rfl⟩
  · exact ⟨by simp, rfl, fun _ => hf, fun hb => absurd hf.1 (Nat.not_le.2 hb)⟩
  · exact ⟨handlerError_ne_noError herr, rfl, fun _ => hf, fun hb => absurd hf.1 (Nat.not_le.2 hb)⟩

/-- Settles O23: the order of the cases of `tick_halted_cases`. -/
theorem errorPriority : Obligations.ErrorPriority := by
  intro s t hr ht hh
  obtain ⟨hb, rfl⟩ | ⟨op, hf, ⟨r, hd⟩, rfl⟩ | ⟨op, i, e, hf, hd, herr, rfl⟩ := tick_halted_cases hr ht hh
  · rw [if_pos hb]; rfl
  · rw [if_neg (Nat.not_lt.2 hf.1)]
    refine ⟨op, hf, ?_⟩
    rw [hd]; rfl
  · rw [if_neg (Nat.not_lt.2 hf.1)]
    refine ⟨op, hf, ?_⟩
    rw [hd]; exact herr

/-- Settles O59: the error is raised where the guard fails, and the guards of these four are bounds checks at `I`. -/
theorem dataErrorExactly : Obligations.DataErrorExactly := by
  refine ⟨rfl, fun s t op i hr hf hd ht => ?_⟩
  rw [tick_eq_exec hr hf hd] at ht
  rw [exec_halted_with_iff ht (by simp)]
  cases i
  case drw x y n =>
    refine (and_iff_left rfl).trans ((not_congr (State.dataInBounds_iff _ _)).trans ?_)
    rw [State.startTick_i]
    omega
  case ldB x => exact (and_iff_left rfl).trans ((not_congr (State.dataInBounds_succ_iff _ 2)).trans Nat.not_le)
  case stRegs x | ldRegs x =>
    exact (and_iff_left rfl).trans ((not_congr (State.dataInBounds_succ_iff _ x.val)).trans Nat.not_le)
  all_goals exact iff_of_false (fun h => nomatch h.2) id

/-! ### Waiting, committing and halted (R211 to R213) -/

/-- Settles O22: a tick reads `RUN` only to see whether it is `HALTED`, and then sets it. -/
theorem awaitKeyTicksLikeRunning : Obligations.AwaitKeyTicksLikeRunning := by
  intro s hw
  have hr : s.run ≠ .halted := by simp [hw]
  refine ⟨?_, fun hinv => ?_⟩
  · have hr' : ({ s with run := .running } : State).run ≠ .halted := by simp
    rw [tick, if_neg hr]
    exact (if_neg hr').symm
  · obtain ⟨hf, x, hd⟩ := hinv.keyWait hw
    exact ⟨x, hf, tick_eq_exec hr hf hd⟩

theorem snapshot_eq_some_iff {s p : State} : snapshot s = some p ↔ p = s ∧ tickOutcome s = .commit := by
  rw [snapshot, Option.ite_none_right_eq_some, Option.some_inj, and_comm, eq_comm]

/-- A halted machine ignores its ticks (R212). -/
theorem tick_of_halted {s : State} (hh : s.run = .halted) : tick s = .next s := if_pos hh

theorem tickOutcome_of_halted {s : State} (hh : s.run = .halted) : tickOutcome s = .ignored := if_pos hh

theorem tickOutcome_eq_commit_iff_exists {s : State} :
    tickOutcome s = .commit ↔ s.run ≠ .halted ∧ ∃ t, tick s = .next t ∧ t.run = .running := by
  by_cases hr : s.run = .halted
  · rw [tickOutcome_of_halted hr]
    exact iff_of_false (by simp) fun h => h.1 hr
  · obtain ⟨t, ht⟩ := tick_total s
    rw [tickOutcome_eq_commit_iff hr ht, ht]
    simp [hr]

/-- Settles O26: the snapshot is taken of a committing tick, and a tick commits where it answers a running state. -/
theorem snapshotOnCommitOnly : Obligations.SnapshotOnCommitOnly := fun _ _ =>
  snapshot_eq_some_iff.trans (and_congr_right' tickOutcome_eq_commit_iff_exists)

/-! ### Timers (R226) -/

/-- The timers run in `RUNNING` alone (R226; assumption 3). -/
theorem State.timersRun_iff {s : State} : s.timersRun = true ↔ s.run = .running := by
  rw [State.timersRun]
  cases s.run <;> simp [Config.timersRunDuringKeyWait]

theorem State.timerTick_of_not_running {s : State} (hr : s.run ≠ .running) : s.timerTick = s :=
  if_neg (mt State.timersRun_iff.1 hr)

theorem State.timerEvents_of_not_running {s : State} (hr : s.run ≠ .running) : s.timerEvents = s :=
  if_neg (mt State.timersRun_iff.1 hr)

theorem State.timerTicks_of_running {s : State} (hr : s.run = .running) (k : Nat) :
    s.timerTicks k = { s with dt := countDown s.dt k, st := countDown s.st k } :=
  if_pos (State.timersRun_iff.2 hr)

/-- Settles O12: one `TimerTick` is the closed form at 1, and `countDown` subtracts down to 0. -/
theorem timerTickCountsDown : Obligations.TimerTickCountsDown := by
  refine fun s => ⟨fun hr => ?_, fun hr => State.timerTick_of_not_running (by rcases hr with hr | hr <;> simp [hr])⟩
  have hone : s.timerTick = s.timerTicks 1 := by rw [State.timerTicks_succ, State.timerTicks_zero]
  refine ⟨?_, ?_, s.timerTick_frame⟩
  · rw [hone, State.timerTicks_of_running hr]; exact countDown_toNat s.dt 1
  · rw [hone, State.timerTicks_of_running hr]; exact countDown_toNat s.st 1

/-- The closed form of a run of `TimerTick`s. -/
theorem State.timerTick_iterate (s : State) (k : Nat) : State.timerTick^[k] s = s.timerTicks k := by
  induction k with
  | zero => exact s.timerTicks_zero.symm
  | succ k ih => rw [Function.iterate_succ_apply', ih, State.timerTicks_succ]

/-- No `TimerTick` sees which free number comes next. -/
theorem State.timerTicks_setTimerDraws (s : State) (n k : Nat) :
    ({ s with timerDraws := n } : State).timerTicks k = { s.timerTicks k with timerDraws := n } := by
  have hrun : ({ s with timerDraws := n } : State).timersRun = s.timersRun := rfl
  rw [State.timerTicks, State.timerTicks, hrun]
  split <;> rfl

/-- The timer driver's turn is some number of `TimerTick`s, beside the count of free numbers drawn (R226; assumption 4). -/
theorem State.timerEvents_eq_timerTicks (s : State) :
    ∃ k, s.timerEvents = { s.timerTicks k with timerDraws := s.timerEvents.timerDraws } := by
  by_cases hr : s.timersRun = true
  · exact ⟨Config.timerTicks s.timerDraws, by simp [State.timerEvents, hr]⟩
  · refine ⟨0, ?_⟩
    rw [State.timerTicks_zero, State.timerEvents, if_neg hr]

/-- No timer rises while `TimerTick`s fall (R226). -/
theorem State.timerTicks_le (s : State) (k : Nat) :
    (s.timerTicks k).dt.toNat ≤ s.dt.toNat ∧ (s.timerTicks k).st.toNat ≤ s.st.toNat := by
  rw [State.timerTicks]
  split
  · exact ⟨(countDown_toNat s.dt k).trans_le (Nat.sub_le _ _), (countDown_toNat s.st k).trans_le (Nat.sub_le _ _)⟩
  · exact ⟨le_rfl, le_rfl⟩

/-! ### The agents' actions (R220, R228) -/

/-- The state after a whole action decides what the actions behind it do. -/
theorem acts_cons_of_act {a : Action} {s t : State} (rest : List Action) (h : act a s = .next t) :
    acts (a :: rest) s = acts rest t := by
  rw [acts, h]

theorem acts_singleton (a : Action) (s : State) : acts [a] s = act a s := by
  obtain ⟨t, ht⟩ := act_total a s
  rw [acts_cons_of_act [] ht, ht, acts]

/-- A machine that exists takes each `TimerTick`, and exists afterwards. -/
theorem acts_timerTicks_append (s : State) (k : Nat) (rest : List Action) (hp : s.present = true) :
    acts (List.replicate k .timerTick ++ rest) s = acts rest (State.timerTick^[k] s) := by
  induction k generalizing s with
  | zero => rfl
  | succ k ih =>
    rw [List.replicate_succ, List.cons_append, acts_cons_of_act _ (act_timerTick_of_present hp),
      ih _ ((State.timerTick_present s).trans hp), Function.iterate_succ_apply]

/-- With nothing on the agenda the step of a machine is `TimerTick`s and a tick, as actions (R220, R226). -/
theorem step_default_eq_acts {s : State} (hl : s.agenda = []) (hp : s.present = true) :
    ∃ k : Nat, step s =
      acts (List.replicate k .timerTick ++ [.tick]) { s with timerDraws := s.timerEvents.timerDraws } := by
  obtain ⟨k, hk⟩ := s.timerEvents_eq_timerTicks
  refine ⟨k, ?_⟩
  calc step s
      = tick s.timerEvents := step_default hl hp
    _ = act .tick s.timerEvents := (act_tick_of_present ((State.timerEvents_present s).trans hp)).symm
    _ = act .tick (State.timerTick^[k] { s with timerDraws := s.timerEvents.timerDraws }) := by
        rw [State.timerTick_iterate, State.timerTicks_setTimerDraws, ← hk]
    _ = acts (List.replicate k .timerTick ++ [.tick]) { s with timerDraws := s.timerEvents.timerDraws } := by
        rw [← acts_singleton]
        refine (acts_timerTicks_append _ k [.tick] ?_).symm
        exact hp

theorem run_succ_of_step {M : Host.Core} {s t : M.State} (k : Nat) (h : M.step s = .next t) :
    M.run (k + 1) s = M.run k t := by
  rw [Host.Core.run, h]

/-- As many steps as the agenda has actions are these actions, in order (R220). -/
theorem run_agenda (as : List Action) (s : State) :
    Host.Core.run Sys2Proof.core as.length (s.withAgenda as) = acts as (s.withAgenda []) := by
  induction as generalizing s with
  | nil => rfl
  | cons a rest ih =>
    obtain ⟨t, ht⟩ := act_total a s
    have hstep : step (s.withAgenda (a :: rest)) = .next (t.withAgenda rest) :=
      (step_agenda rfl).trans (act_withAgenda (s := s) rest ht)
    rw [acts_cons_of_act rest (act_withAgenda [] ht), ← ih]
    exact run_succ_of_step (M := Sys2Proof.core) rest.length hstep

/-- Settles O13: by `run_agenda` for the agenda, and `step_default_eq_acts` where there is none. -/
theorem anyInterleavingIsARun : Obligations.AnyInterleavingIsARun := by
  refine ⟨run_agenda, fun s => ⟨fun hp => ⟨act_tick_of_present hp, act_timerTick_of_present hp⟩,
    fun hp => ⟨act_tick_of_absent hp, act_timerTick_of_absent hp⟩, fun image => ⟨rfl, fun hl => ?_⟩, rfl⟩,
    fun s => step_default_eq_acts, fun s => step_absent, fun s => ?_⟩
  · rw [State.reload_fits s hl]; rfl
  · obtain ⟨k, hk⟩ := s.timerEvents_eq_timerTicks
    refine ⟨k, by rw [State.timerTick_iterate]; exact hk, ?_, ?_, State.timerEvents_of_not_running⟩
    · rw [hk]; exact (s.timerTicks_le k).1
    · rw [hk]; exact (s.timerTicks_le k).2

/-- Settles O17: by `step_eq_exec`, and by `tick_eq_exec` where the tick is on the agenda. -/
theorem stepRunsDecodedInstruction : Obligations.StepRunsDecodedInstruction := by
  refine fun s op i hp hr hf hd => ⟨fun hl => step_eq_exec hl hp hr hf hd, fun rest hl => ?_⟩
  rw [step_agenda hl, act_tick_of_present (s := s.withAgenda rest) hp]
  exact tick_eq_exec (s := s.withAgenda rest) hr hf hd

/-- No action but a `Load` takes a machine out of `HALTED` (R212, R226, R228). -/
theorem act_halted {a : Action} {s t : State} (hh : s.run = .halted) (ha : act a s = .next t) :
    t.run = .halted ∨ ∃ image, a = .load image := by
  cases a with
  | tick =>
    rw [act, tick_of_halted hh, ite_self] at ha
    cases ha
    exact .inl hh
  | timerTick =>
    rw [act, State.timerTick_of_not_running (by simp [hh]), ite_self] at ha
    cases ha
    exact .inl hh
  | load image => exact .inr ⟨image, rfl⟩
  | discard =>
    cases ha
    exact .inl hh

/-- A halted machine stays as it is where no agent acts (R212, R226; assumption 4). -/
theorem step_of_halted {s : State} (hl : s.agenda = []) (hh : s.run = .halted) : step s = .next s := by
  cases hp : s.present with
  | true => rw [step_default hl hp, State.timerEvents_of_not_running (by simp [hh]), tick_of_halted hh]
  | false => exact step_absent hl hp

/-- Settles O18: by `act_halted` for a step with an agenda and `step_of_halted` for one without. -/
theorem haltedTickIsIgnored : Obligations.HaltedTickIsIgnored := by
  refine fun s hh => ⟨tick_of_halted hh, fun hl => step_of_halted hl hh, tickOutcome_of_halted hh, ?_, fun t ht => ?_⟩
  · rw [snapshot, tickOutcome_of_halted hh]; rfl
  · cases hl : s.agenda with
    | nil =>
      rw [step_of_halted hl hh] at ht
      cases ht
      exact .inl hh
    | cons a rest =>
      rw [step_agenda hl] at ht
      obtain h | ⟨image, rfl⟩ := act_halted (s := s.withAgenda rest) hh ht
      · exact .inl h
      · exact .inr ⟨image, rest, rfl⟩

end Sys2Proof.Machine

/-! ## Reset and the end of a run -/

namespace Sys2Proof.Machine

/-! ### The four answers of `runEnd` (R262; assumptions 19 and 22) -/

/-- A wait for a key is no end of the run (R262). -/
theorem runEnd_of_awaitKey {s : State} (hp : s.present = true) (hw : s.run = .awaitKey) : runEnd s = none := by
  simp [runEnd, hp, hw]

/-- A discarded machine, a halted one and a waiting one are told by the state alone; a running one by its tick. -/
theorem runEnd_cases (s : State) :
    (s.present = false ∧ runEnd s = some .discarded) ∨
    (s.present = true ∧ s.run = .halted ∧ runEnd s = some .fatalError) ∨
    (s.present = true ∧ s.run = .awaitKey ∧ runEnd s = none) ∨
    (s.present = true ∧ s.run = .running ∧ tick s = .next s ∧ runEnd s = some .fixedPoint) ∨
    (s.present = true ∧ s.run = .running ∧ tick s ≠ .next s ∧ runEnd s = none) := by
  cases hp : s.present with
  | false => exact .inl ⟨rfl, by simp [runEnd, hp]⟩
  | true =>
    cases hr : s.run with
    | halted => exact .inr (.inl ⟨rfl, rfl, by simp [runEnd, hp, hr]⟩)
    | awaitKey => exact .inr (.inr (.inl ⟨rfl, rfl, runEnd_of_awaitKey hp hr⟩))
    | running =>
      by_cases ht : tick s = .next s
      · exact .inr (.inr (.inr (.inl ⟨rfl, rfl, ht, runEnd_fixedPoint s hp hr ht⟩)))
      · obtain ⟨t, hst⟩ := tick_total s
        have hne : t ≠ s := fun e => ht (e ▸ hst)
        exact .inr (.inr (.inr (.inr ⟨rfl, rfl, ht, by simp [runEnd, hp, hr, hst, hne]⟩)))

theorem runEnd_eq_discarded_iff {s : State} : runEnd s = some .discarded ↔ s.present = false := by
  obtain ⟨hp, he⟩ | ⟨hp, -, he⟩ | ⟨hp, -, he⟩ | ⟨hp, -, -, he⟩ | ⟨hp, -, -, he⟩ := runEnd_cases s <;> simp [hp, he]

theorem runEnd_eq_fatalError_iff {s : State} :
    runEnd s = some .fatalError ↔ s.present = true ∧ s.run = .halted := by
  obtain ⟨hp, he⟩ | ⟨hp, hr, he⟩ | ⟨hp, hr, he⟩ | ⟨hp, hr, -, he⟩ | ⟨hp, hr, -, he⟩ := runEnd_cases s <;> simp [*]

theorem runEnd_eq_fixedPoint_iff {s : State} :
    runEnd s = some .fixedPoint ↔ s.present = true ∧ s.run = .running ∧ tick s = .next s :=
  ⟨tick_of_runEnd, fun ⟨hp, hr, ht⟩ => runEnd_fixedPoint s hp hr ht⟩

/-! ### A fixed point of the tick is a jump to itself whose word `IR` holds (R103, R104, R262) -/

/-- Whether an instruction is a jump to itself depends on `PC` and `V0` alone. -/
theorem selfJump_congr {s t : State} (i : Instr) (hpc : t.pc = s.pc) (hv : t.getV 0 = s.getV 0) :
    selfJump i t = selfJump i s := by
  rw [selfJump.eq_def, selfJump.eq_def, hpc, hv]

theorem State.setPc_of_toNat_eq {s : State} {w : Word} (h : w.toNat = s.pc.toNat) : s.setPc w = s := by
  rw [BitVec.eq_of_toNat_eq h]; rfl

/-- A jump to its own address leaves the whole state (R103, R104). -/
theorem exec_of_selfJump {i : Instr} {s : State} (h : selfJump i s = true) : exec i s = .next s := by
  cases i
  case jp nnn => exact congrArg _ (State.setPc_of_toNat_eq ((zeroExtend_addr_toNat nnn).trans (beq_iff_eq.1 h)))
  case jpV0 nnn => exact congrArg _ (State.setPc_of_toNat_eq ((jpV0_target_toNat nnn (s.getV 0)).trans (beq_iff_eq.1 h)))
  all_goals cases h

theorem tick_of_selfJump {s : State} {op : Word} {i : Instr} (hr : s.run ≠ .halted) (hf : Fetches s op)
    (hd : decodeWord op = .ok i) (hj : selfJump i s = true) : tick s = .next (s.startTick op) := by
  rw [tick_eq_exec hr hf hd]
  exact exec_of_selfJump ((selfJump_congr i rfl rfl).trans hj)

/-- An instruction that leaves a running machine at its own address is a jump to it: every other one moves `PC` on, but `CALL`
and `RET`, which move `SP` (R17, R20). -/
theorem selfJump_of_tick_eq_self {s : State} {op : Word} {i : Instr} (hr : s.run = .running) (hf : Fetches s op)
    (hd : decodeWord op = .ok i) (ht : tick s = .next s) : selfJump i s = true := by
  have hnh : s.run ≠ .halted := by simp [hr]
  have hpc := (pcAfterTick s s op i hnh hf hd ht).2 hr
  have hx : exec i (s.startTick op) = .next s := (tick_eq_exec hnh hf hd).symm.trans ht
  have hstack := onlyCallAndRetTouchStack i _ s hx
  have hguard : execGuard i (s.startTick op) := by
    obtain ⟨-, e, -, he⟩ | ⟨hg, -⟩ := exec_cases hx
    · exact absurd (congrArg State.run he) hnh
    · exact hg
  have hlt := s.pc.isLt
  cases i <;> dsimp only at hpc hstack
  case jp nnn => exact beq_iff_eq.2 hpc.symm
  case jpV0 nnn =>
    have hn := nnn.isLt
    have hv := (s.getV 0).isLt
    exact beq_iff_eq.2 (by omega)
  case call nnn =>
    have hsp : s.sp.val ≠ 16 := hguard
    have hpush : s.sp.val < 16 → s.sp.val = s.sp.val + 1 := hstack.1
    have hle := s.sp.isLt
    omega
  case ret =>
    have hpop : s.sp.val + 1 = s.sp.val := hstack.1 (Fin.val_ne_iff.2 hguard)
    omega
  case seImm | sneImm | seReg | sneReg | skp | sknp => split at hpc <;> omega
  all_goals omega

theorem Fetches.unique {s : State} {op op' : Word} (h : Fetches s op) (h' : Fetches s op') : op = op' :=
  BitVec.eq_of_toNat_eq (h.2.trans h'.2.symm)

/-- The run has ended at a fixed point exactly where the machine is at a jump to itself and `IR` holds its word (R262). -/
theorem runEnd_eq_fixedPoint_iff_atSelfJump {s : State} :
    runEnd s = some .fixedPoint ↔ s.atSelfJump ∧ Fetches s s.ir := by
  rw [runEnd_eq_fixedPoint_iff]
  constructor
  · rintro ⟨hp, hr, ht⟩
    obtain ⟨hh, -⟩ | ⟨-, -, e⟩ | ⟨-, -, -, e⟩ | ⟨-, hb, i, hd, hx⟩ := tick_cases ht
    · rw [hr] at hh; cases hh
    · injection e with e; rw [e] at hr; cases hr
    · injection e with e; rw [e] at hr; cases hr
    · have hf : Fetches s s.fetchWord := (fetches_iff s _).2 ⟨hb, rfl⟩
      have hir : s.ir = s.fetchWord := (onlyTheirLoadsWriteTimers i _ s hx.symm).1
      exact ⟨⟨hp, hr, _, i, hf, hd, selfJump_of_tick_eq_self hr hf hd ht⟩, hir ▸ hf⟩
  · rintro ⟨⟨hp, hr, op, i, hf, hd, hj⟩, hir⟩
    have hs : s.startTick op = s := by rw [State.startTick, hf.unique hir, ← hr]
    exact ⟨hp, hr, (tick_of_selfJump (by simp [hr]) hf hd hj).trans (congrArg _ hs)⟩

/-- One tick of a jump to itself fetches its word into `IR`, and the run has ended (R22, R262). -/
theorem tick_of_atSelfJump {s : State} (h : s.atSelfJump) :
    ∃ t, tick s = .next t ∧ t = { s with ir := t.ir } ∧ runEnd t = some .fixedPoint := by
  obtain ⟨hp, hr, op, i, hf, hd, hj⟩ := h
  refine ⟨s.startTick op, tick_of_selfJump (by simp [hr]) hf hd hj, by rw [State.startTick, ← hr],
    runEnd_eq_fixedPoint_iff_atSelfJump.2 ⟨⟨hp, rfl, op, i, hf, hd, ?_⟩, hf⟩⟩
  exact (selfJump_congr i rfl rfl).trans hj

/-! ### An ended run stays ended while the timers and the agenda move on (R220, R226; assumptions 4 and 23) -/

/-- Nothing differs but the timers and what says which event comes next. -/
def TimerFrame (s t : State) : Prop :=
  t = { s with dt := t.dt, st := t.st, timerDraws := t.timerDraws, agenda := t.agenda }

theorem TimerFrame.withAgenda (s : State) (l : List Action) : TimerFrame s (s.withAgenda l) := rfl

theorem TimerFrame.timerTick (s : State) : TimerFrame s s.timerTick := by
  rw [TimerFrame, State.timerTick_frame]

theorem TimerFrame.timerEvents (s : State) : TimerFrame s s.timerEvents := by
  rw [TimerFrame, State.timerEvents_frame]

theorem TimerFrame.trans {s t u : State} (h : TimerFrame s t) (h' : TimerFrame t u) : TimerFrame s u := by
  rw [TimerFrame, h] at h'
  exact h'

/-- No jump to itself depends on the timers or the agenda. -/
theorem TimerFrame.keeps_fixedPoint {s t : State} (h : TimerFrame s t) (hs : runEnd s = some .fixedPoint) :
    runEnd t = some .fixedPoint := by
  rw [runEnd_eq_fixedPoint_iff_atSelfJump] at hs ⊢
  obtain ⟨⟨hp, hr, op, i, hf, hd, hj⟩, hir⟩ := hs
  rw [h]
  exact ⟨⟨hp, hr, op, i, hf, hd, (selfJump_congr i rfl rfl).trans hj⟩, hir⟩

/-- The core and the timer driver leave an ended run but for the timers (R226, R262). -/
theorem act_of_runEnd {s : State} {a : Action} (hs : runEnd s = some .fixedPoint) (hload : ∀ image, a ≠ .load image)
    (hdiscard : a ≠ .discard) : ∃ t, act a s = .next t ∧ TimerFrame s t := by
  obtain ⟨hp, -, ht⟩ := tick_of_runEnd hs
  cases a with
  | tick => exact ⟨s, (act_tick_of_present hp).trans ht, rfl⟩
  | timerTick => exact ⟨_, act_timerTick_of_present hp, .timerTick s⟩
  | load image => exact absurd rfl (hload image)
  | discard => exact absurd rfl hdiscard

theorem step_of_runEnd {s : State} (hs : runEnd s = some .fixedPoint)
    (hload : ∀ image rest, s.agenda ≠ .load image :: rest) (hdiscard : ∀ rest, s.agenda ≠ .discard :: rest) :
    ∃ t, step s = .next t ∧ TimerFrame s t := by
  cases hl : s.agenda with
  | nil =>
    have hte : TimerFrame s s.timerEvents := .timerEvents s
    obtain ⟨-, -, ht⟩ := tick_of_runEnd (hte.keeps_fixedPoint hs)
    exact ⟨_, (step_default hl (tick_of_runEnd hs).1).trans ht, hte⟩
  | cons a rest =>
    have hwa : TimerFrame s (s.withAgenda rest) := .withAgenda s rest
    obtain ⟨t, ht, hst⟩ := act_of_runEnd (a := a) (hwa.keeps_fixedPoint hs) (fun image e => hload image rest (e ▸ hl))
      fun e => hdiscard rest (e ▸ hl)
    exact ⟨t, (step_agenda hl).trans ht, hwa.trans hst⟩

/-- Settles O27: the answers of `runEnd` by `runEnd_cases`, its fixed point by `runEnd_eq_fixedPoint_iff_atSelfJump`, and what
keeps it by `step_of_runEnd`. -/
theorem selfJumpIsFixedPoint : Obligations.SelfJumpIsFixedPoint := by
  refine ⟨fun _ => runEnd_eq_discarded_iff, fun _ => runEnd_eq_fatalError_iff, fun _ => runEnd_eq_fixedPoint_iff,
    fun _ => runEnd_eq_fixedPoint_iff_atSelfJump, fun _ => runEnd_of_awaitKey, fun _ => tick_of_atSelfJump,
    fun _ hs hload hdiscard => ?_⟩
  obtain ⟨t, ht, hst⟩ := step_of_runEnd hs hload hdiscard
  exact ⟨t, ht, hst.keeps_fixedPoint hs, hst⟩

/-! ### Reset (R222, R251; assumptions 2 and 17) -/

/-- Settles O11: `Load` of no bytes writes none, and `FB_INIT` is the cleared buffer. -/
theorem resetIsLoadOfTheEmptyImage : Obligations.ResetIsLoadOfTheEmptyImage :=
  ⟨load_fits (Nat.zero_le _), State.pixel_dispClear State.reset, State.reset_mem_wf,
    fun r => Vector.getElem_replicate r.isLt⟩

end Sys2Proof.Machine
